-- ==== Sys2Proof/Word.lean ====
section
/-! DEFINITION. The value types of the JDB: fixed widths of rule R8, unbounded time of rule R25, opaque text of rule R57. -/

namespace Sys2Proof

/-- One byte: PDU format, PDU specific, addresses, payload bytes (R8). -/
abbrev Byte := BitVec 8

/-- A 32-bit unsigned value: identifier word, command word, SPN number, raw SPN value (R8). -/
abbrev Word := BitVec 32

/-- The bit pattern of an IEEE 754 binary64 value (R8, R11). -/
abbrev F64 := BitVec 64

/-- A natural number of milliseconds; it never wraps (R25). -/
abbrev Time := Nat

/-- Opaque text, held as its bytes: the block copies it and never interprets it (R57, log entry 7). -/
abbrev Text := List Byte

/-- A finite map with natural-number keys, held as a list of pairs. Its canonical form (keys strictly rising) is
`Sys2Proof.Machine.MapWf`. -/
abbrev NatMap (α : Type) := List (Nat × α)

end Sys2Proof
end

