-- ==== Sys2Proof/Syntax.lean ====
section
/-! DEFINITION. The formats of rule R48 as data (ID, FRAME, SPNDEF, PGNDEF, CMD) and the one inductive of instructions:
one constructor for each row of spec/opcode_table.json. The first nine are the command rows (R59, R129); the other twelve are
the frame classes that PROCESS_FRAME selects between (R68). -/

namespace Sys2Proof

/-- The six fields of a 29-bit identifier (R49, R80); also the operand tuple of ENCODE_ID (R83). -/
structure IdFields where
  prio : BitVec 3
  r    : BitVec 1
  dp   : BitVec 1
  pf   : Byte
  ps   : Byte
  sa   : Byte
deriving DecidableEq, Repr

/-- The eight data lanes of a CAN frame (R51). -/
structure Lanes where
  b0 : Byte
  b1 : Byte
  b2 : Byte
  b3 : Byte
  b4 : Byte
  b5 : Byte
  b6 : Byte
  b7 : Byte
deriving DecidableEq, Repr

/-- The frame operand of PROCESS_FRAME (R51). -/
structure Frame where
  ide   : BitVec 1
  arbId : Word
  dlc   : BitVec 4
  data  : Lanes
deriving DecidableEq, Repr

/-- What every transport frame carries besides its data lanes: the priority, which no TPR rule reads (R99), the two addresses
and the data length code. R, DP and PF are fixed by the frame's PGN (R87). -/
structure TpHeader where
  prio : BitVec 3
  sa   : Byte
  da   : Byte
  dlc  : BitVec 4
deriving DecidableEq, Repr

/-- The seven lanes of a TP.DT frame after its sequence number (R56). -/
structure ChunkLanes where
  c0 : Byte
  c1 : Byte
  c2 : Byte
  c3 : Byte
  c4 : Byte
  c5 : Byte
  c6 : Byte
deriving DecidableEq, Repr

/-- An SpnDefinition record (R57). -/
structure SpnDef where
  spnId      : Word
  pgn        : Word
  startByte  : BitVec 16
  startBit   : Byte
  bitLength  : Byte
  resolution : F64
  offset     : F64
  unit       : Text
deriving DecidableEq, Repr

/-- A PgnDefinition record (R58). -/
structure PgnDef where
  label      : Text
  byteLength : BitVec 16
  spnIds     : List Word
deriving DecidableEq, Repr

/-- One command as the host presents it on the command port: the command word and the operand lanes (R59, R60). The spec gives
the operands widths but no bit positions, so each has a lane of its own; an opcode reads the lanes it names (log entry 1). -/
structure PortCommand where
  cw      : Word
  now     : Time
  frame   : Frame
  id      : Word
  fields  : IdFields
  n       : BitVec 16
  payload : List Byte
  dfn     : SpnDef
  src     : Byte
  dst     : Byte
deriving DecidableEq, Repr

/-- A line of the spec's assembler as data (R75, R76): numbers already read, `data=` as the bytes written, and `dlc=` absent when it
is omitted. -/
inductive AsmLine where
  | processFrame (t : Time) (id : Word) (std : Bool) (dlc : Option (BitVec 4)) (data : List Byte)
  | decodeId (id : Word)
  | encodeId (prio : BitVec 3) (r dp : BitVec 1) (pf ps sa : Byte)
  | decodeSpn (data : List Byte) (spn : Word) (byte : BitVec 16) (bit len : Byte) (res off : F64) (unit : Text)
  | tick (t : Time)
  | querySession (t : Time) (src dst : Byte)
  | reset
  | tpBam (t : Time) (src : Byte) (size : BitVec 16) (np : Byte) (pgn : BitVec 24)
  | tpRts (t : Time) (src dst : Byte) (size : BitVec 16) (np : Byte) (pgn : BitVec 24)
  | tpCts (t : Time) (src dst k next : Byte) (pgn : BitVec 24)
  | tpEoma (t : Time) (src dst : Byte) (size : BitVec 16) (np : Byte) (pgn : BitVec 24)
  | tpAbort (t : Time) (src dst reason : Byte) (pgn : BitVec 24)
  | tpDt (t : Time) (src dst seq : Byte) (chunk : List Byte)
deriving DecidableEq, Repr

/-- The instructions of the JDB, one constructor per row of spec/opcode_table.json. -/
inductive Instr where
  /-- PROCESS_FRAME, opcode 0 (R118). -/
  | processFrame (now : Time) (frame : Frame)
  /-- DECODE_ID, opcode 1 (R82). -/
  | decodeId (id : Word)
  /-- ENCODE_ID, opcode 2 (R83). -/
  | encodeId (x : IdFields)
  /-- DECODE_SPN, opcode 3 (R98). -/
  | decodeSpn (n : BitVec 16) (payload : List Byte) (dfn : SpnDef)
  /-- TICK, opcode 4 (R126). -/
  | tick (now : Time)
  /-- QUERY_SESSION, opcode 5 (R127). -/
  | querySession (now : Time) (src dst : Byte)
  /-- RESET, opcode 6 (R128). -/
  | reset
  /-- The reserved opcode 7 with `cw[31:3] = 0` (R129). -/
  | illegalOpcode7
  /-- A command word with `cw[31:3] != 0` (R129). -/
  | illegalReserved (cw : Word)
  /-- A frame with `ide = 0` (R119). -/
  | frameStandard (now : Time) (arbId : Word) (dlc : BitVec 4) (data : Lanes)
  /-- An extended frame with `arb_id[31:29] != 0` (R50). -/
  | frameInvalidId (now : Time) (arbId : Word) (dlc : BitVec 4) (data : Lanes)
  /-- TP.CM with fewer than eight data bytes (R105). -/
  | tpCmShort (now : Time) (h : TpHeader) (data : Lanes)
  /-- TP.CM.RTS (R107, R53). -/
  | tpCmRts (now : Time) (h : TpHeader) (size : BitVec 16) (np maxPackets : Byte) (pgn : BitVec 24)
  /-- TP.CM.CTS (R108, R53): `count` packets may be sent, `next` is the next sequence number. -/
  | tpCmCts (now : Time) (h : TpHeader) (count next rsv3 rsv4 : Byte) (pgn : BitVec 24)
  /-- TP.CM.EOMA (R109, R53). -/
  | tpCmEoma (now : Time) (h : TpHeader) (size : BitVec 16) (np rsv4 : Byte) (pgn : BitVec 24)
  /-- TP.CM.BAM (R106, R53). -/
  | tpCmBam (now : Time) (h : TpHeader) (size : BitVec 16) (np rsv4 : Byte) (pgn : BitVec 24)
  /-- TP.CM.Abort (R110, R53). -/
  | tpCmAbort (now : Time) (h : TpHeader) (reason rsv2 rsv3 rsv4 : Byte) (pgn : BitVec 24)
  /-- TP.CM with a reserved control byte, which is `data.b0` (R111). -/
  | tpCmReserved (now : Time) (h : TpHeader) (data : Lanes)
  /-- TP.DT with no data byte (R112). -/
  | tpDtEmpty (now : Time) (h : TpHeader) (data : Lanes)
  /-- TP.DT with a sequence number (R113, R56). -/
  | tpDt (now : Time) (h : TpHeader) (seq : Byte) (chunk : ChunkLanes)
  /-- A single-frame message (R120). -/
  | frameSingle (now : Time) (x : IdFields) (dlc : BitVec 4) (data : Lanes)
deriving DecidableEq, Repr

end Sys2Proof
end

