-- ==== Sys2Proof/Config.lean ====
section
/-! DEFINITION. The instance parameters of rule R7 as plain data, and the model's one free value: the bit pattern of a NaN result
(R96, U7). The default values stand in Machine/Defaults.lean. -/

namespace Sys2Proof

/-- `CFG.UNKNOWN_PGN_POLICY`: 0 = ERROR, 1 = PASS_RAW (R17). -/
inductive UnknownPgnPolicy where
  | error
  | passRaw
deriving DecidableEq, Repr

/-- The raw values `lo .. hi` of a field of `width` bits. -/
structure SentinelRange where
  width : Nat
  lo    : Word
  hi    : Word
deriving DecidableEq, Repr

/-- One value of the parameter `SENTINEL` (R93): the error patterns and the not-available patterns of each field width. Property
S1 is no entry of it: the classifier applies S1 to every table (log entry 4). -/
structure SentinelTable where
  errors       : List SentinelRange
  notAvailable : List SentinelRange
deriving DecidableEq, Repr

/-- A finite capacity of the session table: a natural number of at least 1 (R7). -/
structure SessionLimit where
  count : Nat
  pos   : 1 ≤ count
deriving DecidableEq, Repr

/-- The parameters of one JDB (R7, R17). No command writes one (R18). `maxSessions = none` is `INF`. The dictionary functions
`DICT_PGN` and `DICT_SPN` are finite tables; the first entry of a key answers (log entry 3). -/
structure Instance where
  timeoutBam  : Word
  timeoutCm   : Word
  policy      : UnknownPgnPolicy
  maxSessions : Option SessionLimit
  sentinels   : SentinelTable
  dictPgn     : List (Word × PgnDef)
  dictSpn     : List (Word × SpnDef)
  name        : Text
deriving DecidableEq, Repr

/-- The free value of rule R96: the sign and the non-zero fraction (less one) of the k-th NaN the machine produces. Nothing is
known of it (log entry 5). -/
opaque Config.freeNan : Nat → Bool × Fin 4503599627370495

end Sys2Proof
end

