-- ==== Sys2Proof/Decode.lean ====
section
/-! DEFINITION. The identifier's fields and PGN (R49, R77 to R80), the frame classes (R68), the command decoder (R67), the decoder
of a frame into its class with the class's fields (R53 to R56), and after them the encoders. Also the numbering the host uses
for the words of spec/opcode_table.json (R69). -/

namespace Sys2Proof

/-! ### The identifier (R49, R77, R78, R79, R80) -/

/-- `v[lo + w - 1 : lo]` of a 32-bit word (R9). -/
def bitsAt (v : Word) (lo w : Nat) : BitVec w := v.extractLsb' lo w

/-- The identifier is valid when its bits 31:29 are 0 (R50). -/
def idValid (id : Word) : Bool := bitsAt id 29 3 == 0

/-- The six fields of an identifier (R80). -/
def idFields (id : Word) : IdFields where
  prio := bitsAt id 26 3
  r    := bitsAt id 25 1
  dp   := bitsAt id 24 1
  pf   := bitsAt id 16 8
  ps   := bitsAt id 8 8
  sa   := bitsAt id 0 8

/-- The identifier word of six fields, bits 31:29 being 0 (R83). -/
def idWord (x : IdFields) : Word := 0#3 ++ x.prio ++ x.r ++ x.dp ++ x.pf ++ x.ps ++ x.sa

/-- PDU1 is PDU format below 240 (R77). -/
def isPdu1 (pf : Byte) : Bool := pf.toNat < 240

/-- The 18-bit PGN: R, DP, PF, and PS in PDU2 only (R78). -/
def pgnOf (x : IdFields) : BitVec 18 := x.r ++ x.dp ++ x.pf ++ (if isPdu1 x.pf then 0#8 else x.ps)

/-- The destination address: PS in PDU1, 0xFF in PDU2 (R79). -/
def daOf (x : IdFields) : Byte := if isPdu1 x.pf then x.ps else 0xFF#8

/-! ### The frame (R51, R53 to R56, R68) -/

/-- `n = min(dlc, 8)` (R51). -/
def frameLen (dlc : BitVec 4) : Nat := min dlc.toNat 8

/-- `data[1] | (data[2] << 8)` (R54). -/
def cmSize (d : Lanes) : BitVec 16 := d.b2 ++ d.b1

/-- `data[5] | (data[6] << 8) | (data[7] << 16)`, all 24 bits (R55). -/
def cmPgn (d : Lanes) : BitVec 24 := d.b7 ++ d.b6 ++ d.b5

/-- The lanes after the sequence number (R56). -/
def dtLanes (d : Lanes) : ChunkLanes := ⟨d.b1, d.b2, d.b3, d.b4, d.b5, d.b6, d.b7⟩

/-- The addresses of a transport frame, its PS being the destination (R87, R99). -/
def tpHeader (f : Frame) : TpHeader where
  prio := (idFields f.arbId).prio
  sa   := (idFields f.arbId).sa
  da   := (idFields f.arbId).ps
  dlc  := f.dlc

/-- The twelve frame classes of rule R68. -/
inductive FrameClass where
  | standard | invalidId | cmShort | rts | cts | eoma | bam | abort | cmReserved | dtEmpty | dt | single
deriving DecidableEq, Repr

/-- The PGN of a transport control frame (R87). -/
def pgnTpCm : BitVec 18 := 0x0EC00#18

/-- The PGN of a transport data frame (R87). -/
def pgnTpDt : BitVec 18 := 0x0EB00#18

/-- The class of a TP.CM frame of eight data bytes, by its control byte (R52, R68). -/
def cmClass (control : Byte) : FrameClass :=
  if control = 0x10#8 then .rts
  else if control = 0x11#8 then .cts
  else if control = 0x13#8 then .eoma
  else if control = 0x20#8 then .bam
  else if control = 0xFF#8 then .abort
  else .cmReserved

/-- The class of a frame; the conditions are tested in the order of rule R68's table. -/
def classify (f : Frame) : FrameClass :=
  if f.ide = 0 then .standard
  else if idValid f.arbId = false then .invalidId
  else if pgnOf (idFields f.arbId) = pgnTpCm then
    if frameLen f.dlc < 8 then .cmShort else cmClass f.data.b0
  else if pgnOf (idFields f.arbId) = pgnTpDt then
    if frameLen f.dlc = 0 then .dtEmpty else .dt
  else .single

/-- The instruction of a frame's class, with the class's fields taken out of the frame (R53 to R56, R68). Total: every frame has
a class. -/
def decodeFrame (now : Time) (f : Frame) : Instr :=
  match classify f with
  | .standard   => .frameStandard now f.arbId f.dlc f.data
  | .invalidId  => .frameInvalidId now f.arbId f.dlc f.data
  | .cmShort    => .tpCmShort now (tpHeader f) f.data
  | .rts        => .tpCmRts now (tpHeader f) (cmSize f.data) f.data.b3 f.data.b4 (cmPgn f.data)
  | .cts        => .tpCmCts now (tpHeader f) f.data.b1 f.data.b2 f.data.b3 f.data.b4 (cmPgn f.data)
  | .eoma       => .tpCmEoma now (tpHeader f) (cmSize f.data) f.data.b3 f.data.b4 (cmPgn f.data)
  | .bam        => .tpCmBam now (tpHeader f) (cmSize f.data) f.data.b3 f.data.b4 (cmPgn f.data)
  | .abort      => .tpCmAbort now (tpHeader f) f.data.b1 f.data.b2 f.data.b3 f.data.b4 (cmPgn f.data)
  | .cmReserved => .tpCmReserved now (tpHeader f) f.data
  | .dtEmpty    => .tpDtEmpty now (tpHeader f) f.data
  | .dt         => .tpDt now (tpHeader f) f.data.b0 (dtLanes f.data)
  | .single     => .frameSingle now (idFields f.arbId) f.dlc f.data

/-! ### The command (R59, R60, R67) -/

/-- Why the decoder refuses what stands on the port: DECODE_SPN's payload has not exactly `n` bytes (R60), so it is no command. -/
inductive DecodeError where
  | payloadCount
deriving DecidableEq, Repr

/-- The command decoder (R67): `cw[31:3] != 0` is illegal, otherwise `cw[2:0]` selects the row of rule R59. -/
def decode (c : PortCommand) : Except DecodeError Instr :=
  if bitsAt c.cw 3 29 ≠ 0 then .ok (.illegalReserved c.cw)
  else
    match (bitsAt c.cw 0 3).toNat with
    | 0 => .ok (.processFrame c.now c.frame)
    | 1 => .ok (.decodeId c.id)
    | 2 => .ok (.encodeId c.fields)
    | 3 => if c.payload.length = c.n.toNat then .ok (.decodeSpn c.n c.payload c.dfn) else .error .payloadCount
    | 4 => .ok (.tick c.now)
    | 5 => .ok (.querySession c.now c.src c.dst)
    | 6 => .ok .reset
    | _ => .ok .illegalOpcode7

/-- The second layer of decoding (R68): PROCESS_FRAME becomes the instruction of its frame's class; the other instructions have
no second layer. -/
def selectClass : Instr → Instr
  | .processFrame now f => decodeFrame now f
  | i => i

/-! ### The encoders -/

/-- All lanes zero. -/
def zeroLanes : Lanes := ⟨0, 0, 0, 0, 0, 0, 0, 0⟩

/-- The frame with every bit zero. -/
def zeroFrame : Frame := ⟨0, 0, 0, zeroLanes⟩

/-- The port with every lane zero and the given command word. -/
def portWord (cw : Word) : PortCommand where
  cw      := cw
  now     := 0
  frame   := zeroFrame
  id      := 0
  fields  := ⟨0, 0, 0, 0, 0, 0⟩
  n       := 0
  payload := []
  dfn     := ⟨0, 0, 0, 0, 0, 0, 0, []⟩
  src     := 0
  dst     := 0

/-- A PROCESS_FRAME command (R59). -/
def portFrame (now : Time) (f : Frame) : PortCommand := { portWord 0 with now := now, frame := f }

/-- The extended frame of a transport header: R = DP = 0 and the given PF (R49, R87). -/
def tpFrame (pf : Byte) (h : TpHeader) (d : Lanes) : Frame where
  ide   := 1
  arbId := idWord ⟨h.prio, 0, 0, pf, h.da, h.sa⟩
  dlc   := h.dlc
  data  := d

/-- The eight bytes of a control frame with a size: RTS, EOMA and BAM (R53). -/
def announceLanes (control : Byte) (size : BitVec 16) (np b4 : Byte) (pgn : BitVec 24) : Lanes where
  b0 := control
  b1 := size.extractLsb' 0 8
  b2 := size.extractLsb' 8 8
  b3 := np
  b4 := b4
  b5 := pgn.extractLsb' 0 8
  b6 := pgn.extractLsb' 8 8
  b7 := pgn.extractLsb' 16 8

/-- The eight bytes of CTS and Abort: four bytes between the control byte and the PGN (R53). -/
def controlLanes (control b1 b2 b3 b4 : Byte) (pgn : BitVec 24) : Lanes where
  b0 := control
  b1 := b1
  b2 := b2
  b3 := b3
  b4 := b4
  b5 := pgn.extractLsb' 0 8
  b6 := pgn.extractLsb' 8 8
  b7 := pgn.extractLsb' 16 8

/-- The command of an instruction (R59). A frame class encodes as the PROCESS_FRAME that carries its frame. -/
def encode : Instr → PortCommand
  | .processFrame now f => portFrame now f
  | .decodeId id => { portWord 1 with id := id }
  | .encodeId x => { portWord 2 with fields := x }
  | .decodeSpn n p d => { portWord 3 with n := n, payload := p, dfn := d }
  | .tick now => { portWord 4 with now := now }
  | .querySession now src dst => { portWord 5 with now := now, src := src, dst := dst }
  | .reset => portWord 6
  | .illegalOpcode7 => portWord 7
  | .illegalReserved cw => portWord cw
  | .frameStandard now a dlc d => portFrame now ⟨0, a, dlc, d⟩
  | .frameInvalidId now a dlc d => portFrame now ⟨1, a, dlc, d⟩
  | .tpCmShort now h d => portFrame now (tpFrame 0xEC h d)
  | .tpCmRts now h size np mx pgn => portFrame now (tpFrame 0xEC h (announceLanes 0x10 size np mx pgn))
  | .tpCmCts now h count next r3 r4 pgn => portFrame now (tpFrame 0xEC h (controlLanes 0x11 count next r3 r4 pgn))
  | .tpCmEoma now h size np r4 pgn => portFrame now (tpFrame 0xEC h (announceLanes 0x13 size np r4 pgn))
  | .tpCmBam now h size np r4 pgn => portFrame now (tpFrame 0xEC h (announceLanes 0x20 size np r4 pgn))
  | .tpCmAbort now h reason r2 r3 r4 pgn => portFrame now (tpFrame 0xEC h (controlLanes 0xFF reason r2 r3 r4 pgn))
  | .tpCmReserved now h d => portFrame now (tpFrame 0xEC h d)
  | .tpDtEmpty now h d => portFrame now (tpFrame 0xEB h d)
  | .tpDt now h q c => portFrame now (tpFrame 0xEB h ⟨q, c.c0, c.c1, c.c2, c.c3, c.c4, c.c5, c.c6⟩)
  | .frameSingle now x dlc d => portFrame now ⟨1, idWord x, dlc, d⟩

/-! ### The spec's assembler (R75, R76) -/

/-- `data=` with fewer than eight bytes sets the missing lanes to 0 (R75). -/
def lanesOf (bytes : List Byte) : Lanes where
  b0 := bytes.getD 0 0
  b1 := bytes.getD 1 0
  b2 := bytes.getD 2 0
  b3 := bytes.getD 3 0
  b4 := bytes.getD 4 0
  b5 := bytes.getD 5 0
  b6 := bytes.getD 6 0
  b7 := bytes.getD 7 0

/-- The frame of a PROCESS_FRAME line: extended unless `std`, and an omitted `dlc=` is the number of bytes given (R75). DESIGN CHOICE
(log entry 19): of more than eight bytes, of which the rule does not speak, those past the eighth are dropped, and an omitted
`dlc=` is the count's low four bits. -/
def asmFrame (id : Word) (std : Bool) (dlc : Option (BitVec 4)) (data : List Byte) : Frame where
  ide   := if std then 0 else 1
  arbId := id
  dlc   := dlc.getD (BitVec.ofNat 4 data.length)
  data  := lanesOf data

/-- The header a pseudo-instruction writes: priority 7, R = DP = 0, eight bytes (R76). -/
def asmHeader (src dst : Byte) : TpHeader := ⟨7, src, dst, 8⟩

/-- The command of a line; each line is one command, and each pseudo-instruction one PROCESS_FRAME whose reserved bytes are 0xFF
(R75, R76). DESIGN CHOICE (log entry 19): a DECODE_SPN line has no operand for the SPNDEF's `pgn`, which no rule reads (R57), and the
model writes 0; its `n` is the count's low sixteen bits. A TP.DT line has one to seven chunk bytes (R76); one with none or more is
read as its PROCESS_FRAME line would be. -/
def assemble : AsmLine → PortCommand
  | .processFrame t id std dlc data => portFrame t (asmFrame id std dlc data)
  | .decodeId id => encode (.decodeId id)
  | .encodeId prio r dp pf ps sa => encode (.encodeId ⟨prio, r, dp, pf, ps, sa⟩)
  | .decodeSpn data spn byte bit len res off unit =>
    encode (.decodeSpn (BitVec.ofNat 16 data.length) data ⟨spn, 0, byte, bit, len, res, off, unit⟩)
  | .tick t => encode (.tick t)
  | .querySession t src dst => encode (.querySession t src dst)
  | .reset => encode .reset
  | .tpBam t src size np pgn => encode (.tpCmBam t (asmHeader src 0xFF) size np 0xFF pgn)
  | .tpRts t src dst size np pgn => encode (.tpCmRts t (asmHeader src dst) size np 0xFF pgn)
  | .tpCts t src dst k next pgn => encode (.tpCmCts t (asmHeader src dst) k next 0xFF 0xFF pgn)
  | .tpEoma t src dst size np pgn => encode (.tpCmEoma t (asmHeader src dst) size np 0xFF pgn)
  | .tpAbort t src dst reason pgn => encode (.tpCmAbort t (asmHeader src dst) reason 0xFF 0xFF 0xFF pgn)
  | .tpDt t src dst seq chunk => portFrame t (asmFrame (idWord ⟨7, 0, 0, 0xEB, dst, src⟩) false none (seq :: chunk))

/-! ### The words of spec/opcode_table.json (R69) -/

/-- The frame of a 40-bit frame-class word `FCW = (arb_id << 8) | b0`. What the FCW does not hold is chosen: an extended frame of
eight data bytes, the other lanes zero (log entry 8). -/
def frameOfFcw (w : Nat) : Frame where
  ide   := 1
  arbId := BitVec.ofNat 32 (w / 256)
  dlc   := 8
  data  := { zeroLanes with b0 := BitVec.ofNat 8 w }

/-- What the host presents for a word of the table: a command word with zero operand lanes, or for a 40-bit FCW the PROCESS_FRAME
at time 0 that carries the FCW's frame. -/
def portOfTableWord (nbits w : Nat) : PortCommand :=
  if nbits = 40 then portFrame 0 (frameOfFcw w) else portWord (BitVec.ofNat 32 w)

/-- The instruction of a word of the table: a 32-bit command word is read by the command decoder, a 40-bit frame-class word by the
decoder of frame classes as well. -/
def decodeTableWord (nbits w : Nat) : Option Instr :=
  match decode (portOfTableWord nbits w) with
  | .ok i => some (if nbits = 40 then selectClass i else i)
  | .error _ => none

end Sys2Proof
end

