-- ==== Sys2Proof/Machine/Defaults.lean ====
section
/-! DEFINITION. The values the spec gives for an instance's parameters (R7, R17, R94), and the values the model names for those the
spec leaves open (log entry 2). Every claim about a state holds for every value of them. -/

namespace Sys2Proof.Machine

/-- The default instance of the parameter `SENTINEL` (R94). -/
def defaultSentinels : SentinelTable where
  errors := [⟨2, 2, 2⟩, ⟨4, 0xE, 0xE⟩, ⟨8, 0xFE, 0xFE⟩, ⟨16, 0xFE00, 0xFEFF⟩, ⟨32, 0xFE000000, 0xFEFFFFFF⟩]
  notAvailable := [⟨2, 3, 3⟩, ⟨4, 0xF, 0xF⟩, ⟨8, 0xFF, 0xFF⟩, ⟨16, 0xFF00, 0xFFFF⟩, ⟨32, 0xFF000000, 0xFFFFFFFF⟩]

/-- The instance `State.reset` is created from: the spec's defaults of the three fields of `CFG` (R17), and for the open parameters
the values of log entry 2 (`MAX_SESSIONS = INF`, `SENTINEL = DEFAULT_SENTINELS`, an empty dictionary, an empty name). -/
def defaultInstance : Instance where
  timeoutBam  := 750
  timeoutCm   := 1250
  policy      := .error
  maxSessions := none
  sentinels   := defaultSentinels
  dictPgn     := []
  dictSpn     := []
  name        := []

end Sys2Proof.Machine
end

