-- ==== Sys2Proof/Machine/State.lean ====
section
/-! DEFINITION. The state of one JDB as plain data: the session table, which is all of the architectural state (R13), and beside it
what a step takes in and gives out: the instance parameters, the commands presented and the responses given; last the model's
own counter of free values. Also the formats of a response (R61 to R65) and the reasons a step can stop. -/

namespace Sys2Proof.Machine

/-! ### The session table (R19 to R22) -/

/-- The mode of a session: 0 = BAM, 1 = RTS_CTS (R21). -/
inductive Mode where
  | bam
  | rtsCts
deriving DecidableEq, Repr

/-- The stored states of a session: 1 = ANNOUNCED, 2 = RECEIVING. IDLE is the absence of an entry; COMPLETE, ABORTED and TIMED_OUT
are never stored (R22). -/
inductive SessState where
  | announced
  | receiving
deriving DecidableEq, Repr

/-- A session (R21). `rcv` maps a sequence number to its chunk. -/
structure Session where
  mode         : Mode
  state        : SessState
  src          : Byte
  dst          : Byte
  size         : BitVec 16
  np           : Byte
  pgn          : BitVec 24
  rcv          : NatMap (List Byte)
  createdAt    : Time
  lastActivity : Time
deriving DecidableEq, Repr

/-- The session table `T` (R20): a map from keys to sessions. A key `(src, dst)` is held as the number `src * 256 + dst`, whose order
is the sweep's order (R117). -/
abbrev Table := NatMap Session

/-! ### Responses (R61 to R65, R130) -/

/-- The codes of rule R130. `unknownSpn` and `sessionTimeout` are never a response's status. -/
inductive Code where
  | ok | invalidIdentifier | payloadTooShort | unknownPgn | unknownSpn | sessionTimeout
  | malformedTransportControl | malformedTransportData | sessionTableFull | malformedDefinition | illegalCommand
deriving DecidableEq, Repr

/-- A timeout the command's sweep produced (R61, R132): `code` is SessionTimeout. -/
structure Event where
  code : Code
  src  : Byte
  dst  : Byte
deriving DecidableEq, Repr

/-- The class of a raw value (R63, R93). -/
inductive Cls where
  | value
  | notAvailable
  | error
deriving DecidableEq, Repr

/-- The identifier record (R62). -/
structure IdRecord where
  fields : IdFields
  pdu    : BitVec 1
  da     : Byte
  pgn    : BitVec 18
deriving DecidableEq, Repr

/-- A DecodedSignal (R63). -/
structure DecodedSignal where
  spnId : Word
  raw   : Word
  cls   : Cls
  value : F64
  unit  : Text
deriving DecidableEq, Repr

/-- A SignalResult (R63). -/
inductive SignalResult where
  | ok (sig : DecodedSignal)
  | err (code : Code) (spnId : Word)
deriving DecidableEq, Repr

/-- A DecodedMessage (R64). -/
structure DecodedMessage where
  pgn     : Word
  sa      : Byte
  da      : Byte
  payload : List Byte
  decoded : Bool
  signals : List (Word × SignalResult)
deriving DecidableEq, Repr

/-- A session view (R65), the mode and the state in the numeric encodings of rule R21. -/
structure SessionView where
  mode         : BitVec 1
  state        : BitVec 2
  src          : Byte
  dst          : Byte
  size         : BitVec 16
  np           : Byte
  pgn          : BitVec 24
  rcvMask      : BitVec 256
  createdAt    : Time
  lastActivity : Time
deriving DecidableEq, Repr

/-- The value of a command (R61). -/
inductive Result where
  | none
  | identifier (x : IdRecord)
  | word (id : Word)
  | signal (sig : DecodedSignal)
  | message (m : DecodedMessage)
  | view (v : SessionView)
deriving DecidableEq, Repr

/-- What a raise records, one shape for each status (R130). -/
inductive Info where
  | none
  | arbId (id : Word)
  | spnId (spn : Word)
  | pgn (g : Word)
  | addresses (sa da : Byte)
  | cw (cw : Word)
deriving DecidableEq, Repr

/-- A response (R61). -/
structure Response where
  status : Code
  events : List Event
  result : Result
  info   : Info
deriving DecidableEq, Repr

/-! ### The state -/

/-- The state of one JDB. `table` is the architectural state (R13, R20). `inst` holds the instance parameters (R7), which no command
writes (R18). `inbox` holds the commands presented and not yet taken, oldest first (R42); `outbox` the responses given, oldest
first (R61, R154). `freeDraws` is the model's own counter of free values (log entry 5). -/
structure State where
  table     : Table
  inst      : Instance
  inbox     : List PortCommand
  outbox    : List Response
  freeDraws : Nat
deriving DecidableEq, Repr

/-- Instance creation (R143): the table is empty, no command has been presented, no response is pending (R144). -/
def State.create (inst : Instance) : State where
  table     := []
  inst      := inst
  inbox     := []
  outbox    := []
  freeDraws := 0

/-- The machine right after reset (R28, R144): an instance just created from the default parameters (log entry 2). -/
def State.reset : State := State.create defaultInstance

/-! ### Why a step can stop -/

/-- Faults. The block has no fault state, no stuck state and no halted state (R131). -/
inductive Fault where
  /-- Raised by nothing. U11, U12 and U13 give the treatment "fault" to a reserved status code, session state encoding or signal
  class, and say that no rule produces one; the types of this file hold none of them. Safe. -/
  | reservedEncoding
deriving DecidableEq, Repr

/-- Refusals. -/
inductive Refusal where
  /-- An instruction that has no meaning yet, by its mnemonic. Safe. -/
  | notModelled (mnemonic : String)
  /-- Raised by `step` when the port holds a DECODE_SPN whose payload has not exactly `n` bytes (R60): no command of the spec.
  No meaning raises it. Safe. -/
  | payloadCount
deriving DecidableEq, Repr

end Sys2Proof.Machine
end

