-- ==== Sys2Proof/Machine/Flags.lean ====
section
/-! DEFINITION. The block has no status flags and no condition codes (R16); its only condition reports are the codes of a response.
This file gives their numbers and the numeric encodings a host sees. -/

namespace Sys2Proof.Machine

/-- The number of a status code (R130). -/
def codeNum : Code → BitVec 4
  | .ok => 0
  | .invalidIdentifier => 1
  | .payloadTooShort => 2
  | .unknownPgn => 3
  | .unknownSpn => 4
  | .sessionTimeout => 5
  | .malformedTransportControl => 6
  | .malformedTransportData => 7
  | .sessionTableFull => 8
  | .malformedDefinition => 9
  | .illegalCommand => 10

/-- The number of a signal class (R63). -/
def clsNum : Cls → BitVec 2
  | .value => 0
  | .notAvailable => 1
  | .error => 2

/-- The number of a session mode (R21). -/
def modeNum : Mode → BitVec 1
  | .bam => 0
  | .rtsCts => 1

/-- The number of a stored session state (R21). -/
def sessStateNum : SessState → BitVec 2
  | .announced => 1
  | .receiving => 2

end Sys2Proof.Machine
end

