-- ==== Sys2Proof/Machine/Operands.lean ====
section
/-! DEFINITION. Operand assembly (R66): the bytes and bits of the payload buffer PAY (R12, R30 to R32, R91), the chunk of a TP.DT
frame (R56), and the integer functions of rule R10. -/

namespace Sys2Proof.Machine

/-- `ceil_div(a, b)`, the least q with `q * b >= a` (R10). -/
def ceilDiv (a b : Nat) : Nat := (a + b - 1) / b

/-- The eight lanes as a byte sequence. -/
def lanesList (d : Lanes) : List Byte := [d.b0, d.b1, d.b2, d.b3, d.b4, d.b5, d.b6, d.b7]

/-- The payload of a frame, `data[0 ..< min(dlc, 8)]` (R51). -/
def framePayload (dlc : BitVec 4) (d : Lanes) : List Byte := (lanesList d).take (frameLen dlc)

/-- The seven lanes after the sequence number as a byte sequence. -/
def chunkLanesList (c : ChunkLanes) : List Byte := [c.c0, c.c1, c.c2, c.c3, c.c4, c.c5, c.c6]

/-- The chunk of a TP.DT frame, `data[1 ..< n]` (R56). -/
def chunkBytes (dlc : BitVec 4) (c : ChunkLanes) : List Byte := (chunkLanesList c).take (frameLen dlc - 1)

/-- `MemRead(addr, 1)` (R12). No rule reads at an index past the payload (R30); the function is total and gives 0 there (log
entry 11). -/
def memRead (pay : List Byte) (addr : Nat) : Byte := pay[addr]?.getD 0

/-- `PayloadBit(k)`: bit `k & 7` of byte `k >> 3` (R12, R31). -/
def payloadBit (pay : List Byte) (k : Nat) : Bool := (memRead pay (k >>> 3)).getLsbD (k &&& 7)

/-- The sum of `PayloadBit(b0 + i) << i` over `i < len` (R91). -/
def rawSum (pay : List Byte) (b0 : Nat) : Nat → Nat
  | 0 => 0
  | len + 1 => rawSum pay b0 len + ((payloadBit pay (b0 + len)).toNat <<< len)

/-- The raw value of a field: unsigned, zero-extended to 32 bits (R91, R92). -/
def rawField (pay : List Byte) (b0 len : Nat) : Word := BitVec.ofNat 32 (rawSum pay b0 len)

end Sys2Proof.Machine
end

