-- ==== Sys2Proof/Machine/Ops.lean ====
section
/-! DEFINITION. The shared operations: the finite map and its canonical form, the session table, the sweep (R116, R117), responding
and raising (R12, R61), and the command port. Raising a status is the block's only reaction to an error: there is no trap and no
transfer of control (R134). -/

namespace Sys2Proof.Machine

/-! ### Finite maps with natural-number keys -/

/-- The canonical form: keys strictly rising. Equal maps in canonical form are equal lists. -/
abbrev MapWf {α : Type} (m : NatMap α) : Prop := m.Pairwise (fun a b => a.1 < b.1)

/-- The value at a key. -/
def mapGet {α : Type} (k : Nat) : NatMap α → Option α
  | [] => none
  | p :: m => if p.1 = k then some p.2 else mapGet k m

/-- The map with one value set; it keeps the canonical form. -/
def mapSet {α : Type} (k : Nat) (v : α) : NatMap α → NatMap α
  | [] => [(k, v)]
  | p :: m => if k < p.1 then (k, v) :: p :: m else if p.1 = k then (k, v) :: m else p :: mapSet k v m

/-- The map without a key. -/
def mapErase {α : Type} (k : Nat) (m : NatMap α) : NatMap α := m.filter (fun p => p.1 != k)

/-! ### The session table (R19, R20) -/

/-- The key of a source and a destination, in the sweep's order (R19, R117). -/
def keyOf (src dst : Byte) : Nat := src.toNat * 256 + dst.toNat

/-- `T[(src, dst)]`. -/
def tableGet (t : Table) (src dst : Byte) : Option Session := mapGet (keyOf src dst) t

/-- `T[(src, dst)] <- v`. -/
def tableSet (t : Table) (src dst : Byte) (v : Session) : Table := mapSet (keyOf src dst) v t

/-- `remove T[(src, dst)]`, if present. -/
def tableErase (t : Table) (src dst : Byte) : Table := mapErase (keyOf src dst) t

/-- Whether the table already holds `MAX_SESSIONS` sessions; never with `INF` (R102). -/
def tableFull (inst : Instance) (t : Table) : Bool :=
  match inst.maxSessions with
  | none => false
  | some m => decide (m.count ≤ t.length)

/-! ### The sweep (R116, R117) -/

/-- The inactivity window of a session (R116). -/
def window (inst : Instance) (s : Session) : Nat :=
  match s.mode with
  | .bam => inst.timeoutBam.toNat
  | .rtsCts => inst.timeoutCm.toNat

/-- An elapsed time of exactly the window is not expired, and an earlier `now` never is (R116). -/
def expired (inst : Instance) (now : Time) (s : Session) : Bool :=
  decide (now > s.lastActivity) && decide (now - s.lastActivity > window inst s)

/-- The source of a key. -/
def keySrc (k : Nat) : Byte := BitVec.ofNat 8 (k / 256)

/-- The destination of a key. -/
def keyDst (k : Nat) : Byte := BitVec.ofNat 8 k

/-- The SessionTimeout event of a key (R132). -/
def timeoutEvent (k : Nat) : Event := ⟨.sessionTimeout, keySrc k, keyDst k⟩

/-- The events of a sweep, in ascending key order (R117). -/
def sweepEvents (inst : Instance) (now : Time) (t : Table) : List Event :=
  (t.filter (fun p => expired inst now p.2)).map (fun p => timeoutEvent p.1)

/-- The table after a sweep (R117). -/
def sweepTable (inst : Instance) (now : Time) (t : Table) : Table :=
  t.filter (fun p => !expired inst now p.2)

/-! ### Responding and raising (R12, R61) -/

/-- The part of a response that the command's own rule decides. -/
structure Reply where
  status : Code
  result : Result
  info   : Info
deriving DecidableEq, Repr

/-- `respond r`: status OK (R12). -/
def replyOk (r : Result) : Reply := ⟨.ok, r, .none⟩

/-- `raise E(info)`: status `E`, result `none`, and the information; it undoes nothing (R12). -/
def raise (e : Code) (info : Info) : Reply := ⟨e, .none, info⟩

/-- Give the command's one response (R61). -/
def respond (s : State) (events : List Event) (r : Reply) : State :=
  { s with outbox := s.outbox ++ [⟨r.status, events, r.result, r.info⟩] }

/-- Sweep the table; the events go into the response that follows (R117). -/
def swept (now : Time) (s : State) : State := { s with table := sweepTable s.inst now s.table }

/-! ### The command port -/

/-- Take the oldest command presented (R42). -/
def takeCommand (s : State) : Option (PortCommand × State) :=
  match s.inbox with
  | [] => none
  | c :: rest => some (c, { s with inbox := rest })

/-- Present a command ahead of those waiting. -/
def presentFirst (c : PortCommand) (s : State) : State := { s with inbox := c :: s.inbox }

end Sys2Proof.Machine
end

