-- ==== Sys2Proof/Machine/Control.lean ====
section
/-! DEFINITION. The control commands: TICK, QUERY_SESSION, RESET and the reserved command words (R126 to R129). -/

namespace Sys2Proof.Machine

/-- TICK (R126). -/
def execTick (now : Time) (s : State) : Host.Outcome State Fault Refusal :=
  .next (respond (swept now s) (sweepEvents s.inst now s.table) (replyOk .none))

/-- The sum of `1 << q` over the `q` in `1 .. np` that hold a chunk (R127). -/
def rcvMaskSum (rcv : NatMap (List Byte)) : Nat → Nat
  | 0 => 0
  | q + 1 => rcvMaskSum rcv q + (if (mapGet (q + 1) rcv).isSome then 1 <<< (q + 1) else 0)

/-- The view of a session (R65, R127). -/
def viewOf (v : Session) : SessionView where
  mode         := modeNum v.mode
  state        := sessStateNum v.state
  src          := v.src
  dst          := v.dst
  size         := v.size
  np           := v.np
  pgn          := v.pgn
  rcvMask      := BitVec.ofNat 256 (rcvMaskSum v.rcv v.np.toNat)
  createdAt    := v.createdAt
  lastActivity := v.lastActivity

/-- The result of a session lookup (R127). -/
def queryResult (t : Table) (src dst : Byte) : Result :=
  match tableGet t src dst with
  | none => .none
  | some v => .view (viewOf v)

/-- QUERY_SESSION (R127): the session looked up is not marked active. -/
def execQuerySession (now : Time) (src dst : Byte) (s : State) : Host.Outcome State Fault Refusal :=
  .next (respond (swept now s) (sweepEvents s.inst now s.table)
    (replyOk (queryResult (sweepTable s.inst now s.table) src dst)))

/-- RESET (R128): the table becomes empty, with no sweep and no event; the instance parameters stay (R18). -/
def execReset (s : State) : Host.Outcome State Fault Refusal :=
  .next (respond { s with table := [] } [] (replyOk .none))

/-- The command word of the reserved opcode. -/
def reservedOpcodeWord : Word := 7#32

/-- The reserved opcode 7: IllegalCommand, no sweep, no state change (R70, R129). -/
def execIllegalOpcode7 (s : State) : Host.Outcome State Fault Refusal :=
  .next (respond s [] (raise .illegalCommand (.cw reservedOpcodeWord)))

/-- A command word with a reserved bit set: IllegalCommand, no sweep, no state change (R70, R129). -/
def execIllegalReserved (cw : Word) (s : State) : Host.Outcome State Fault Refusal :=
  .next (respond s [] (raise .illegalCommand (.cw cw)))

end Sys2Proof.Machine
end

