-- ==== Sys2Proof/Machine/Float.lean ====
section
/-! DEFINITION. IEEE 754 binary64 on bit patterns (R11): the exact result is computed in integers and then rounded once, to nearest
with ties to even. A NaN result is `none`: its bit pattern is left open (R96). Log entry 12. -/

namespace Sys2Proof.Machine

/-- The sign bit. -/
def f64Sign (a : F64) : Bool := a.getLsbD 63

/-- The biased exponent. -/
def f64Expo (a : F64) : Nat := (a.extractLsb' 52 11).toNat

/-- The fraction. -/
def f64Frac (a : F64) : Nat := (a.extractLsb' 0 52).toNat

def f64IsNan (a : F64) : Bool := f64Expo a == 2047 && f64Frac a != 0

def f64IsInf (a : F64) : Bool := f64Expo a == 2047 && f64Frac a == 0

/-- The magnitude of a finite value, counted in the least positive binary64 (`2^-1074`). -/
def f64Units (a : F64) : Nat :=
  if f64Expo a = 0 then f64Frac a else (2 ^ 52 + f64Frac a) <<< (f64Expo a - 1)

def f64IsZero (a : F64) : Bool := f64Expo a == 0 && f64Frac a == 0

/-- The pattern of a sign and a 63-bit magnitude field. -/
def f64Pack (neg : Bool) (mag : Nat) : F64 := BitVec.ofBool neg ++ BitVec.ofNat 63 mag

/-- The magnitude field of infinity. -/
def f64InfMag : Nat := 2047 * 2 ^ 52

/-- The nearest integer to `n / 2^sh`, ties to even. -/
def roundShift (n sh : Nat) : Nat :=
  if 2 * (n % 2 ^ sh) > 2 ^ sh ∨ (2 * (n % 2 ^ sh) = 2 ^ sh ∧ (n >>> sh) % 2 = 1) then n >>> sh + 1 else n >>> sh

/-- How many low bits of `n` binary64 cannot hold, at least `sub`. -/
def roundBits (n sub : Nat) : Nat := max sub (n.log2 + 1 - 53)

/-- The magnitude field of `n * 2^-(1074 + sub)` rounded to nearest even; a carry of the fraction moves into the exponent, and an
overflow gives infinity. -/
def roundMag (n sub : Nat) : Nat :=
  min ((roundBits n sub - sub) * 2 ^ 52 + roundShift n (roundBits n sub)) f64InfMag

/-- `u32_to_f64` (R11). -/
def u32ToF64 (r : Word) : F64 := f64Pack false (roundMag (r.toNat * 2 ^ 1074) 0)

/-- `f64_mul` (R11, R96); `none` is a NaN. -/
def f64Mul (a b : F64) : Option F64 :=
  if f64IsNan a || f64IsNan b then none
  else if f64IsInf a || f64IsInf b then
    if f64IsZero a || f64IsZero b then none else some (f64Pack (f64Sign a != f64Sign b) f64InfMag)
  else some (f64Pack (f64Sign a != f64Sign b) (roundMag (f64Units a * f64Units b) 1074))

/-- The signed value of a finite pattern, counted in `2^-1074`. -/
def f64Int (a : F64) : Int := if f64Sign a then -(f64Units a : Int) else (f64Units a : Int)

/-- `f64_add` (R11, R96); `none` is a NaN. A zero sum is negative only when both operands are. -/
def f64Add (a b : F64) : Option F64 :=
  if f64IsNan a || f64IsNan b then none
  else if f64IsInf a then
    if f64IsInf b && f64Sign a != f64Sign b then none else some a
  else if f64IsInf b then some b
  else if f64Int a + f64Int b = 0 then some (f64Pack (f64Sign a && f64Sign b) 0)
  else some (f64Pack (decide (f64Int a + f64Int b < 0)) (roundMag (f64Int a + f64Int b).natAbs 0))

/-- The NaN pattern of a sign and a non-zero fraction less one. Every NaN pattern is one of these. -/
def nanBits (x : Bool × Fin 4503599627370495) : F64 := f64Pack x.1 (f64InfMag + x.2.val + 1)

/-- The conversion of rule R95, the `k`-th free value standing for a NaN result. -/
def physicalValue (k : Nat) (raw : Word) (resolution offset : F64) : F64 :=
  ((f64Mul (u32ToF64 raw) resolution).bind (f64Add · offset)).getD (nanBits (Config.freeNan k))

end Sys2Proof.Machine
end

