-- ==== Sys2Proof/Machine/Signal.lean ====
section
/-! DEFINITION. The SPN Decode Engine: the sentinel classifier (R93), the signal decode (R97) and DECODE_SPN (R98). It reads and
writes no session and sweeps nothing (R88). -/

namespace Sys2Proof.Machine

/-- Whether a range holds a raw value of a field width. -/
def rangeHit (len : Nat) (raw : Word) (r : SentinelRange) : Bool :=
  r.width == len && decide (r.lo.toNat ≤ raw.toNat) && decide (raw.toNat ≤ r.hi.toNat)

/-- `SENTINEL(L, raw)` of a table (R93): S1 first, then the error patterns (S3), then the not-available patterns; every other raw
value is VALUE (S4). It depends on the width and the raw value only (S2). -/
def sentinel (t : SentinelTable) (len : Nat) (raw : Word) : Cls :=
  if len = 8 ∧ raw = 0xFF#32 then .notAvailable
  else if t.errors.any (rangeHit len raw) then .error
  else if t.notAvailable.any (rangeHit len raw) then .notAvailable
  else .value

/-- The definition check of rule R89. -/
def defMalformed (d : SpnDef) : Bool :=
  decide (d.bitLength.toNat < 1) || decide (d.bitLength.toNat > 32) || decide (d.startBit.toNat > 7)

/-- The absolute bit at which a field begins (R90). -/
def fieldStart (d : SpnDef) : Nat := d.startByte.toNat * 8 + d.startBit.toNat

/-- `DecodeSignal(def)` over a payload (R97). `k` numbers the free value drawn if the result is a NaN. -/
def decodeSignal (inst : Instance) (k : Nat) (pay : List Byte) (d : SpnDef) : SignalResult :=
  if defMalformed d then .err .malformedDefinition d.spnId
  else if fieldStart d + d.bitLength.toNat > 8 * pay.length then .err .payloadTooShort d.spnId
  else
    let raw := rawField pay (fieldStart d) d.bitLength.toNat
    let cls := sentinel inst.sentinels d.bitLength.toNat raw
    .ok ⟨d.spnId, raw, cls, if cls = .value then physicalValue k raw d.resolution d.offset else 0, d.unit⟩

/-- The reply of DECODE_SPN for a signal result (R98). -/
def signalReply : SignalResult → Reply
  | .ok sig => replyOk (.signal sig)
  | .err code id => raise code (.spnId id)

/-- DECODE_SPN (R98). The payload operand becomes PAY; the decoder has checked that it has `n` bytes. -/
def execDecodeSpn (_n : BitVec 16) (payload : List Byte) (d : SpnDef) (s : State) : Host.Outcome State Fault Refusal :=
  .next (respond { s with freeDraws := s.freeDraws + 1 } [] (signalReply (decodeSignal s.inst s.freeDraws payload d)))

end Sys2Proof.Machine
end

