-- ==== Sys2Proof/Machine/Message.lean ====
section
/-! DEFINITION. The message decode (R123 to R125) and what every frame class shares: the sweep before it and the response after it
(R118). -/

namespace Sys2Proof.Machine

/-- A message before it is decoded (R99, R120). -/
structure Message where
  pgn     : Word
  sa      : Byte
  da      : Byte
  payload : List Byte
deriving DecidableEq, Repr

/-- `DICT_PGN` (R139). -/
def dictPgn (inst : Instance) (g : Word) : Option PgnDef := inst.dictPgn.lookup g

/-- `DICT_SPN` (R139). -/
def dictSpn (inst : Instance) (id : Word) : Option SpnDef := inst.dictSpn.lookup id

/-- The result of one listed SPN (R123). -/
def decodeListed (inst : Instance) (k : Nat) (pay : List Byte) (id : Word) : SignalResult :=
  match dictSpn inst id with
  | none => .err .unknownSpn id
  | some d => decodeSignal inst k pay d

/-- The signals of a message in list order (R123), each with a free value of its own. -/
def decodeSignals (inst : Instance) (pay : List Byte) : Nat → List Word → List (Word × SignalResult)
  | _, [] => []
  | k, id :: ids => (id, decodeListed inst k pay id) :: decodeSignals inst pay (k + 1) ids

/-- `MsgDecode(m)` (R123). -/
def msgDecode (inst : Instance) (k : Nat) (m : Message) : Reply :=
  match dictPgn inst m.pgn with
  | none =>
    match inst.policy with
    | .error => raise .unknownPgn (.pgn m.pgn)
    | .passRaw => replyOk (.message ⟨m.pgn, m.sa, m.da, m.payload, false, []⟩)
  | some pd => replyOk (.message ⟨m.pgn, m.sa, m.da, m.payload, true, decodeSignals inst m.payload k pd.spnIds⟩)

/-- How many free values a message decode draws: one for each listed SPN. -/
def msgDraws (inst : Instance) (m : Message) : Nat :=
  match dictPgn inst m.pgn with
  | none => 0
  | some pd => pd.spnIds.length

/-- What a frame class's rule returns to the dispatcher (R99): nothing, a message, or a raise. -/
inductive FrameResult where
  | nothing
  | message (m : Message)
  | raised (e : Code) (info : Info)
deriving DecidableEq, Repr

/-- The end of PROCESS_FRAME (R118): nothing responds `none`, a message is decoded, a raise is reported. -/
def finishFrame (s : State) (events : List Event) : FrameResult → State
  | .nothing => respond s events (replyOk .none)
  | .raised e info => respond s events (raise e info)
  | .message m => respond { s with freeDraws := s.freeDraws + msgDraws s.inst m } events (msgDecode s.inst s.freeDraws m)

/-- A frame class as PROCESS_FRAME runs it (R118): the sweep, then the class's rule on the swept table, then the response with the
sweep's events. A raise keeps the sweep (R133). -/
def runFrame (now : Time) (rule : Table → Table × FrameResult) (s : State) : Host.Outcome State Fault Refusal :=
  let out := rule (sweepTable s.inst now s.table)
  .next (finishFrame { s with table := out.1 } (sweepEvents s.inst now s.table) out.2)

end Sys2Proof.Machine
end

