-- ==== Sys2Proof/Machine/Transport.lean ====
section
/-! DEFINITION. The Transport Protocol Reassembler: the rules of the TP.CM and TP.DT classes (R99 to R115) and the meaning of each
class. Each rule is a function of the swept table; the meaning runs it as PROCESS_FRAME does (R118). -/

namespace Sys2Proof.Machine

/-! ### Announcements (R101 to R103, R106, R107) -/

/-- The consistency of an announcement (R101). -/
def consistent (size : BitVec 16) (np : Byte) : Bool :=
  decide (1 ≤ size.toNat) && decide (1 ≤ np.toNat) && decide (np.toNat = ceilDiv size.toNat 7)

/-- A session just announced: no chunk, both times `now` (R106, R107). -/
def newSession (mode : Mode) (state : SessState) (src dst : Byte) (size : BitVec 16) (np : Byte) (pgn : BitVec 24)
    (now : Time) : Session where
  mode := mode
  state := state
  src := src
  dst := dst
  size := size
  np := np
  pgn := pgn
  rcv := []
  createdAt := now
  lastActivity := now

/-- Store a consistent announcement: a full table refuses a new key and never a superseding one (R102, R103). -/
def announce (inst : Instance) (t : Table) (v : Session) : Table × FrameResult :=
  if tableGet t v.src v.dst = none ∧ tableFull inst t then
    (t, .raised .sessionTableFull (.addresses v.src v.dst))
  else (tableSet t v.src v.dst v, .nothing)

/-- BAM (R106). -/
def ruleBam (inst : Instance) (now : Time) (sa da : Byte) (size : BitVec 16) (np : Byte) (pgn : BitVec 24) (t : Table) :
    Table × FrameResult :=
  if da ≠ 0xFF#8 then (tableErase t sa 0xFF#8, .raised .malformedTransportControl (.addresses sa da))
  else if consistent size np = false then
    (tableErase t sa 0xFF#8, .raised .malformedTransportControl (.addresses sa 0xFF#8))
  else announce inst t (newSession .bam .receiving sa 0xFF#8 size np pgn now)

/-- RTS (R107). -/
def ruleRts (inst : Instance) (now : Time) (sa da : Byte) (size : BitVec 16) (np : Byte) (pgn : BitVec 24) (t : Table) :
    Table × FrameResult :=
  if da = 0xFF#8 then (t, .raised .malformedTransportControl (.addresses sa 0xFF#8))
  else if consistent size np = false then
    (tableErase t sa da, .raised .malformedTransportControl (.addresses sa da))
  else announce inst t (newSession .rtsCts .announced sa da size np pgn now)

/-! ### The other control frames (R100, R108 to R110) -/

/-- Mark activity (R100). -/
def touch (now : Time) (v : Session) : Session := { v with lastActivity := max v.lastActivity now }

/-- CTS and EOMA mark activity on the RTS_CTS session whose originator is the frame's destination (R108, R109). -/
def markReverse (now : Time) (sa da : Byte) (t : Table) : Table :=
  match tableGet t da sa with
  | none => t
  | some v => if v.mode = .rtsCts then tableSet t da sa (touch now v) else t

/-- CTS (R108). -/
def ruleCts (now : Time) (sa da : Byte) (t : Table) : Table × FrameResult := (markReverse now sa da t, .nothing)

/-- EOMA (R109). -/
def ruleEoma (now : Time) (sa da : Byte) (t : Table) : Table × FrameResult := (markReverse now sa da t, .nothing)

/-- Abort removes both orientations (R110). -/
def ruleAbort (sa da : Byte) (t : Table) : Table × FrameResult := (tableErase (tableErase t sa da) da sa, .nothing)

/-! ### Data frames (R112 to R114) -/

/-- The session after an accepted TP.DT (R113). -/
def storeChunk (now : Time) (q : Byte) (chunk : List Byte) (v : Session) : Session :=
  { v with rcv := mapSet q.toNat chunk v.rcv, lastActivity := max v.lastActivity now, state := .receiving }

/-- Whether every slot of `1 .. np` is filled (R113). -/
def allFilled (v : Session) : Bool := (List.range v.np.toNat).all (fun i => (mapGet (i + 1) v.rcv).isSome)

/-- The chunks in sequence order (R114). -/
def concatChunks (v : Session) : List Byte :=
  (List.range v.np.toNat).flatMap (fun i => (mapGet (i + 1) v.rcv).getD [])

/-- What a completed session at the key `(src, dst)` yields (R114): its message, or MalformedTransportData when the chunks are too
short. -/
def completed (src dst : Byte) (v : Session) : FrameResult :=
  if (concatChunks v).length < v.size.toNat then .raised .malformedTransportData (.addresses src dst)
  else .message ⟨v.pgn.setWidth 32, v.src, v.dst, (concatChunks v).take v.size.toNat⟩

/-- TP.DT with no data byte (R112). -/
def ruleDtEmpty (sa da : Byte) (t : Table) : Table × FrameResult :=
  (tableErase t sa da, .raised .malformedTransportData (.addresses sa da))

/-- TP.DT (R113, R114). -/
def ruleDt (now : Time) (sa da q : Byte) (chunk : List Byte) (t : Table) : Table × FrameResult :=
  match tableGet t sa da with
  | none => (t, .nothing)
  | some v =>
    if q = 0#8 ∨ v.np.toNat < q.toNat then
      (tableErase t sa da, .raised .malformedTransportData (.addresses sa da))
    else if allFilled (storeChunk now q chunk v) then
      (tableErase t sa da, completed sa da (storeChunk now q chunk v))
    else (tableSet t sa da (storeChunk now q chunk v), .nothing)

/-! ### The meanings -/

/-- TP.CM.SHORT: MalformedTransportControl, no affected key (R105). -/
def execTpCmShort (now : Time) (h : TpHeader) (_data : Lanes) (s : State) : Host.Outcome State Fault Refusal :=
  runFrame now (fun t => (t, .raised .malformedTransportControl (.addresses h.sa h.da))) s

/-- TP.CM.RTS (R107); the "max packets per CTS" byte is not read. -/
def execTpCmRts (now : Time) (h : TpHeader) (size : BitVec 16) (np _maxPackets : Byte) (pgn : BitVec 24) (s : State) :
    Host.Outcome State Fault Refusal :=
  runFrame now (ruleRts s.inst now h.sa h.da size np pgn) s

/-- TP.CM.CTS (R108); only the addresses are read. -/
def execTpCmCts (now : Time) (h : TpHeader) (_count _next _rsv3 _rsv4 : Byte) (_pgn : BitVec 24) (s : State) :
    Host.Outcome State Fault Refusal :=
  runFrame now (ruleCts now h.sa h.da) s

/-- TP.CM.EOMA (R109); only the addresses are read. -/
def execTpCmEoma (now : Time) (h : TpHeader) (_size : BitVec 16) (_np _rsv4 : Byte) (_pgn : BitVec 24) (s : State) :
    Host.Outcome State Fault Refusal :=
  runFrame now (ruleEoma now h.sa h.da) s

/-- TP.CM.BAM (R106). -/
def execTpCmBam (now : Time) (h : TpHeader) (size : BitVec 16) (np _rsv4 : Byte) (pgn : BitVec 24) (s : State) :
    Host.Outcome State Fault Refusal :=
  runFrame now (ruleBam s.inst now h.sa h.da size np pgn) s

/-- TP.CM.Abort (R110); the abort reason and the PGN are not read. -/
def execTpCmAbort (now : Time) (h : TpHeader) (_reason _rsv2 _rsv3 _rsv4 : Byte) (_pgn : BitVec 24) (s : State) :
    Host.Outcome State Fault Refusal :=
  runFrame now (ruleAbort h.sa h.da) s

/-- TP.CM with a reserved control byte: ignored (R111). -/
def execTpCmReserved (now : Time) (_h : TpHeader) (_data : Lanes) (s : State) : Host.Outcome State Fault Refusal :=
  runFrame now (fun t => (t, .nothing)) s

/-- TP.DT with no data byte (R112). -/
def execTpDtEmpty (now : Time) (h : TpHeader) (_data : Lanes) (s : State) : Host.Outcome State Fault Refusal :=
  runFrame now (ruleDtEmpty h.sa h.da) s

/-- TP.DT (R113, R114). -/
def execTpDt (now : Time) (h : TpHeader) (seq : Byte) (chunk : ChunkLanes) (s : State) :
    Host.Outcome State Fault Refusal :=
  runFrame now (ruleDt now h.sa h.da seq (chunkBytes h.dlc chunk)) s

end Sys2Proof.Machine
end

