-- ==== Sys2Proof/Machine/Dispatcher.lean ====
section
/-! DEFINITION. The Message Dispatcher: the frame classes outside the TPR (R50, R119, R120) and PROCESS_FRAME (R118). -/

namespace Sys2Proof.Machine

/-- A standard frame: InvalidIdentifier after the sweep, its `arb_id` not examined (R119). -/
def execFrameStandard (now : Time) (arbId : Word) (_dlc : BitVec 4) (_data : Lanes) (s : State) :
    Host.Outcome State Fault Refusal :=
  runFrame now (fun t => (t, .raised .invalidIdentifier (.arbId arbId))) s

/-- An extended frame whose identifier word is not valid (R50, R118). -/
def execFrameInvalidId (now : Time) (arbId : Word) (_dlc : BitVec 4) (_data : Lanes) (s : State) :
    Host.Outcome State Fault Refusal :=
  runFrame now (fun t => (t, .raised .invalidIdentifier (.arbId arbId))) s

/-- The single-frame message of a frame (R120). -/
def singleMessage (x : IdFields) (dlc : BitVec 4) (data : Lanes) : Message where
  pgn     := (pgnOf x).setWidth 32
  sa      := x.sa
  da      := daOf x
  payload := framePayload dlc data

/-- A single-frame message (R120). -/
def execFrameSingle (now : Time) (x : IdFields) (dlc : BitVec 4) (data : Lanes) (s : State) :
    Host.Outcome State Fault Refusal :=
  runFrame now (fun t => (t, .message (singleMessage x dlc data))) s

/-- PROCESS_FRAME (R118): the class of the frame decides the rule, as in rule R68's table; every class sweeps first. -/
def execProcessFrame (now : Time) (f : Frame) (s : State) : Host.Outcome State Fault Refusal :=
  match classify f with
  | .standard   => execFrameStandard now f.arbId f.dlc f.data s
  | .invalidId  => execFrameInvalidId now f.arbId f.dlc f.data s
  | .cmShort    => execTpCmShort now (tpHeader f) f.data s
  | .rts        => execTpCmRts now (tpHeader f) (cmSize f.data) f.data.b3 f.data.b4 (cmPgn f.data) s
  | .cts        => execTpCmCts now (tpHeader f) f.data.b1 f.data.b2 f.data.b3 f.data.b4 (cmPgn f.data) s
  | .eoma       => execTpCmEoma now (tpHeader f) (cmSize f.data) f.data.b3 f.data.b4 (cmPgn f.data) s
  | .bam        => execTpCmBam now (tpHeader f) (cmSize f.data) f.data.b3 f.data.b4 (cmPgn f.data) s
  | .abort      => execTpCmAbort now (tpHeader f) f.data.b1 f.data.b2 f.data.b3 f.data.b4 (cmPgn f.data) s
  | .cmReserved => execTpCmReserved now (tpHeader f) f.data s
  | .dtEmpty    => execTpDtEmpty now (tpHeader f) f.data s
  | .dt         => execTpDt now (tpHeader f) f.data.b0 (dtLanes f.data) s
  | .single     => execFrameSingle now (idFields f.arbId) f.dlc f.data s

end Sys2Proof.Machine
end

