-- ==== Sys2Proof/Machine/Identifier.lean ====
section
/-! DEFINITION. The Identifier Codec: DECODE_ID and ENCODE_ID (R77 to R87). It reads and writes no session and sweeps nothing (R81). -/

namespace Sys2Proof.Machine

/-- The identifier record of a valid identifier (R62, R82). -/
def idRecord (x : IdFields) : IdRecord where
  fields := x
  pdu    := if isPdu1 x.pf then 0 else 1
  da     := daOf x
  pgn    := pgnOf x

/-- DECODE_ID (R82). -/
def execDecodeId (id : Word) (s : State) : Host.Outcome State Fault Refusal :=
  .next (respond s []
    (if idValid id then replyOk (.identifier (idRecord (idFields id))) else raise .invalidIdentifier (.arbId id)))

/-- ENCODE_ID (R83). -/
def execEncodeId (x : IdFields) (s : State) : Host.Outcome State Fault Refusal :=
  .next (respond s [] (replyOk (.word (idWord x))))

end Sys2Proof.Machine
end

