-- ==== Sys2Proof/Machine/Dispatch.lean ====
section
/-! DEFINITION. One arm for each instruction: a direct call of its meaning. -/

namespace Sys2Proof.Machine

def exec (i : Instr) (s : State) : Host.Outcome State Fault Refusal :=
  match i with
  | .processFrame now f => Sys2Proof.Machine.execProcessFrame now f s
  | .decodeId id => Sys2Proof.Machine.execDecodeId id s
  | .encodeId x => Sys2Proof.Machine.execEncodeId x s
  | .decodeSpn n p d => Sys2Proof.Machine.execDecodeSpn n p d s
  | .tick now => Sys2Proof.Machine.execTick now s
  | .querySession now src dst => Sys2Proof.Machine.execQuerySession now src dst s
  | .reset => Sys2Proof.Machine.execReset s
  | .illegalOpcode7 => Sys2Proof.Machine.execIllegalOpcode7 s
  | .illegalReserved cw => Sys2Proof.Machine.execIllegalReserved cw s
  | .frameStandard now a dlc d => Sys2Proof.Machine.execFrameStandard now a dlc d s
  | .frameInvalidId now a dlc d => Sys2Proof.Machine.execFrameInvalidId now a dlc d s
  | .tpCmShort now h d => Sys2Proof.Machine.execTpCmShort now h d s
  | .tpCmRts now h size np mx pgn => Sys2Proof.Machine.execTpCmRts now h size np mx pgn s
  | .tpCmCts now h count next r3 r4 pgn => Sys2Proof.Machine.execTpCmCts now h count next r3 r4 pgn s
  | .tpCmEoma now h size np r4 pgn => Sys2Proof.Machine.execTpCmEoma now h size np r4 pgn s
  | .tpCmBam now h size np r4 pgn => Sys2Proof.Machine.execTpCmBam now h size np r4 pgn s
  | .tpCmAbort now h reason r2 r3 r4 pgn => Sys2Proof.Machine.execTpCmAbort now h reason r2 r3 r4 pgn s
  | .tpCmReserved now h d => Sys2Proof.Machine.execTpCmReserved now h d s
  | .tpDtEmpty now h d => Sys2Proof.Machine.execTpDtEmpty now h d s
  | .tpDt now h q c => Sys2Proof.Machine.execTpDt now h q c s
  | .frameSingle now x dlc d => Sys2Proof.Machine.execFrameSingle now x dlc d s

end Sys2Proof.Machine
end

