-- ==== Sys2Proof/Machine/Step.lean ====
section
/-! DEFINITION. One step: the oldest command presented is taken, decoded and run as one atomic transition (R6, R42). With no command
presented the block has no move of its own (R142, R146) and the step leaves the state as it is (log entry 6). -/

namespace Sys2Proof.Machine

def step (s : State) : Host.Outcome State Fault Refusal :=
  match takeCommand s with
  | none => .next s
  | some (c, s') =>
    match decode c with
    | .ok i => exec i s'
    | .error .payloadCount => .refused .payloadCount

/-- The state in which the word of a row of spec/opcode_table.json is the next command: it is presented ahead of those waiting. -/
def State.withFetchWord (s : State) (nbits w : Nat) : State := presentFirst (portOfTableWord nbits w) s

end Sys2Proof.Machine
end

