-- ==== Sys2Proof/WellFormed.lean ====
section
/-! DEFINITION. Which terms of Instr stand for a command or a frame class of the spec: each check is the condition under which the
decoder gives that constructor (R59, R60, R68, and the condition column of spec/opcode_table.json). -/

namespace Sys2Proof

/-- An instruction that some command or frame decodes to. -/
def wellFormed : Instr → Bool
  | .decodeSpn n p _ => p.length == n.toNat
  | .illegalReserved cw => bitsAt cw 3 29 != 0
  | .frameInvalidId _ a _ _ => !idValid a
  | .tpCmShort _ h _ => decide (frameLen h.dlc < 8)
  | .tpCmRts _ h _ _ _ _ => frameLen h.dlc == 8
  | .tpCmCts _ h _ _ _ _ _ => frameLen h.dlc == 8
  | .tpCmEoma _ h _ _ _ _ => frameLen h.dlc == 8
  | .tpCmBam _ h _ _ _ _ => frameLen h.dlc == 8
  | .tpCmAbort _ h _ _ _ _ _ => frameLen h.dlc == 8
  | .tpCmReserved _ h d => frameLen h.dlc == 8 && cmClass d.b0 == .cmReserved
  | .tpDtEmpty _ h _ => frameLen h.dlc == 0
  | .tpDt _ h _ _ => frameLen h.dlc != 0
  | .frameSingle _ x _ _ => pgnOf x != pgnTpCm && pgnOf x != pgnTpDt
  | .processFrame _ _ => true
  | .decodeId _ => true
  | .encodeId _ => true
  | .tick _ => true
  | .querySession _ _ _ => true
  | .reset => true
  | .illegalOpcode7 => true
  | .frameStandard _ _ _ _ => true

/-- The check as a proposition. -/
abbrev WellFormed (i : Instr) : Prop := wellFormed i = true

end Sys2Proof
end

