-- ==== Sys2Proof/Safety.lean ====
section
/-! DEFINITION. What claims about the block are stated in: the invariant of the session table (R20, R23, R102), the shape of a response
(R61, R130), what a command leaves alone (R18, R24), and the runs of an instance (R154). -/

namespace Sys2Proof.Machine

/-- The invariants of one stored session (R21, R23), in the order of rule R23; first the canonical form of its chunk map. -/
structure SessionInv (v : Session) : Prop where
  rcvWf        : MapWf v.rcv
  rcvRange     : ∀ p ∈ v.rcv, 1 ≤ p.1 ∧ p.1 ≤ v.np.toNat
  packets      : v.np.toNat = ceilDiv v.size.toNat 7 ∧ 1 ≤ v.size.toNat
  broadcast    : v.dst = 0xFF#8 ↔ v.mode = .bam
  chunkLength  : ∀ p ∈ v.rcv, p.2.length ≤ 7
  times        : v.createdAt ≤ v.lastActivity
  bamReceiving : v.mode = .bam → v.state = .receiving

/-- The invariant of the state: the table is a map in canonical form, each session stands at its own key (R20), meets the session
invariants (R23), and the table holds at most `MAX_SESSIONS` sessions (R20, R102). -/
structure StateInv (s : State) : Prop where
  tableWf  : MapWf s.table
  keys     : ∀ p ∈ s.table, p.1 = keyOf p.2.src p.2.dst
  sessions : ∀ p ∈ s.table, SessionInv p.2
  capacity : ∀ m, s.inst.maxSessions = some m → s.table.length ≤ m.count

/-- What every command does to the state outside the session table (R18, R61): it gives one response and writes no instance
parameter and no waiting command. -/
structure Answered (s t : State) (r : Response) : Prop where
  outbox : t.outbox = s.outbox ++ [r]
  inst   : t.inst = s.inst
  inbox  : t.inbox = s.inbox

/-- Which statuses carry which information (R130); UnknownSpn and SessionTimeout are never a status. -/
def statusInfoOk : Code → Info → Bool
  | .ok, .none => true
  | .invalidIdentifier, .arbId _ => true
  | .payloadTooShort, .spnId _ => true
  | .unknownPgn, .pgn _ => true
  | .malformedTransportControl, .addresses _ _ => true
  | .malformedTransportData, .addresses _ _ => true
  | .sessionTableFull, .addresses _ _ => true
  | .malformedDefinition, .spnId _ => true
  | .illegalCommand, .cw _ => true
  | _, _ => false

/-- The shape of a response (R61, R130, R132): the information of its status, no result unless the status is OK, and events that
are all SessionTimeout. -/
structure ResponseOk (r : Response) : Prop where
  info   : statusInfoOk r.status r.info = true
  result : r.status ≠ .ok → r.result = .none
  events : ∀ e ∈ r.events, e.code = .sessionTimeout

/-- The keys whose entries an instruction's own rule may write, besides the sweep and RESET (R24): one for most transport frames, two
for Abort, none for everything else. PROCESS_FRAME is taken by its frame's class. -/
def touchedKeys (i : Instr) : List (Byte × Byte) :=
  match selectClass i with
  | .tpCmRts _ h _ _ _ _ => [(h.sa, h.da)]
  | .tpCmCts _ h _ _ _ _ _ => [(h.da, h.sa)]
  | .tpCmEoma _ h _ _ _ _ => [(h.da, h.sa)]
  | .tpCmBam _ h _ _ _ _ => [(h.sa, 0xFF#8)]
  | .tpCmAbort _ h _ _ _ _ _ => [(h.sa, h.da), (h.da, h.sa)]
  | .tpDtEmpty _ h _ => [(h.sa, h.da)]
  | .tpDt _ h _ _ => [(h.sa, h.da)]
  | _ => []

/-- The time operand of the commands that sweep (R117); the others have none. -/
def sweepTime : Instr → Option Time
  | .processFrame now _ => some now
  | .tick now => some now
  | .querySession now _ _ => some now
  | .frameStandard now _ _ _ => some now
  | .frameInvalidId now _ _ _ => some now
  | .tpCmShort now _ _ => some now
  | .tpCmRts now _ _ _ _ _ => some now
  | .tpCmCts now _ _ _ _ _ _ => some now
  | .tpCmEoma now _ _ _ _ _ => some now
  | .tpCmBam now _ _ _ _ _ => some now
  | .tpCmAbort now _ _ _ _ _ _ => some now
  | .tpCmReserved now _ _ => some now
  | .tpDtEmpty now _ _ => some now
  | .tpDt now _ _ _ => some now
  | .frameSingle now _ _ _ => some now
  | .decodeId _ => none
  | .encodeId _ => none
  | .decodeSpn _ _ _ => none
  | .reset => none
  | .illegalOpcode7 => none
  | .illegalReserved _ => none

/-- The events of a command's sweep, none for a command that does not sweep (R61, R117). -/
def eventsOf (i : Instr) (s : State) : List Event :=
  match sweepTime i with
  | some now => sweepEvents s.inst now s.table
  | none => []

/-- The table after a command's sweep, before its own rule (R117). -/
def tableSwept (i : Instr) (s : State) : Table :=
  match sweepTime i with
  | some now => sweepTable s.inst now s.table
  | none => s.table

/-- A list of instructions run one after another. -/
def execAll : List Instr → State → Host.Outcome State Fault Refusal
  | [], s => .next s
  | i :: is, s =>
    match exec i s with
    | .next t => execAll is t
    | .fault r => .fault r
    | .refused r => .refused r

/-- The states a run of an instance passes through (R143, R146, R154): from creation with any parameters, the host presents any
commands and the block takes steps. -/
inductive Reachable : State → Prop where
  | create (inst : Instance) : Reachable (State.create inst)
  | present (s : State) (c : PortCommand) : Reachable s → Reachable { s with inbox := s.inbox ++ [c] }
  | step (s t : State) : Reachable s → Machine.step s = .next t → Reachable t

end Sys2Proof.Machine
end

