-- ==== Sys2Proof/Certificates/Slice0/Obligations.lean ====
section
/-! DEFINITION. The statements for the provers. Each names the rules of spec/ it formalises. "The swept table" of a command that
sweeps at `now` is `sweepTable s.inst now s.table`; what a sweep removes and reports is itself stated below. -/

open Sys2Proof Sys2Proof.Machine

/-! ### The step and the decoder -/

/-- R42, R6, R59: a step takes the oldest command presented and runs the instruction it decodes to; nothing else happens. -/
def Obligations.StepRunsTheDecodedCommand : Prop :=
  ∀ (s : State) (c : PortCommand) (rest : List PortCommand) (i : Instr),
    s.inbox = c :: rest → decode c = .ok i → step s = exec i { s with inbox := rest }

/-- R146, R142: with no command presented the block has no move of its own; that the model's step then answers the same state is
the model's choice (log entry 6). R60: a DECODE_SPN without exactly `n` payload bytes is no command; that the model refuses it is
its choice (log entry 9). -/
def Obligations.StepWithoutACommandIsIdle : Prop :=
  (∀ s : State, s.inbox = [] → step s = .next s) ∧
  (∀ (s : State) (c : PortCommand) (rest : List PortCommand), s.inbox = c :: rest → c.cw = 3#32 →
    c.payload.length ≠ c.n.toNat → step s = .refused .payloadCount)

/-- R67, R59: `cw[31:3] != 0` and opcode 7 are illegal; otherwise `cw[2:0]` selects the row, with the operands the row names. -/
def Obligations.CommandWordSelectsTheRow : Prop :=
  ∀ c : PortCommand,
    (8 ≤ c.cw.toNat → decode c = .ok (.illegalReserved c.cw)) ∧
    (c.cw = 0#32 → decode c = .ok (.processFrame c.now c.frame)) ∧
    (c.cw = 1#32 → decode c = .ok (.decodeId c.id)) ∧
    (c.cw = 2#32 → decode c = .ok (.encodeId c.fields)) ∧
    (c.cw = 3#32 → c.payload.length = c.n.toNat → decode c = .ok (.decodeSpn c.n c.payload c.dfn)) ∧
    (c.cw = 4#32 → decode c = .ok (.tick c.now)) ∧
    (c.cw = 5#32 → decode c = .ok (.querySession c.now c.src c.dst)) ∧
    (c.cw = 6#32 → decode c = .ok .reset) ∧
    (c.cw = 7#32 → decode c = .ok .illegalOpcode7)

/-- R68: the class of a frame depends on `ide`, `arb_id[31:16]`, the payload length and the first data byte, in the order of the
table; and the PGN of an identifier is that of TP.CM or TP.DT exactly when its bits 25:16 are 0x0EC or 0x0EB. -/
def Obligations.FrameClassIsReadFromTheFrame : Prop :=
  (∀ f : Frame, classify f =
    if f.ide = 0 then .standard
    else if f.arbId.toNat / 2 ^ 29 ≠ 0 then .invalidId
    else if f.arbId.toNat / 2 ^ 16 % 2 ^ 10 = 0x0EC then
      if min f.dlc.toNat 8 < 8 then .cmShort
      else if f.data.b0 = 0x10 then .rts
      else if f.data.b0 = 0x11 then .cts
      else if f.data.b0 = 0x13 then .eoma
      else if f.data.b0 = 0x20 then .bam
      else if f.data.b0 = 0xFF then .abort
      else .cmReserved
    else if f.arbId.toNat / 2 ^ 16 % 2 ^ 10 = 0x0EB then
      if min f.dlc.toNat 8 = 0 then .dtEmpty else .dt
    else .single) ∧
  (∀ id : Word,
    ((pgnOf (idFields id)).toNat = 0x00EC00 ↔ id.toNat / 2 ^ 16 % 2 ^ 10 = 0x0EC) ∧
    ((pgnOf (idFields id)).toNat = 0x00EB00 ↔ id.toNat / 2 ^ 16 % 2 ^ 10 = 0x0EB))

/-- R118, R68: PROCESS_FRAME does what the instruction of its frame's class does. -/
def Obligations.ProcessFrameRunsTheClassOfItsFrame : Prop :=
  ∀ (now : Time) (f : Frame) (s : State), exec (.processFrame now f) s = exec (decodeFrame now f) s

/-- R59, R53 to R56: decoding the encoding of a well-formed instruction gives it back, a frame class through the PROCESS_FRAME that
carries its frame. -/
def Obligations.DecodeOfEncodeIsTheInstruction : Prop :=
  ∀ i : Instr, WellFormed i → Except.map selectClass (decode (encode i)) = .ok (selectClass i)

/-- R51, R53, R56: encoding the class of any frame gives the frame back, so no bit of a frame is dropped. -/
def Obligations.EncodeOfDecodeIsTheFrame : Prop :=
  ∀ (now : Time) (f : Frame), encode (decodeFrame now f) = portFrame now f

/-- Command words and frames written out from the tables of R59, R51 and R52 to R56 decode to the instructions they stand for. That a
command word of spec/opcode_table.json is presented with zero in every operand lane, so that the words 1, 2 and 4 have operands 0, is
the model's choice (log entry 8). -/
def Obligations.WrittenWordsDecode : Prop :=
  decodeTableWord 32 0x00000001 = some (.decodeId 0) ∧
  decodeTableWord 32 0x00000002 = some (.encodeId ⟨0, 0, 0, 0, 0, 0⟩) ∧
  decodeTableWord 32 0x00000004 = some (.tick 0) ∧
  decodeTableWord 32 0x00000006 = some .reset ∧
  decodeTableWord 32 0x00000007 = some .illegalOpcode7 ∧
  decodeTableWord 32 0x00000008 = some (.illegalReserved 8) ∧
  decodeFrame 5 ⟨1, 0x1CECFF01, 8, ⟨0x20, 0x14, 0x00, 0x03, 0xFF, 0xCA, 0xFE, 0x00⟩⟩ =
    .tpCmBam 5 ⟨7, 0x01, 0xFF, 8⟩ 20 3 0xFF 0x00FECA ∧
  decodeFrame 5 ⟨1, 0x1CEB3D00, 4, ⟨0x02, 0x01, 0x02, 0x03, 0, 0, 0, 0⟩⟩ =
    .tpDt 5 ⟨7, 0x00, 0x3D, 4⟩ 2 ⟨1, 2, 3, 0, 0, 0, 0⟩ ∧
  decodeFrame 5 ⟨1, 0x0CF00400, 8, ⟨1, 2, 3, 4, 5, 6, 7, 8⟩⟩ =
    .frameSingle 5 ⟨3, 0, 0, 0xF0, 0x04, 0x00⟩ 8 ⟨1, 2, 3, 4, 5, 6, 7, 8⟩

/-- R76: each pseudo-instruction of the spec's assembler is the one PROCESS_FRAME of the extended frame the table writes (identifier,
dlc and bytes as numbers, the lanes past a shorter chunk being 0 by R75), and decodes to its class with its operands. -/
def Obligations.PseudoInstructionsExpand : Prop :=
  ∀ (t : Time) (src dst np k next reason seq : Byte) (size : BitVec 16) (pgn : BitVec 24) (chunk : List Byte),
    (assemble (.tpBam t src size np pgn) = portFrame t ⟨1, BitVec.ofNat 32 (0x1CECFF00 + src.toNat), 8,
        ⟨0x20, BitVec.ofNat 8 (size.toNat % 2 ^ 8), BitVec.ofNat 8 (size.toNat / 2 ^ 8), np, 0xFF,
          BitVec.ofNat 8 (pgn.toNat % 2 ^ 8), BitVec.ofNat 8 (pgn.toNat / 2 ^ 8 % 2 ^ 8),
          BitVec.ofNat 8 (pgn.toNat / 2 ^ 16)⟩⟩ ∧
      Except.map selectClass (decode (assemble (.tpBam t src size np pgn))) =
        .ok (.tpCmBam t ⟨7, src, 0xFF, 8⟩ size np 0xFF pgn)) ∧
    (assemble (.tpRts t src dst size np pgn) =
        portFrame t ⟨1, BitVec.ofNat 32 (0x1CEC0000 + dst.toNat * 2 ^ 8 + src.toNat), 8,
          ⟨0x10, BitVec.ofNat 8 (size.toNat % 2 ^ 8), BitVec.ofNat 8 (size.toNat / 2 ^ 8), np, 0xFF,
            BitVec.ofNat 8 (pgn.toNat % 2 ^ 8), BitVec.ofNat 8 (pgn.toNat / 2 ^ 8 % 2 ^ 8),
            BitVec.ofNat 8 (pgn.toNat / 2 ^ 16)⟩⟩ ∧
      Except.map selectClass (decode (assemble (.tpRts t src dst size np pgn))) =
        .ok (.tpCmRts t ⟨7, src, dst, 8⟩ size np 0xFF pgn)) ∧
    (assemble (.tpCts t src dst k next pgn) =
        portFrame t ⟨1, BitVec.ofNat 32 (0x1CEC0000 + dst.toNat * 2 ^ 8 + src.toNat), 8,
          ⟨0x11, k, next, 0xFF, 0xFF, BitVec.ofNat 8 (pgn.toNat % 2 ^ 8), BitVec.ofNat 8 (pgn.toNat / 2 ^ 8 % 2 ^ 8),
            BitVec.ofNat 8 (pgn.toNat / 2 ^ 16)⟩⟩ ∧
      Except.map selectClass (decode (assemble (.tpCts t src dst k next pgn))) =
        .ok (.tpCmCts t ⟨7, src, dst, 8⟩ k next 0xFF 0xFF pgn)) ∧
    (assemble (.tpEoma t src dst size np pgn) =
        portFrame t ⟨1, BitVec.ofNat 32 (0x1CEC0000 + dst.toNat * 2 ^ 8 + src.toNat), 8,
          ⟨0x13, BitVec.ofNat 8 (size.toNat % 2 ^ 8), BitVec.ofNat 8 (size.toNat / 2 ^ 8), np, 0xFF,
            BitVec.ofNat 8 (pgn.toNat % 2 ^ 8), BitVec.ofNat 8 (pgn.toNat / 2 ^ 8 % 2 ^ 8),
            BitVec.ofNat 8 (pgn.toNat / 2 ^ 16)⟩⟩ ∧
      Except.map selectClass (decode (assemble (.tpEoma t src dst size np pgn))) =
        .ok (.tpCmEoma t ⟨7, src, dst, 8⟩ size np 0xFF pgn)) ∧
    (assemble (.tpAbort t src dst reason pgn) =
        portFrame t ⟨1, BitVec.ofNat 32 (0x1CEC0000 + dst.toNat * 2 ^ 8 + src.toNat), 8,
          ⟨0xFF, reason, 0xFF, 0xFF, 0xFF, BitVec.ofNat 8 (pgn.toNat % 2 ^ 8),
            BitVec.ofNat 8 (pgn.toNat / 2 ^ 8 % 2 ^ 8), BitVec.ofNat 8 (pgn.toNat / 2 ^ 16)⟩⟩ ∧
      Except.map selectClass (decode (assemble (.tpAbort t src dst reason pgn))) =
        .ok (.tpCmAbort t ⟨7, src, dst, 8⟩ reason 0xFF 0xFF 0xFF pgn)) ∧
    (1 ≤ chunk.length → chunk.length ≤ 7 →
      assemble (.tpDt t src dst seq chunk) =
        portFrame t ⟨1, BitVec.ofNat 32 (0x1CEB0000 + dst.toNat * 2 ^ 8 + src.toNat), BitVec.ofNat 4 (chunk.length + 1),
          ⟨seq, chunk.getD 0 0, chunk.getD 1 0, chunk.getD 2 0, chunk.getD 3 0, chunk.getD 4 0, chunk.getD 5 0,
            chunk.getD 6 0⟩⟩ ∧
      Except.map selectClass (decode (assemble (.tpDt t src dst seq chunk))) =
        .ok (.tpDt t ⟨7, src, dst, BitVec.ofNat 4 (chunk.length + 1)⟩ seq
          ⟨chunk.getD 0 0, chunk.getD 1 0, chunk.getD 2 0, chunk.getD 3 0, chunk.getD 4 0, chunk.getD 5 0,
            chunk.getD 6 0⟩))

/-! ### The Identifier Codec -/

/-- R82 with R77 to R80: DECODE_ID of a valid identifier answers its fields, its PDU format, its destination address and its PGN;
of any other word InvalidIdentifier with that word. Nothing else changes (R81). -/
def Obligations.DecodeIdFollowsItsRule : Prop :=
  ∀ (id : Word) (s : State), ∃ t r,
    exec (.decodeId id) s = .next t ∧ Answered s t r ∧ t.table = s.table ∧ t.freeDraws = s.freeDraws ∧ r.events = [] ∧
    (id.toNat < 2 ^ 29 → ∃ x : IdRecord,
      r.status = .ok ∧ r.info = .none ∧ r.result = .identifier x ∧
      x.fields.prio.toNat = id.toNat / 2 ^ 26 ∧
      x.fields.r.toNat = id.toNat / 2 ^ 25 % 2 ∧
      x.fields.dp.toNat = id.toNat / 2 ^ 24 % 2 ∧
      x.fields.pf.toNat = id.toNat / 2 ^ 16 % 2 ^ 8 ∧
      x.fields.ps.toNat = id.toNat / 2 ^ 8 % 2 ^ 8 ∧
      x.fields.sa.toNat = id.toNat % 2 ^ 8 ∧
      x.pdu.toNat = (if x.fields.pf.toNat < 240 then 0 else 1) ∧
      x.da.toNat = (if x.fields.pf.toNat < 240 then x.fields.ps.toNat else 0xFF) ∧
      x.pgn.toNat = x.fields.r.toNat * 2 ^ 17 + x.fields.dp.toNat * 2 ^ 16 + x.fields.pf.toNat * 2 ^ 8 +
        (if x.fields.pf.toNat < 240 then 0 else x.fields.ps.toNat)) ∧
    (2 ^ 29 ≤ id.toNat → r.status = .invalidIdentifier ∧ r.result = .none ∧ r.info = .arbId id)

/-- R83: ENCODE_ID answers the word whose bits are its operands. Nothing else changes (R81). -/
def Obligations.EncodeIdPlacesTheFields : Prop :=
  ∀ (x : IdFields) (s : State), ∃ (t : State) (w : Word),
    exec (.encodeId x) s = .next t ∧ Answered s t ⟨.ok, [], .word w, .none⟩ ∧ t.table = s.table ∧
    t.freeDraws = s.freeDraws ∧
    w.toNat = x.prio.toNat * 2 ^ 26 + x.r.toNat * 2 ^ 25 + x.dp.toNat * 2 ^ 24 + x.pf.toNat * 2 ^ 16 +
      x.ps.toNat * 2 ^ 8 + x.sa.toNat

/-- R84: DECODE_ID then ENCODE_ID of the six fields reproduces every 29-bit identifier. -/
def Obligations.EncodeOfDecodedIdIsTheId : Prop :=
  ∀ (id : Word) (s s' : State), id.toNat < 2 ^ 29 → ∃ (t t' : State) (x : IdRecord),
    exec (.decodeId id) s = .next t ∧ Answered s t ⟨.ok, [], .identifier x, .none⟩ ∧
    exec (.encodeId x.fields) s' = .next t' ∧ Answered s' t' ⟨.ok, [], .word id, .none⟩

/-- R85: ENCODE_ID then DECODE_ID gives every operand tuple back, with the derived fields of R77, R79 and R78. -/
def Obligations.DecodeOfEncodedIdIsTheFields : Prop :=
  ∀ (x : IdFields) (s s' : State), ∃ (t t' : State) (w : Word) (y : IdRecord),
    exec (.encodeId x) s = .next t ∧ Answered s t ⟨.ok, [], .word w, .none⟩ ∧
    exec (.decodeId w) s' = .next t' ∧ Answered s' t' ⟨.ok, [], .identifier y, .none⟩ ∧ y.fields = x ∧
    y.pdu.toNat = (if x.pf.toNat < 240 then 0 else 1) ∧
    y.da = (if x.pf.toNat < 240 then x.ps else 0xFF#8) ∧
    y.pgn.toNat = x.r.toNat * 2 ^ 17 + x.dp.toNat * 2 ^ 16 + x.pf.toNat * 2 ^ 8 +
      (if x.pf.toNat < 240 then 0 else x.ps.toNat)

/-- R86: in PDU1 two identifiers that differ only in bits 15:8 have one PGN; in PDU2 the PGN's low byte is bits 15:8. -/
def Obligations.PgnFoldsPsOnlyInPdu2 : Prop :=
  (∀ id id' : Word, (∀ k, ¬(8 ≤ k ∧ k < 16) → id.getLsbD k = id'.getLsbD k) → id.toNat / 2 ^ 16 % 2 ^ 8 < 240 →
    pgnOf (idFields id) = pgnOf (idFields id')) ∧
  (∀ id : Word, 240 ≤ id.toNat / 2 ^ 16 % 2 ^ 8 → (pgnOf (idFields id)).toNat % 2 ^ 8 = id.toNat / 2 ^ 8 % 2 ^ 8)

/-- R87: the two transport PGNs are PDU1 PGNs, reached only with R = 0 and DP = 0, and their PS is the destination address. -/
def Obligations.TransportPgnsArePdu1 : Prop :=
  ∀ x : IdFields,
    ((pgnOf x).toNat = 0x00EC00 ↔ x.r = 0 ∧ x.dp = 0 ∧ x.pf = 0xEC#8) ∧
    ((pgnOf x).toNat = 0x00EB00 ↔ x.r = 0 ∧ x.dp = 0 ∧ x.pf = 0xEB#8) ∧
    ((pgnOf x).toNat = 0x00EC00 ∨ (pgnOf x).toNat = 0x00EB00 → x.pf.toNat < 240 ∧ daOf x = x.ps)

/-! ### The SPN Decode Engine -/

/-- R89: a definition with a bit length outside 1 to 32 or a start bit above 7 makes its decode, and DECODE_SPN, yield
MalformedDefinition, whatever the payload. -/
def Obligations.MalformedDefinitionIsReported : Prop :=
  ∀ (n : BitVec 16) (pay : List Byte) (d : SpnDef) (s : State),
    d.bitLength.toNat < 1 ∨ d.bitLength.toNat > 32 ∨ d.startBit.toNat > 7 → ∃ t,
      decodeSignal s.inst s.freeDraws pay d = .err .malformedDefinition d.spnId ∧
      exec (.decodeSpn n pay d) s = .next t ∧
      Answered s t ⟨.malformedDefinition, [], .none, .spnId d.spnId⟩ ∧ t.table = s.table

/-- R90 under R133's order: a well-formed definition whose bit range ends past the payload makes its decode, and DECODE_SPN, yield
PayloadTooShort. -/
def Obligations.ShortPayloadIsReported : Prop :=
  ∀ (n : BitVec 16) (pay : List Byte) (d : SpnDef) (s : State),
    1 ≤ d.bitLength.toNat → d.bitLength.toNat ≤ 32 → d.startBit.toNat ≤ 7 →
    d.startByte.toNat * 8 + d.startBit.toNat + d.bitLength.toNat > 8 * pay.length → ∃ t,
      decodeSignal s.inst s.freeDraws pay d = .err .payloadTooShort d.spnId ∧
      exec (.decodeSpn n pay d) s = .next t ∧
      Answered s t ⟨.payloadTooShort, [], .none, .spnId d.spnId⟩ ∧ t.table = s.table

/-- R91, R92, R31: otherwise the decode gives, and DECODE_SPN answers, a signal whose raw value holds the field's bits, least
significant first, and zeros above them. -/
def Obligations.DecodeSpnExtractsTheField : Prop :=
  ∀ (n : BitVec 16) (pay : List Byte) (d : SpnDef) (s : State),
    1 ≤ d.bitLength.toNat → d.bitLength.toNat ≤ 32 → d.startBit.toNat ≤ 7 →
    d.startByte.toNat * 8 + d.startBit.toNat + d.bitLength.toNat ≤ 8 * pay.length → ∃ (t : State) (sig : DecodedSignal),
      decodeSignal s.inst s.freeDraws pay d = .ok sig ∧
      exec (.decodeSpn n pay d) s = .next t ∧ Answered s t ⟨.ok, [], .signal sig, .none⟩ ∧ t.table = s.table ∧
      sig.spnId = d.spnId ∧ sig.unit = d.unit ∧
      (∀ k, k < d.bitLength.toNat → ∃ b, pay[(d.startByte.toNat * 8 + d.startBit.toNat + k) / 8]? = some b ∧
        sig.raw.getLsbD k = b.getLsbD ((d.startByte.toNat * 8 + d.startBit.toNat + k) % 8)) ∧
      (∀ k, d.bitLength.toNat ≤ k → sig.raw.getLsbD k = false)

/-- R95 with R93: the class of a decoded signal is the sentinel table's for its width and raw value; a VALUE is converted by one
multiplication and one addition; a sentinel has the value +0.0. Where these give a NaN the value is some NaN: which one is a free
value (R96, log entry 5). -/
def Obligations.SignalValueIsTheConversion : Prop :=
  ∀ (inst : Instance) (k : Nat) (pay : List Byte) (d : SpnDef) (sig : DecodedSignal),
    decodeSignal inst k pay d = .ok sig →
    sig.cls = sentinel inst.sentinels d.bitLength.toNat sig.raw ∧
    (sig.cls ≠ .value → sig.value = 0#64) ∧
    (∀ v p, sig.cls = .value → f64Mul (u32ToF64 sig.raw) d.resolution = some p → f64Add p d.offset = some v →
      sig.value = v) ∧
    (sig.cls = .value → (f64Mul (u32ToF64 sig.raw) d.resolution).bind (f64Add · d.offset) = none →
      f64IsNan sig.value = true)

/-- R93 (S1): whatever the instance, an 8-bit field with raw value 0xFF is NOT_AVAILABLE with value +0.0. -/
def Obligations.EightBitAllOnesIsNotAvailable : Prop :=
  ∀ (n : BitVec 16) (pay : List Byte) (d : SpnDef) (k : Nat) (s : State),
    d.bitLength = 8#8 → d.startBit = 0#8 → d.startByte.toNat = k → pay[k]? = some 0xFF#8 → ∃ t,
      exec (.decodeSpn n pay d) s = .next t ∧
      Answered s t ⟨.ok, [], .signal ⟨d.spnId, 0xFF#32, .notAvailable, 0#64, d.unit⟩, .none⟩ ∧ t.table = s.table

/-- R94: the default sentinel table, for every width and every raw value of that width. -/
def Obligations.DefaultSentinelsAreTheTable : Prop :=
  ∀ (len : Nat) (raw : Word), 1 ≤ len → len ≤ 32 → raw.toNat < 2 ^ len →
    sentinel defaultSentinels len raw =
      if len = 2 then (if raw = 2#32 then .error else if raw = 3#32 then .notAvailable else .value)
      else if len = 4 then (if raw = 0xE#32 then .error else if raw = 0xF#32 then .notAvailable else .value)
      else if len = 8 then (if raw = 0xFE#32 then .error else if raw = 0xFF#32 then .notAvailable else .value)
      else if len = 16 then
        (if raw.toNat / 256 = 0xFE then .error else if raw.toNat / 256 = 0xFF then .notAvailable else .value)
      else if len = 32 then
        (if raw.toNat / 2 ^ 24 = 0xFE then .error else if raw.toNat / 2 ^ 24 = 0xFF then .notAvailable else .value)
      else .value

/-- R96: exactly when the two operations give a NaN. -/
def Obligations.NanArisesExactlyAsInBinary64 : Prop :=
  ∀ a b : F64,
    (f64Mul a b = none ↔ f64IsNan a = true ∨ f64IsNan b = true ∨ (f64IsInf a = true ∧ f64IsZero b = true) ∨
      (f64IsZero a = true ∧ f64IsInf b = true)) ∧
    (f64Add a b = none ↔ f64IsNan a = true ∨ f64IsNan b = true ∨
      (f64IsInf a = true ∧ f64IsInf b = true ∧ f64Sign a ≠ f64Sign b))

/-- R11: every unsigned 32-bit integer is converted exactly; its magnitude is counted in `2^-1074`. -/
def Obligations.U32ConvertsExactly : Prop :=
  ∀ r : Word, f64IsNan (u32ToF64 r) = false ∧ f64IsInf (u32ToF64 r) = false ∧ f64Sign (u32ToF64 r) = false ∧
    f64Units (u32ToF64 r) = r.toNat * 2 ^ 1074

/-- R11: the integer rounding of the two operations is to nearest, and a tie goes to the even neighbour. -/
def Obligations.RoundingGoesToNearestEven : Prop :=
  ∀ n sh : Nat,
    2 * (roundShift n sh * 2 ^ sh) ≤ 2 * n + 2 ^ sh ∧ 2 * n ≤ 2 * (roundShift n sh * 2 ^ sh) + 2 ^ sh ∧
    (2 * (roundShift n sh * 2 ^ sh) = 2 * n + 2 ^ sh ∨ 2 * n = 2 * (roundShift n sh * 2 ^ sh) + 2 ^ sh →
      roundShift n sh % 2 = 0)

/-- R11: the product of finite operands has the product's sign; it is infinity when the exact product reaches half a unit past the
greatest finite magnitude, and otherwise finite, with no finite binary64 nearer to the exact product, and even where another one is as
near (magnitudes are counted in `2^-1074`, the exact product in `2^-2148`). The product of an infinity and an operand that is neither
zero nor a NaN is an infinity of the product's sign. Overflow to infinity, the sign of a zero and the infinite operands are those of
IEEE 754, which R11 names and does not spell out (log entry 12). -/
def Obligations.ProductIsNearest : Prop :=
  ∀ a b : F64,
    (f64Expo a ≠ 2047 → f64Expo b ≠ 2047 → ∃ p,
      f64Mul a b = some p ∧ f64Sign p = (f64Sign a != f64Sign b) ∧
      ((2 ^ 2098 - 2 ^ 2044) * 2 ^ 1074 ≤ f64Units a * f64Units b → f64Expo p = 2047 ∧ f64Frac p = 0) ∧
      (f64Units a * f64Units b < (2 ^ 2098 - 2 ^ 2044) * 2 ^ 1074 → f64Expo p ≠ 2047 ∧
        ∀ v : F64, f64Expo v ≠ 2047 →
          ((f64Units p : Int) * 2 ^ 1074 - f64Units a * f64Units b).natAbs ≤
            ((f64Units v : Int) * 2 ^ 1074 - f64Units a * f64Units b).natAbs ∧
          (f64Units v ≠ f64Units p →
            ((f64Units p : Int) * 2 ^ 1074 - f64Units a * f64Units b).natAbs =
              ((f64Units v : Int) * 2 ^ 1074 - f64Units a * f64Units b).natAbs → f64Frac p % 2 = 0))) ∧
    (f64Expo a = 2047 → f64Frac a = 0 → (f64Expo b = 2047 → f64Frac b = 0) → (f64Expo b ≠ 0 ∨ f64Frac b ≠ 0) → ∃ p,
      f64Mul a b = some p ∧ f64Mul b a = some p ∧ f64Expo p = 2047 ∧ f64Frac p = 0 ∧
      f64Sign p = (f64Sign a != f64Sign b))

/-- R11: the sum of finite operands has the exact sum's sign, a zero sum being negative only when both operands are; it is infinity
when the exact sum's magnitude reaches half a unit past the greatest finite one, and otherwise finite, with no finite binary64 nearer
to the exact sum, and even where another one is as near (counted in `2^-1074`). The sum of an infinity and an operand that is neither a
NaN nor the opposite infinity is that infinity. Overflow, the sign of a zero and the infinite operands are those of IEEE 754, which
R11 names and does not spell out (log entry 12). -/
def Obligations.SumIsNearest : Prop :=
  ∀ a b : F64,
    (f64Expo a ≠ 2047 → f64Expo b ≠ 2047 → ∃ p,
      f64Add a b = some p ∧
      (f64Int a + f64Int b = 0 → f64Units p = 0 ∧ f64Sign p = (f64Sign a && f64Sign b)) ∧
      (f64Int a + f64Int b ≠ 0 → f64Sign p = decide (f64Int a + f64Int b < 0)) ∧
      (2 ^ 2098 - 2 ^ 2044 ≤ (f64Int a + f64Int b).natAbs → f64Expo p = 2047 ∧ f64Frac p = 0) ∧
      ((f64Int a + f64Int b).natAbs < 2 ^ 2098 - 2 ^ 2044 → f64Expo p ≠ 2047 ∧
        ∀ v : F64, f64Expo v ≠ 2047 →
          (f64Int p - (f64Int a + f64Int b)).natAbs ≤ (f64Int v - (f64Int a + f64Int b)).natAbs ∧
          (f64Int v ≠ f64Int p →
            (f64Int p - (f64Int a + f64Int b)).natAbs = (f64Int v - (f64Int a + f64Int b)).natAbs →
              f64Frac p % 2 = 0))) ∧
    (f64Expo a = 2047 → f64Frac a = 0 → (f64Expo b = 2047 → f64Frac b = 0 ∧ f64Sign b = f64Sign a) →
      f64Add a b = some a ∧ f64Add b a = some a)

/-! ### The Message Dispatcher -/

/-- R119: PROCESS_FRAME of a standard frame sweeps and answers InvalidIdentifier with the frame's `arb_id`, whatever it is; so does
the instruction of that class. -/
def Obligations.StandardFrameIsRejected : Prop :=
  ∀ (now : Time) (a : Word) (dlc : BitVec 4) (d : Lanes) (s : State), ∃ t,
    exec (.processFrame now ⟨0, a, dlc, d⟩) s = .next t ∧ exec (.frameStandard now a dlc d) s = .next t ∧
    Answered s t ⟨.invalidIdentifier, sweepEvents s.inst now s.table, .none, .arbId a⟩ ∧
    t.table = sweepTable s.inst now s.table ∧ t.freeDraws = s.freeDraws

/-- R50: a word with a bit of 31:29 set makes DECODE_ID, and PROCESS_FRAME of an extended frame, answer InvalidIdentifier with that
word, PROCESS_FRAME after its sweep, which stays (R133); with a valid word neither answers so. -/
def Obligations.InvalidIdentifierFrameIsRejected : Prop :=
  (∀ (now : Time) (a : Word) (dlc : BitVec 4) (d : Lanes) (s : State), 2 ^ 29 ≤ a.toNat → ∃ t,
    exec (.processFrame now ⟨1, a, dlc, d⟩) s = .next t ∧ exec (.frameInvalidId now a dlc d) s = .next t ∧
    Answered s t ⟨.invalidIdentifier, sweepEvents s.inst now s.table, .none, .arbId a⟩ ∧
    t.table = sweepTable s.inst now s.table ∧ t.freeDraws = s.freeDraws) ∧
  (∀ (now : Time) (a : Word) (dlc : BitVec 4) (d : Lanes) (s t : State) (r : Response), a.toNat < 2 ^ 29 →
    exec (.processFrame now ⟨1, a, dlc, d⟩) s = .next t → Answered s t r → r.status ≠ .invalidIdentifier) ∧
  (∀ (a : Word) (s : State), ∃ (t : State) (r : Response), exec (.decodeId a) s = .next t ∧ Answered s t r ∧
    t.table = s.table ∧ t.freeDraws = s.freeDraws ∧
    (2 ^ 29 ≤ a.toNat → r = ⟨.invalidIdentifier, [], .none, .arbId a⟩) ∧ (a.toNat < 2 ^ 29 → r.status = .ok))

/-- R120, R123, R124: a single-frame message of a known PGN is answered with its payload and one result for each listed SPN in list
order: UnknownSpn for a number the dictionary lacks, otherwise the signal decode of its definition. No session is touched apart from
the sweep. Which free value each listed SPN draws, the index `s.freeDraws + j`, is the model's choice (log entry 5). -/
def Obligations.SingleFrameMessageIsDecoded : Prop :=
  ∀ (now : Time) (x : IdFields) (dlc : BitVec 4) (d : Lanes) (pd : PgnDef) (s : State),
    dictPgn s.inst ((pgnOf x).setWidth 32) = some pd → ∃ (t : State) (sigs : List (Word × SignalResult)),
      exec (.frameSingle now x dlc d) s = .next t ∧
      Answered s t ⟨.ok, sweepEvents s.inst now s.table,
        .message ⟨(pgnOf x).setWidth 32, x.sa, (if x.pf.toNat < 240 then x.ps else 0xFF#8),
          [d.b0, d.b1, d.b2, d.b3, d.b4, d.b5, d.b6, d.b7].take (min dlc.toNat 8), true, sigs⟩, .none⟩ ∧
      sigs.length = pd.spnIds.length ∧
      (∀ (j : Nat) (id : Word), pd.spnIds[j]? = some id → ∃ res, sigs[j]? = some (id, res) ∧
        (dictSpn s.inst id = none → res = .err .unknownSpn id) ∧
        (∀ df, dictSpn s.inst id = some df → res = decodeSignal s.inst (s.freeDraws + j)
          ([d.b0, d.b1, d.b2, d.b3, d.b4, d.b5, d.b6, d.b7].take (min dlc.toNat 8)) df)) ∧
      t.table = sweepTable s.inst now s.table

/-- R123: a single-frame message whose PGN the dictionary lacks is answered UnknownPgn under policy ERROR, and passed raw with no
signal under PASS_RAW. -/
def Obligations.UnknownPgnFollowsThePolicy : Prop :=
  ∀ (now : Time) (x : IdFields) (dlc : BitVec 4) (d : Lanes) (s : State),
    dictPgn s.inst ((pgnOf x).setWidth 32) = none → ∃ (t : State) (r : Response),
      exec (.frameSingle now x dlc d) s = .next t ∧ Answered s t r ∧ r.events = sweepEvents s.inst now s.table ∧
      t.table = sweepTable s.inst now s.table ∧ t.freeDraws = s.freeDraws ∧
      (s.inst.policy = .error →
        r.status = .unknownPgn ∧ r.result = .none ∧ r.info = .pgn ((pgnOf x).setWidth 32)) ∧
      (s.inst.policy = .passRaw → r.status = .ok ∧ r.info = .none ∧
        r.result = .message ⟨(pgnOf x).setWidth 32, x.sa, (if x.pf.toNat < 240 then x.ps else 0xFF#8),
          [d.b0, d.b1, d.b2, d.b3, d.b4, d.b5, d.b6, d.b7].take (min dlc.toNat 8), false, []⟩)

/-- R121: PROCESS_FRAME answers every frame; only a single-frame message or a TP.DT that removes its session can carry a message. -/
def Obligations.ProcessFrameGivesAtMostOneMessage : Prop :=
  ∀ (now : Time) (f : Frame) (s : State), ∃ (t : State) (r : Response),
    exec (.processFrame now f) s = .next t ∧ Answered s t r ∧ r.events = sweepEvents s.inst now s.table ∧
    (∀ m, r.result = .message m →
      (classify f = .single ∧ t.table = sweepTable s.inst now s.table) ∨
      (classify f = .dt ∧
        tableGet (sweepTable s.inst now s.table) (tpHeader f).sa (tpHeader f).da ≠ none ∧
        tableGet t.table (tpHeader f).sa (tpHeader f).da = none)) ∧
    (classify f = .single → r.status = .ok → ∃ m, r.result = .message m)

/-- R51: the data lanes at and above `min(dlc, 8)` change nothing. -/
def Obligations.LanesPastTheLengthAreIgnored : Prop :=
  ∀ (now : Time) (ide : BitVec 1) (a : Word) (dlc : BitVec 4) (d d' : Lanes) (s : State),
    (∀ k, k < min dlc.toNat 8 →
      [d.b0, d.b1, d.b2, d.b3, d.b4, d.b5, d.b6, d.b7][k]? = [d'.b0, d'.b1, d'.b2, d'.b3, d'.b4, d'.b5, d'.b6, d'.b7][k]?) →
    exec (.processFrame now ⟨ide, a, dlc, d⟩) s = exec (.processFrame now ⟨ide, a, dlc, d'⟩) s

/-! ### The Transport Protocol Reassembler -/

/-- R105: a TP.CM frame of fewer than eight bytes is answered MalformedTransportControl and writes no session. -/
def Obligations.ShortControlFrameIsMalformed : Prop :=
  ∀ (now : Time) (h : TpHeader) (d : Lanes) (s : State), ∃ t,
    exec (.tpCmShort now h d) s = .next t ∧
    Answered s t ⟨.malformedTransportControl, sweepEvents s.inst now s.table, .none, .addresses h.sa h.da⟩ ∧
    t.table = sweepTable s.inst now s.table ∧ t.freeDraws = s.freeDraws

/-- R111: a TP.CM frame with a reserved control byte is answered OK with no result and writes no session. -/
def Obligations.ReservedControlByteIsIgnored : Prop :=
  ∀ (now : Time) (h : TpHeader) (d : Lanes) (s : State), ∃ t,
    exec (.tpCmReserved now h d) s = .next t ∧
    Answered s t ⟨.ok, sweepEvents s.inst now s.table, .none, .none⟩ ∧
    t.table = sweepTable s.inst now s.table ∧ t.freeDraws = s.freeDraws

/-- R106 with R101 and R102: a BAM checks its destination, then its consistency, then the capacity; a refusal of the first two
removes the session at `(sa, 0xFF)`, a full table changes nothing, and otherwise the new session is stored, replacing any other.
No other key is written. -/
def Obligations.BamFollowsItsRule : Prop :=
  ∀ (now : Time) (h : TpHeader) (size : BitVec 16) (np r4 : Byte) (pgn : BitVec 24) (s : State),
    ∃ (t : State) (r : Response),
      exec (.tpCmBam now h size np r4 pgn) s = .next t ∧ Answered s t r ∧ t.freeDraws = s.freeDraws ∧
      r.events = sweepEvents s.inst now s.table ∧ r.result = .none ∧
      (∀ a b, ¬(a = h.sa ∧ b = 0xFF#8) → tableGet t.table a b = tableGet (sweepTable s.inst now s.table) a b) ∧
      (h.da ≠ 0xFF#8 → r.status = .malformedTransportControl ∧ r.info = .addresses h.sa h.da ∧
        tableGet t.table h.sa 0xFF#8 = none) ∧
      (h.da = 0xFF#8 →
        ¬(1 ≤ size.toNat ∧ 1 ≤ np.toNat ∧ size.toNat ≤ np.toNat * 7 ∧ np.toNat * 7 < size.toNat + 7) →
        r.status = .malformedTransportControl ∧ r.info = .addresses h.sa 0xFF#8 ∧
        tableGet t.table h.sa 0xFF#8 = none) ∧
      (h.da = 0xFF#8 → 1 ≤ size.toNat → 1 ≤ np.toNat → size.toNat ≤ np.toNat * 7 → np.toNat * 7 < size.toNat + 7 →
        (tableGet (sweepTable s.inst now s.table) h.sa 0xFF#8 = none ∧
          (∃ m, s.inst.maxSessions = some m ∧ m.count ≤ (sweepTable s.inst now s.table).length) →
          r.status = .sessionTableFull ∧ r.info = .addresses h.sa 0xFF#8 ∧
          t.table = sweepTable s.inst now s.table) ∧
        (¬(tableGet (sweepTable s.inst now s.table) h.sa 0xFF#8 = none ∧
          (∃ m, s.inst.maxSessions = some m ∧ m.count ≤ (sweepTable s.inst now s.table).length)) →
          r.status = .ok ∧ r.info = .none ∧
          tableGet t.table h.sa 0xFF#8 = some
            { mode := .bam, state := .receiving, src := h.sa, dst := 0xFF#8, size := size, np := np, pgn := pgn,
              rcv := [], createdAt := now, lastActivity := now }))

/-- R107 with R101 and R102: an RTS to the global address is refused with no affected key; an inconsistent one removes the session at
`(sa, da)`; a full table changes nothing; otherwise the new session is stored. No other key is written. -/
def Obligations.RtsFollowsItsRule : Prop :=
  ∀ (now : Time) (h : TpHeader) (size : BitVec 16) (np mx : Byte) (pgn : BitVec 24) (s : State),
    ∃ (t : State) (r : Response),
      exec (.tpCmRts now h size np mx pgn) s = .next t ∧ Answered s t r ∧ t.freeDraws = s.freeDraws ∧
      r.events = sweepEvents s.inst now s.table ∧ r.result = .none ∧
      (∀ a b, ¬(a = h.sa ∧ b = h.da) → tableGet t.table a b = tableGet (sweepTable s.inst now s.table) a b) ∧
      (h.da = 0xFF#8 → r.status = .malformedTransportControl ∧ r.info = .addresses h.sa 0xFF#8 ∧
        t.table = sweepTable s.inst now s.table) ∧
      (h.da ≠ 0xFF#8 →
        ¬(1 ≤ size.toNat ∧ 1 ≤ np.toNat ∧ size.toNat ≤ np.toNat * 7 ∧ np.toNat * 7 < size.toNat + 7) →
        r.status = .malformedTransportControl ∧ r.info = .addresses h.sa h.da ∧
        tableGet t.table h.sa h.da = none) ∧
      (h.da ≠ 0xFF#8 → 1 ≤ size.toNat → 1 ≤ np.toNat → size.toNat ≤ np.toNat * 7 → np.toNat * 7 < size.toNat + 7 →
        (tableGet (sweepTable s.inst now s.table) h.sa h.da = none ∧
          (∃ m, s.inst.maxSessions = some m ∧ m.count ≤ (sweepTable s.inst now s.table).length) →
          r.status = .sessionTableFull ∧ r.info = .addresses h.sa h.da ∧
          t.table = sweepTable s.inst now s.table) ∧
        (¬(tableGet (sweepTable s.inst now s.table) h.sa h.da = none ∧
          (∃ m, s.inst.maxSessions = some m ∧ m.count ≤ (sweepTable s.inst now s.table).length)) →
          r.status = .ok ∧ r.info = .none ∧
          tableGet t.table h.sa h.da = some
            { mode := .rtsCts, state := .announced, src := h.sa, dst := h.da, size := size, np := np, pgn := pgn,
              rcv := [], createdAt := now, lastActivity := now }))

/-- R108, R109: CTS and EOMA are answered OK with no result; they raise the last activity of the RTS_CTS session at `(da, sa)` to
`now` if it is lower, and write nothing else. -/
def Obligations.CtsAndEomaMarkActivity : Prop :=
  ∀ (i : Instr) (now : Time) (h : TpHeader) (s : State),
    (∃ count next r3 r4 pgn, i = .tpCmCts now h count next r3 r4 pgn) ∨
      (∃ size np r4 pgn, i = .tpCmEoma now h size np r4 pgn) → ∃ t,
      exec i s = .next t ∧ Answered s t ⟨.ok, sweepEvents s.inst now s.table, .none, .none⟩ ∧
      t.freeDraws = s.freeDraws ∧
      (∀ a b, ¬(a = h.da ∧ b = h.sa) → tableGet t.table a b = tableGet (sweepTable s.inst now s.table) a b) ∧
      (tableGet (sweepTable s.inst now s.table) h.da h.sa = none → tableGet t.table h.da h.sa = none) ∧
      (∀ v, tableGet (sweepTable s.inst now s.table) h.da h.sa = some v → v.mode = .bam →
        tableGet t.table h.da h.sa = some v) ∧
      (∀ v, tableGet (sweepTable s.inst now s.table) h.da h.sa = some v → v.mode = .rtsCts →
        tableGet t.table h.da h.sa = some { v with lastActivity := max v.lastActivity now })

/-- R110: an Abort is answered OK with no result; it removes `(sa, da)` and `(da, sa)` and writes nothing else. -/
def Obligations.AbortRemovesBothOrientations : Prop :=
  ∀ (now : Time) (h : TpHeader) (reason r2 r3 r4 : Byte) (pgn : BitVec 24) (s : State), ∃ t,
    exec (.tpCmAbort now h reason r2 r3 r4 pgn) s = .next t ∧
    Answered s t ⟨.ok, sweepEvents s.inst now s.table, .none, .none⟩ ∧ t.freeDraws = s.freeDraws ∧
    (∀ a b, tableGet t.table a b =
      if (a = h.sa ∧ b = h.da) ∨ (a = h.da ∧ b = h.sa) then none
      else tableGet (sweepTable s.inst now s.table) a b)

/-- R112: a TP.DT frame with no data byte removes the session at `(sa, da)`, writes nothing else, and is answered
MalformedTransportData. -/
def Obligations.EmptyDataFrameIsMalformed : Prop :=
  ∀ (now : Time) (h : TpHeader) (d : Lanes) (s : State), ∃ t,
    exec (.tpDtEmpty now h d) s = .next t ∧
    Answered s t ⟨.malformedTransportData, sweepEvents s.inst now s.table, .none, .addresses h.sa h.da⟩ ∧
    t.freeDraws = s.freeDraws ∧
    (∀ a b, tableGet t.table a b =
      if a = h.sa ∧ b = h.da then none else tableGet (sweepTable s.inst now s.table) a b)

/-- R113, R114: a TP.DT without a session is ignored; a sequence number of 0 or above `np` costs the session; otherwise the chunk is
stored, activity is marked and the session is RECEIVING; if that fills every slot the session is removed and its chunks, in
sequence order and cut to the announced size, are decoded as a message, or are MalformedTransportData when they are too few. No
other key is written. How far the model's own counter of free values advances, and at which of them the message decode begins, is the
model's choice (log entry 5). -/
def Obligations.DataFrameFollowsItsRule : Prop :=
  ∀ (now : Time) (h : TpHeader) (q : Byte) (c : ChunkLanes) (s : State), ∃ (t : State) (r : Response),
    exec (.tpDt now h q c) s = .next t ∧ Answered s t r ∧ r.events = sweepEvents s.inst now s.table ∧
    (∀ a b, ¬(a = h.sa ∧ b = h.da) → tableGet t.table a b = tableGet (sweepTable s.inst now s.table) a b) ∧
    (tableGet (sweepTable s.inst now s.table) h.sa h.da = none →
      r.status = .ok ∧ r.result = .none ∧ r.info = .none ∧ t.freeDraws = s.freeDraws ∧
      tableGet t.table h.sa h.da = none) ∧
    (∀ v, tableGet (sweepTable s.inst now s.table) h.sa h.da = some v → q = 0#8 ∨ v.np.toNat < q.toNat →
      r.status = .malformedTransportData ∧ r.result = .none ∧ r.info = .addresses h.sa h.da ∧
      t.freeDraws = s.freeDraws ∧ tableGet t.table h.sa h.da = none) ∧
    (∀ v, tableGet (sweepTable s.inst now s.table) h.sa h.da = some v → q ≠ 0#8 → q.toNat ≤ v.np.toNat →
      ∃ rcv : NatMap (List Byte),
        (∀ k, mapGet k rcv = if k = q.toNat
          then some ([c.c0, c.c1, c.c2, c.c3, c.c4, c.c5, c.c6].take (min h.dlc.toNat 8 - 1)) else mapGet k v.rcv) ∧
        ((∃ k, 1 ≤ k ∧ k ≤ v.np.toNat ∧ mapGet k rcv = none) →
          r.status = .ok ∧ r.result = .none ∧ r.info = .none ∧ t.freeDraws = s.freeDraws ∧
          tableGet t.table h.sa h.da =
            some { v with rcv := rcv, lastActivity := max v.lastActivity now, state := .receiving }) ∧
        ((∀ k, 1 ≤ k → k ≤ v.np.toNat → mapGet k rcv ≠ none) →
          tableGet t.table h.sa h.da = none ∧
          (((List.range v.np.toNat).flatMap (fun j => (mapGet (j + 1) rcv).getD [])).length < v.size.toNat →
            r.status = .malformedTransportData ∧ r.result = .none ∧ r.info = .addresses h.sa h.da ∧
            t.freeDraws = s.freeDraws) ∧
          (v.size.toNat ≤ ((List.range v.np.toNat).flatMap (fun j => (mapGet (j + 1) rcv).getD [])).length →
            ∃ m : Message, m = ⟨v.pgn.setWidth 32, v.src, v.dst,
                ((List.range v.np.toNat).flatMap (fun j => (mapGet (j + 1) rcv).getD [])).take v.size.toNat⟩ ∧
              r.status = (msgDecode s.inst s.freeDraws m).status ∧
              r.result = (msgDecode s.inst s.freeDraws m).result ∧
              r.info = (msgDecode s.inst s.freeDraws m).info ∧
              t.freeDraws = s.freeDraws + msgDraws s.inst m)))

/-- R115: the reassembled payload, and whether it is complete, depend only on the last chunk stored at each sequence number. -/
def Obligations.ReassemblyIgnoresArrivalOrder : Prop :=
  ∀ (v : Session) (ds ds' : List (Time × Byte × List Byte)),
    (∀ q : Byte, (ds.reverse.find? (fun d => d.2.1 == q)).map (·.2.2) = (ds'.reverse.find? (fun d => d.2.1 == q)).map (·.2.2)) →
    concatChunks (ds.foldl (fun w d => storeChunk d.1 d.2.1 d.2.2 w) v) =
      concatChunks (ds'.foldl (fun w d => storeChunk d.1 d.2.1 d.2.2 w) v) ∧
    allFilled (ds.foldl (fun w d => storeChunk d.1 d.2.1 d.2.2 w) v) =
      allFilled (ds'.foldl (fun w d => storeChunk d.1 d.2.1 d.2.2 w) v)

/-- R106, R113 to R115, R125: a consistent BAM that the table accepts, followed by one full TP.DT for each sequence number in any
order, all at one time, ends with the session gone, every other session as the first sweep left it, and as the last response the
decode of one message: the chunks in sequence order cut to the announced size. The free values the decode begins at are the model's
choice (log entry 5). -/
def Obligations.BroadcastTransferDeliversInAnyOrder : Prop :=
  ∀ (now : Time) (h : TpHeader) (size : BitVec 16) (np r4 : Byte) (pgn : BitVec 24) (chunk : Byte → ChunkLanes)
    (order : List Byte) (s : State),
    h.da = 0xFF#8 → 8 ≤ h.dlc.toNat → 1 ≤ size.toNat → size.toNat ≤ np.toNat * 7 → np.toNat * 7 < size.toNat + 7 →
    order.Perm ((List.range np.toNat).map (fun j => BitVec.ofNat 8 (j + 1))) →
    (tableGet (sweepTable s.inst now s.table) h.sa 0xFF#8 ≠ none ∨
      ∀ m, s.inst.maxSessions = some m → (sweepTable s.inst now s.table).length < m.count) →
    ∃ (t : State) (m : Message),
      execAll (.tpCmBam now h size np r4 pgn :: order.map (fun q => .tpDt now h q (chunk q))) s = .next t ∧
      m = ⟨pgn.setWidth 32, h.sa, 0xFF#8, ((List.range np.toNat).flatMap (fun j =>
        chunkLanesList (chunk (BitVec.ofNat 8 (j + 1))))).take size.toNat⟩ ∧
      t.outbox.getLast? = some ⟨(msgDecode s.inst s.freeDraws m).status, [], (msgDecode s.inst s.freeDraws m).result,
        (msgDecode s.inst s.freeDraws m).info⟩ ∧
      (∀ a b, tableGet t.table a b =
        if a = h.sa ∧ b = 0xFF#8 then none else tableGet (sweepTable s.inst now s.table) a b)

/-! ### Time and the control commands -/

/-- R126 with R116: a TICK removes exactly the sessions whose last activity lies more than their window before `now`, reports each
of them once in ascending key order, is answered OK, and writes nothing else. -/
def Obligations.TickEvictsExactlyTheExpired : Prop :=
  ∀ (now : Time) (s : State), StateInv s → ∃ (t : State) (ev : List Event),
    exec (.tick now) s = .next t ∧ Answered s t ⟨.ok, ev, .none, .none⟩ ∧ t.freeDraws = s.freeDraws ∧
    (∀ a b, tableGet s.table a b = none → tableGet t.table a b = none) ∧
    (∀ a b v, tableGet s.table a b = some v →
      ((v.lastActivity < now ∧
          (v.mode = .bam → s.inst.timeoutBam.toNat < now - v.lastActivity) ∧
          (v.mode = .rtsCts → s.inst.timeoutCm.toNat < now - v.lastActivity)) →
        tableGet t.table a b = none ∧ ⟨.sessionTimeout, a, b⟩ ∈ ev) ∧
      (¬(v.lastActivity < now ∧
          (v.mode = .bam → s.inst.timeoutBam.toNat < now - v.lastActivity) ∧
          (v.mode = .rtsCts → s.inst.timeoutCm.toNat < now - v.lastActivity)) →
        tableGet t.table a b = some v ∧ ⟨.sessionTimeout, a, b⟩ ∉ ev)) ∧
    (∀ e ∈ ev, e.code = .sessionTimeout ∧ tableGet s.table e.src e.dst ≠ none) ∧
    ev.Pairwise (fun e e' => e.src.toNat * 256 + e.dst.toNat < e'.src.toNat * 256 + e'.dst.toNat)

/-- R117: PROCESS_FRAME (and so each frame class), TICK and QUERY_SESSION report the sweep's events, and no other command reports
one. -/
def Obligations.OnlyThreeCommandsSweep : Prop :=
  ∀ (i : Instr) (s t : State) (r : Response), exec i s = .next t → Answered s t r → r.events = eventsOf i s

/-- R126, R132: a second TICK at the same time reports nothing and changes nothing but the responses. -/
def Obligations.SecondTickIsSilent : Prop :=
  ∀ (now : Time) (s t : State), exec (.tick now) s = .next t → ∃ t',
    exec (.tick now) t = .next t' ∧ Answered t t' ⟨.ok, [], .none, .none⟩ ∧ t'.table = t.table ∧
    t'.freeDraws = t.freeDraws

/-- R127, R65, R21: QUERY_SESSION sweeps, then answers the session's fields and the mask of the sequence numbers that hold a chunk,
or no result. The session is not marked active: the table is the swept one. -/
def Obligations.QuerySessionShowsTheSession : Prop :=
  ∀ (now : Time) (src dst : Byte) (s : State), ∃ (t : State) (r : Response),
    exec (.querySession now src dst) s = .next t ∧ Answered s t r ∧ t.freeDraws = s.freeDraws ∧
    t.table = sweepTable s.inst now s.table ∧ r.status = .ok ∧ r.info = .none ∧
    r.events = sweepEvents s.inst now s.table ∧
    (tableGet (sweepTable s.inst now s.table) src dst = none → r.result = .none) ∧
    (∀ v, tableGet (sweepTable s.inst now s.table) src dst = some v → ∃ w : SessionView, r.result = .view w ∧
      w.mode.toNat = (if v.mode = .bam then 0 else 1) ∧
      w.state.toNat = (if v.state = .announced then 1 else 2) ∧
      w.src = v.src ∧ w.dst = v.dst ∧ w.size = v.size ∧ w.np = v.np ∧ w.pgn = v.pgn ∧
      w.createdAt = v.createdAt ∧ w.lastActivity = v.lastActivity ∧
      (∀ q, w.rcvMask.getLsbD q = true ↔ 1 ≤ q ∧ q ≤ v.np.toNat ∧ mapGet q v.rcv ≠ none))

/-- R128, R18, R28: RESET empties the table without a sweep or an event, leaves the instance parameters, and is answered OK. -/
def Obligations.ResetEmptiesTheTable : Prop :=
  ∀ s : State, ∃ t, exec .reset s = .next t ∧ Answered s t ⟨.ok, [], .none, .none⟩ ∧
    (∀ a b, tableGet t.table a b = none) ∧ t.freeDraws = s.freeDraws

/-- R129, R70: a command word with a bit of 31:3 set, or 7, is answered IllegalCommand with that word, with no sweep, no event and
no other change. -/
def Obligations.IllegalCommandIsReported : Prop :=
  (∀ (s : State) (c : PortCommand) (rest : List PortCommand), s.inbox = c :: rest → 7 ≤ c.cw.toNat → ∃ t,
    step s = .next t ∧ t.outbox = s.outbox ++ [⟨.illegalCommand, [], .none, .cw c.cw⟩] ∧ t.table = s.table ∧
    t.inst = s.inst ∧ t.inbox = rest ∧ t.freeDraws = s.freeDraws) ∧
  (∀ (cw : Word) (s : State), ∃ t, exec (.illegalReserved cw) s = .next t ∧
    Answered s t ⟨.illegalCommand, [], .none, .cw cw⟩ ∧ t.table = s.table ∧ t.freeDraws = s.freeDraws) ∧
  (∀ s : State, ∃ t, exec .illegalOpcode7 s = .next t ∧
    Answered s t ⟨.illegalCommand, [], .none, .cw 7#32⟩ ∧ t.table = s.table ∧ t.freeDraws = s.freeDraws)

/-- R130, R63, R21: the numbers of the status codes, of the signal classes, of the session modes and of the stored states. -/
def Obligations.NumericEncodingsAreTheTables : Prop :=
  [Code.ok, .invalidIdentifier, .payloadTooShort, .unknownPgn, .unknownSpn, .sessionTimeout, .malformedTransportControl,
    .malformedTransportData, .sessionTableFull, .malformedDefinition, .illegalCommand].map (fun c => (codeNum c).toNat) =
      [0, 1, 2, 3, 4, 5, 6, 7, 8, 9, 10] ∧
  [Cls.value, .notAvailable, .error].map (fun c => (clsNum c).toNat) = [0, 1, 2] ∧
  [Mode.bam, .rtsCts].map (fun m => (modeNum m).toNat) = [0, 1] ∧
  [SessState.announced, .receiving].map (fun m => (sessStateNum m).toNat) = [1, 2]

/-! ### The whole machine -/

/-- R131, R61, R18: every instruction answers a next state with exactly one more response and writes no instance parameter. -/
def Obligations.EveryInstructionAnswersOnce : Prop :=
  ∀ (i : Instr) (s : State), ∃ (t : State) (r : Response), exec i s = .next t ∧ Answered s t r

/-- R61, R130, R132: every response has the information its status calls for, no result unless it is OK, and only SessionTimeout
events; UnknownSpn, SessionTimeout and the reserved codes are never a status. -/
def Obligations.EveryResponseIsWellShaped : Prop :=
  ∀ (i : Instr) (s t : State) (r : Response), exec i s = .next t → Answered s t r → ResponseOk r

/-- R23, R20, R102: from every state that meets the invariant, a step gives a state that meets it. That the table and each session's
chunks are in canonical form, a part of the invariant, is the model's own (log entry 18). -/
def Obligations.StepKeepsTheSessionInvariants : Prop :=
  ∀ s t : State, StateInv s → step s = .next t → StateInv t

/-- R28, R143: an instance just created meets the invariant, whatever its parameters. -/
def Obligations.CreationMeetsTheSessionInvariants : Prop :=
  (∀ inst : Instance, StateInv (State.create inst)) ∧ StateInv State.reset ∧ State.reset.table = [] ∧
  State.reset.inst.timeoutBam = 750#32 ∧ State.reset.inst.timeoutCm = 1250#32 ∧ State.reset.inst.policy = .error

/-- R23, R150, R154: every state of every run meets the invariant, so the table never exceeds `MAX_SESSIONS`. The canonical form of
the table and of each session's chunks, a part of the invariant, is the model's own (log entry 18). -/
def Obligations.EveryRunKeepsTheSessionInvariants : Prop :=
  ∀ s : State, Reachable s → StateInv s ∧ (∀ m, s.inst.maxSessions = some m → s.table.length ≤ m.count)

/-- R24, R104, R120: apart from the sweep and RESET, an instruction writes only the entries at the keys of its frame: one for most
transport frames, two for Abort, none for anything else. -/
def Obligations.SessionsAreIsolated : Prop :=
  ∀ (i : Instr) (s t : State) (a b : Byte), exec i s = .next t → i ≠ .reset → (a, b) ∉ touchedKeys i →
    tableGet t.table a b = tableGet (tableSwept i s) a b

/-- R16, R42: what a command does and answers depends on the table, the parameters and its operands (and the free values), never on
an earlier response or a waiting command. -/
def Obligations.EarlierResponsesDoNotMatter : Prop :=
  ∀ (i : Instr) (s s' : State), s.table = s'.table → s.inst = s'.inst → s.freeDraws = s'.freeDraws →
    ∃ (t t' : State) (r : Response), exec i s = .next t ∧ exec i s' = .next t' ∧ Answered s t r ∧ Answered s' t' r ∧
      t.table = t'.table ∧ t.freeDraws = t'.freeDraws

/-- R100, R103, R137: a session that is still in the table after an instruction is a fresh announcement of `now`, or has kept its
announced fields and its creation time, and its last activity has not been lowered. -/
def Obligations.StoredSessionsOnlyAdvance : Prop :=
  ∀ (i : Instr) (s t : State) (a b : Byte) (v w : Session), MapWf s.table → exec i s = .next t →
    tableGet s.table a b = some v → tableGet t.table a b = some w →
    (∃ now, sweepTime i = some now ∧ w.createdAt = now ∧ w.lastActivity = now ∧ w.rcv = []) ∨
    (w.mode = v.mode ∧ w.src = v.src ∧ w.dst = v.dst ∧ w.size = v.size ∧ w.np = v.np ∧ w.pgn = v.pgn ∧
      w.createdAt = v.createdAt ∧ v.lastActivity ≤ w.lastActivity ∧
      (∀ q, mapGet q v.rcv ≠ none → mapGet q w.rcv ≠ none))

/-- R152 item 1, R117: a TP.DT that arrives after its session's window removes the session, reports its timeout, and is ignored. -/
def Obligations.LateDataFrameFindsNoSession : Prop :=
  ∀ (now : Time) (h : TpHeader) (q : Byte) (c : ChunkLanes) (s : State) (v : Session), StateInv s →
    tableGet s.table h.sa h.da = some v → v.lastActivity < now → window s.inst v < now - v.lastActivity →
    ∃ (t : State) (ev : List Event), exec (.tpDt now h q c) s = .next t ∧
      Answered s t ⟨.ok, ev, .none, .none⟩ ∧ ⟨.sessionTimeout, h.sa, h.da⟩ ∈ ev ∧
      tableGet t.table h.sa h.da = none

/-! ### What the frame's bits become, and the message decode of any message -/

/-- R54, with R49, R51 to R53, R55, R56, R80 and R99: which bits and bytes of a frame become the operands of its class. The class
itself is that of R68 (FrameClassIsReadFromTheFrame). -/
def Obligations.FrameOperandsAreReadFromTheFrame : Prop :=
  ∀ (now : Time) (f : Frame), ∃ (h : TpHeader) (size : BitVec 16) (pgn : BitVec 24) (x : IdFields),
    h.prio.toNat = f.arbId.toNat / 2 ^ 26 % 2 ^ 3 ∧
    h.sa.toNat = f.arbId.toNat % 2 ^ 8 ∧
    h.da.toNat = f.arbId.toNat / 2 ^ 8 % 2 ^ 8 ∧
    h.dlc = f.dlc ∧
    size.toNat = f.data.b1.toNat + f.data.b2.toNat * 2 ^ 8 ∧
    pgn.toNat = f.data.b5.toNat + f.data.b6.toNat * 2 ^ 8 + f.data.b7.toNat * 2 ^ 16 ∧
    x.prio.toNat = f.arbId.toNat / 2 ^ 26 % 2 ^ 3 ∧
    x.r.toNat = f.arbId.toNat / 2 ^ 25 % 2 ∧
    x.dp.toNat = f.arbId.toNat / 2 ^ 24 % 2 ∧
    x.pf.toNat = f.arbId.toNat / 2 ^ 16 % 2 ^ 8 ∧
    x.ps.toNat = f.arbId.toNat / 2 ^ 8 % 2 ^ 8 ∧
    x.sa.toNat = f.arbId.toNat % 2 ^ 8 ∧
    (classify f = .standard → decodeFrame now f = .frameStandard now f.arbId f.dlc f.data) ∧
    (classify f = .invalidId → decodeFrame now f = .frameInvalidId now f.arbId f.dlc f.data) ∧
    (classify f = .cmShort → decodeFrame now f = .tpCmShort now h f.data) ∧
    (classify f = .rts → decodeFrame now f = .tpCmRts now h size f.data.b3 f.data.b4 pgn) ∧
    (classify f = .cts → decodeFrame now f = .tpCmCts now h f.data.b1 f.data.b2 f.data.b3 f.data.b4 pgn) ∧
    (classify f = .eoma → decodeFrame now f = .tpCmEoma now h size f.data.b3 f.data.b4 pgn) ∧
    (classify f = .bam → decodeFrame now f = .tpCmBam now h size f.data.b3 f.data.b4 pgn) ∧
    (classify f = .abort → decodeFrame now f = .tpCmAbort now h f.data.b1 f.data.b2 f.data.b3 f.data.b4 pgn) ∧
    (classify f = .cmReserved → decodeFrame now f = .tpCmReserved now h f.data) ∧
    (classify f = .dtEmpty → decodeFrame now f = .tpDtEmpty now h f.data) ∧
    (classify f = .dt → decodeFrame now f = .tpDt now h f.data.b0
      ⟨f.data.b1, f.data.b2, f.data.b3, f.data.b4, f.data.b5, f.data.b6, f.data.b7⟩) ∧
    (classify f = .single → decodeFrame now f = .frameSingle now x f.dlc f.data)

/-- R123, for every message, a reassembled one too: UnknownPgn or the raw message where the dictionary lacks the PGN, by the policy;
otherwise the message with one result for each listed SPN in list order, UnknownSpn for a number the dictionary lacks and else the
signal decode of its definition over the message's payload (with some free value `n`). -/
def Obligations.MessageDecodeFollowsItsRule : Prop :=
  ∀ (inst : Instance) (k : Nat) (m : Message),
    (dictPgn inst m.pgn = none → inst.policy = .error →
      msgDecode inst k m = ⟨.unknownPgn, .none, .pgn m.pgn⟩) ∧
    (dictPgn inst m.pgn = none → inst.policy = .passRaw →
      msgDecode inst k m = ⟨.ok, .message ⟨m.pgn, m.sa, m.da, m.payload, false, []⟩, .none⟩) ∧
    (∀ pd, dictPgn inst m.pgn = some pd → ∃ sigs : List (Word × SignalResult),
      msgDecode inst k m = ⟨.ok, .message ⟨m.pgn, m.sa, m.da, m.payload, true, sigs⟩, .none⟩ ∧
      sigs.length = pd.spnIds.length ∧
      (∀ (j : Nat) (id : Word), pd.spnIds[j]? = some id → ∃ res, sigs[j]? = some (id, res) ∧
        (dictSpn inst id = none → res = .err .unknownSpn id) ∧
        (∀ df, dictSpn inst id = some df → ∃ n, res = decodeSignal inst n m.payload df)))
end

