-- ==== Sys2Proof/Laws/Identifier.lean ====
section
/-! SUPPORT. Bit fields as numbers: slices and concatenations of words, the identifier's fields, its word and its PGN. -/

namespace Sys2Proof.Machine

/-- A slice as a number (R9). -/
theorem bitsAt_toNat (v : Word) (lo w : Nat) : (bitsAt v lo w).toNat = v.toNat / 2 ^ lo % 2 ^ w := by
  simp [bitsAt, Nat.shiftRight_eq_div_pow]

/-- A concatenation as a number. -/
theorem append_toNat {n m : Nat} (x : BitVec n) (y : BitVec m) : (x ++ y).toNat = x.toNat * 2 ^ m + y.toNat := by
  rw [BitVec.toNat_append, ← Nat.shiftLeft_add_eq_or_of_lt y.isLt, Nat.shiftLeft_eq]

/-- An identifier is valid exactly below `2^29` (R50). -/
theorem idValid_iff (id : Word) : idValid id = true ↔ id.toNat < 2 ^ 29 := by
  have := id.isLt
  rw [idValid, beq_iff_eq, ← BitVec.toNat_inj, bitsAt_toNat]
  show _ = 0 ↔ _
  omega

/-- The identifier word as a sum (R83). -/
theorem idWord_toNat (x : IdFields) :
    (idWord x).toNat = x.prio.toNat * 2 ^ 26 + x.r.toNat * 2 ^ 25 + x.dp.toNat * 2 ^ 24 + x.pf.toNat * 2 ^ 16 +
      x.ps.toNat * 2 ^ 8 + x.sa.toNat := by
  have h : (0#3).toNat = 0 := rfl
  simp only [idWord, append_toNat, h]
  omega

theorem idWord_lt (x : IdFields) : (idWord x).toNat < 2 ^ 29 := by
  have := x.prio.isLt
  have := x.r.isLt
  have := x.dp.isLt
  have := x.pf.isLt
  have := x.ps.isLt
  have := x.sa.isLt
  rw [idWord_toNat]
  omega

@[simp] theorem idValid_idWord (x : IdFields) : idValid (idWord x) = true := (idValid_iff _).2 (idWord_lt x)

/-- The fields of a word built from fields are those fields. -/
@[simp] theorem idFields_idWord (x : IdFields) : idFields (idWord x) = x := by
  have h0 := x.prio.isLt
  have h1 := x.r.isLt
  have h2 := x.dp.isLt
  have h3 := x.pf.isLt
  have h4 := x.ps.isLt
  have h5 := x.sa.isLt
  cases x
  simp only [idFields, IdFields.mk.injEq, ← BitVec.toNat_inj, bitsAt_toNat, idWord_toNat] at *
  omega

/-- The word built from the fields of a valid identifier is that identifier. -/
theorem idWord_idFields {id : Word} (h : id.toNat < 2 ^ 29) : idWord (idFields id) = id := by
  rw [← BitVec.toNat_inj, idWord_toNat]
  simp only [idFields, bitsAt_toNat]
  omega

/-- PDU1 as a number (R77). -/
theorem isPdu1_iff (pf : Byte) : isPdu1 pf = true ↔ pf.toNat < 240 := by simp [isPdu1]

/-- The PGN as a number (R78). -/
theorem pgnOf_toNat (x : IdFields) :
    (pgnOf x).toNat = x.r.toNat * 2 ^ 17 + x.dp.toNat * 2 ^ 16 + x.pf.toNat * 2 ^ 8 +
      (if x.pf.toNat < 240 then 0 else x.ps.toNat) := by
  by_cases h : x.pf.toNat < 240
  · have h0 : (0#8).toNat = 0 := rfl
    simp only [pgnOf, append_toNat, (isPdu1_iff _).2 h, if_true, h, h0]
    omega
  · have h1 : isPdu1 x.pf = false := by simpa [isPdu1] using h
    simp only [pgnOf, append_toNat, h1, if_neg h, Bool.false_eq_true, if_false]
    omega

/-- The destination address (R79). -/
theorem daOf_eq (x : IdFields) : daOf x = if x.pf.toNat < 240 then x.ps else 0xFF#8 := by
  simp [daOf, isPdu1]

/-- The two bytes of a 16-bit field put together again (R54). -/
@[simp] theorem append_bytes16 (x : BitVec 16) : x.extractLsb' 8 8 ++ x.extractLsb' 0 8 = x := by
  have := x.isLt
  rw [← BitVec.toNat_inj, append_toNat]
  simp only [BitVec.extractLsb'_toNat, Nat.shiftRight_eq_div_pow]
  omega

/-- The three bytes of a 24-bit field put together again (R55). -/
@[simp] theorem append_bytes24 (x : BitVec 24) :
    x.extractLsb' 16 8 ++ x.extractLsb' 8 8 ++ x.extractLsb' 0 8 = x := by
  have := x.isLt
  rw [← BitVec.toNat_inj, append_toNat, append_toNat]
  simp only [BitVec.extractLsb'_toNat, Nat.shiftRight_eq_div_pow]
  omega

@[simp] theorem low_append16 (a b : Byte) : (a ++ b : BitVec 16).extractLsb' 0 8 = b := by
  have := b.isLt
  rw [← BitVec.toNat_inj, BitVec.extractLsb'_toNat, append_toNat, Nat.shiftRight_eq_div_pow]
  omega

@[simp] theorem high_append16 (a b : Byte) : (a ++ b : BitVec 16).extractLsb' 8 8 = a := by
  have := a.isLt
  have := b.isLt
  rw [← BitVec.toNat_inj, BitVec.extractLsb'_toNat, append_toNat, Nat.shiftRight_eq_div_pow]
  omega

@[simp] theorem low_append24 (a b c : Byte) : (a ++ b ++ c : BitVec 24).extractLsb' 0 8 = c := by
  have := c.isLt
  rw [← BitVec.toNat_inj, BitVec.extractLsb'_toNat, append_toNat, Nat.shiftRight_eq_div_pow]
  omega

@[simp] theorem mid_append24 (a b c : Byte) : (a ++ b ++ c : BitVec 24).extractLsb' 8 8 = b := by
  have := b.isLt
  have := c.isLt
  rw [← BitVec.toNat_inj, BitVec.extractLsb'_toNat, append_toNat, append_toNat, Nat.shiftRight_eq_div_pow]
  omega

@[simp] theorem high_append24 (a b c : Byte) : (a ++ b ++ c : BitVec 24).extractLsb' 16 8 = a := by
  have := a.isLt
  have := b.isLt
  have := c.isLt
  rw [← BitVec.toNat_inj, BitVec.extractLsb'_toNat, append_toNat, append_toNat, Nat.shiftRight_eq_div_pow]
  omega

end Sys2Proof.Machine
end

