-- ==== Sys2Proof/Laws/Decode.lean ====
section
/-! SUPPORT. The class of an encoded frame and what its header decodes to. -/

namespace Sys2Proof.Machine

@[simp] theorem decode_portFrame (now : Time) (f : Frame) : decode (portFrame now f) = .ok (.processFrame now f) := by
  simp [decode, portFrame, portWord, bitsAt]

theorem pgnOf_tpCm (prio : BitVec 3) (da sa : Byte) : pgnOf ⟨prio, 0, 0, 0xEC, da, sa⟩ = pgnTpCm := by
  simp only [pgnOf, show isPdu1 0xEC = true by decide, if_true]
  decide

theorem pgnOf_tpDt (prio : BitVec 3) (da sa : Byte) : pgnOf ⟨prio, 0, 0, 0xEB, da, sa⟩ = pgnTpDt := by
  simp only [pgnOf, show isPdu1 0xEB = true by decide, if_true]
  decide

theorem pgnTpDt_ne_pgnTpCm : pgnTpDt ≠ pgnTpCm := by decide

/-- The class of an encoded control frame (R68). -/
theorem classify_tpCm (h : TpHeader) (d : Lanes) :
    classify (tpFrame 0xEC h d) = if frameLen h.dlc < 8 then .cmShort else cmClass d.b0 := by
  simp only [classify, tpFrame, idValid_idWord, idFields_idWord, pgnOf_tpCm]
  rfl

/-- The class of an encoded data frame (R68). -/
theorem classify_tpDt (h : TpHeader) (d : Lanes) :
    classify (tpFrame 0xEB h d) = if frameLen h.dlc = 0 then .dtEmpty else .dt := by
  simp only [classify, tpFrame, idValid_idWord, idFields_idWord, pgnOf_tpDt, pgnTpDt_ne_pgnTpCm]
  rfl

@[simp] theorem tpHeader_tpFrame (pf : Byte) (h : TpHeader) (d : Lanes) : tpHeader (tpFrame pf h d) = h := by
  simp [tpHeader, tpFrame]

@[simp] theorem tpFrame_data (pf : Byte) (h : TpHeader) (d : Lanes) : (tpFrame pf h d).data = d := rfl

@[simp] theorem cmSize_announceLanes (k : Byte) (size : BitVec 16) (np b4 : Byte) (pgn : BitVec 24) :
    cmSize (announceLanes k size np b4 pgn) = size := by
  simp only [cmSize, announceLanes, append_bytes16]

@[simp] theorem cmPgn_announceLanes (k : Byte) (size : BitVec 16) (np b4 : Byte) (pgn : BitVec 24) :
    cmPgn (announceLanes k size np b4 pgn) = pgn := by
  simp only [cmPgn, announceLanes, append_bytes24]

@[simp] theorem cmPgn_controlLanes (k b1 b2 b3 b4 : Byte) (pgn : BitVec 24) :
    cmPgn (controlLanes k b1 b2 b3 b4 pgn) = pgn := by
  simp only [cmPgn, controlLanes, append_bytes24]

@[simp] theorem announceLanes_of_lanes (d : Lanes) : announceLanes d.b0 (cmSize d) d.b3 d.b4 (cmPgn d) = d := by
  simp only [announceLanes, cmSize, cmPgn, low_append16, high_append16, low_append24, mid_append24, high_append24]

@[simp] theorem controlLanes_of_lanes (d : Lanes) : controlLanes d.b0 d.b1 d.b2 d.b3 d.b4 (cmPgn d) = d := by
  simp only [controlLanes, cmPgn, low_append24, mid_append24, high_append24]

/-- Which conditions a class was tested by (R68). -/
theorem classify_cases (f : Frame) :
    (classify f = .standard ∧ f.ide = 0) ∨
    (classify f = .invalidId ∧ f.ide = 1 ∧ idValid f.arbId = false) ∨
    (classify f = (if frameLen f.dlc < 8 then .cmShort else cmClass f.data.b0) ∧ f.ide = 1 ∧ idValid f.arbId = true ∧
      pgnOf (idFields f.arbId) = pgnTpCm) ∨
    (classify f = (if frameLen f.dlc = 0 then .dtEmpty else .dt) ∧ f.ide = 1 ∧ idValid f.arbId = true ∧
      pgnOf (idFields f.arbId) = pgnTpDt) ∨
    (classify f = .single ∧ f.ide = 1 ∧ idValid f.arbId = true ∧
      pgnOf (idFields f.arbId) ≠ pgnTpCm ∧ pgnOf (idFields f.arbId) ≠ pgnTpDt) := by
  have hide : f.ide = 0 ∨ f.ide = 1 := by
    have := f.ide.isLt
    simp only [← BitVec.toNat_inj, BitVec.ofNat_eq_ofNat, BitVec.toNat_ofNat]
    omega
  simp only [classify]
  rcases hide with h | h
  · exact .inl ⟨by simp [h], h⟩
  · refine .inr ?_
    have h0 : ¬f.ide = 0 := by rw [h]; decide
    rw [if_neg h0]
    cases hv : idValid f.arbId
    · exact .inl ⟨by simp, h, rfl⟩
    · refine .inr ?_
      rw [if_neg (by simp)]
      by_cases hc : pgnOf (idFields f.arbId) = pgnTpCm
      · exact .inl ⟨by rw [if_pos hc], h, rfl, hc⟩
      · rw [if_neg hc]
        by_cases hd : pgnOf (idFields f.arbId) = pgnTpDt
        · exact .inr (.inl ⟨by rw [if_pos hd], h, rfl, hd⟩)
        · exact .inr (.inr ⟨by rw [if_neg hd], h, rfl, hc, hd⟩)

/-- The control byte of a class (R52). -/
theorem cmClass_cases (k : Byte) :
    (cmClass k = .rts ∧ k = 0x10) ∨ (cmClass k = .cts ∧ k = 0x11) ∨ (cmClass k = .eoma ∧ k = 0x13) ∨
    (cmClass k = .bam ∧ k = 0x20) ∨ (cmClass k = .abort ∧ k = 0xFF) ∨ cmClass k = .cmReserved := by
  simp only [cmClass]
  split
  · exact .inl ⟨rfl, by assumption⟩
  split
  · exact .inr (.inl ⟨rfl, by assumption⟩)
  split
  · exact .inr (.inr (.inl ⟨rfl, by assumption⟩))
  split
  · exact .inr (.inr (.inr (.inl ⟨rfl, by assumption⟩)))
  split
  · exact .inr (.inr (.inr (.inr (.inl ⟨rfl, by assumption⟩))))
  · exact .inr (.inr (.inr (.inr (.inr rfl))))

/-- A transport frame is the encoding of its own header and lanes: R and DP are 0 and the PF is the PGN's (R87). -/
theorem tpFrame_tpHeader {f : Frame} {pf : Byte} (hide : f.ide = 1) (hv : idValid f.arbId = true) (hpf : pf.toNat < 240)
    (hg : (pgnOf (idFields f.arbId)).toNat = pf.toNat * 2 ^ 8) : tpFrame pf (tpHeader f) f.data = f := by
  have hid : idWord ⟨(idFields f.arbId).prio, 0, 0, pf, (idFields f.arbId).ps, (idFields f.arbId).sa⟩ = f.arbId := by
    rw [pgnOf_toNat] at hg
    have h1 := (idFields f.arbId).r.isLt
    have h2 := (idFields f.arbId).dp.isLt
    have h3 := (idFields f.arbId).pf.isLt
    have h4 := (idFields f.arbId).ps.isLt
    have hr : (idFields f.arbId).r = 0 ∧ (idFields f.arbId).dp = 0 ∧ (idFields f.arbId).pf = pf := by
      have hz : (0 : BitVec 1).toNat = 0 := rfl
      simp only [← BitVec.toNat_inj, hz]
      split at hg <;> omega
    have hx : ∀ x : IdFields, x.r = 0 ∧ x.dp = 0 ∧ x.pf = pf → (⟨x.prio, 0, 0, pf, x.ps, x.sa⟩ : IdFields) = x := by
      rintro ⟨⟩ ⟨h1, h2, h3⟩
      simp only at h1 h2 h3
      rw [h1, h2, h3]
    rw [hx _ hr, idWord_idFields ((idValid_iff _).1 hv)]
  cases f
  simp only [tpFrame, tpHeader] at *
  simp only [hid, hide]

end Sys2Proof.Machine
end

