-- ==== Sys2Proof/Laws/State.lean ====
section
/-! SUPPORT. One lemma per field per named update of the state, so that no proof unfolds a record update. -/

namespace Sys2Proof.Machine

@[simp] theorem respond_table (s : State) (ev : List Event) (r : Reply) : (respond s ev r).table = s.table := rfl
@[simp] theorem respond_inst (s : State) (ev : List Event) (r : Reply) : (respond s ev r).inst = s.inst := rfl
@[simp] theorem respond_inbox (s : State) (ev : List Event) (r : Reply) : (respond s ev r).inbox = s.inbox := rfl
@[simp] theorem respond_freeDraws (s : State) (ev : List Event) (r : Reply) :
    (respond s ev r).freeDraws = s.freeDraws := rfl
@[simp] theorem respond_outbox (s : State) (ev : List Event) (r : Reply) :
    (respond s ev r).outbox = s.outbox ++ [⟨r.status, ev, r.result, r.info⟩] := rfl

@[simp] theorem swept_table (now : Time) (s : State) : (swept now s).table = sweepTable s.inst now s.table := rfl
@[simp] theorem swept_inst (now : Time) (s : State) : (swept now s).inst = s.inst := rfl
@[simp] theorem swept_inbox (now : Time) (s : State) : (swept now s).inbox = s.inbox := rfl
@[simp] theorem swept_outbox (now : Time) (s : State) : (swept now s).outbox = s.outbox := rfl
@[simp] theorem swept_freeDraws (now : Time) (s : State) : (swept now s).freeDraws = s.freeDraws := rfl

@[simp] theorem presentFirst_table (c : PortCommand) (s : State) : (presentFirst c s).table = s.table := rfl
@[simp] theorem presentFirst_inst (c : PortCommand) (s : State) : (presentFirst c s).inst = s.inst := rfl
@[simp] theorem presentFirst_inbox (c : PortCommand) (s : State) : (presentFirst c s).inbox = c :: s.inbox := rfl
@[simp] theorem presentFirst_outbox (c : PortCommand) (s : State) : (presentFirst c s).outbox = s.outbox := rfl
@[simp] theorem presentFirst_freeDraws (c : PortCommand) (s : State) :
    (presentFirst c s).freeDraws = s.freeDraws := rfl

@[simp] theorem create_table (inst : Instance) : (State.create inst).table = [] := rfl
@[simp] theorem create_inst (inst : Instance) : (State.create inst).inst = inst := rfl
@[simp] theorem create_inbox (inst : Instance) : (State.create inst).inbox = [] := rfl
@[simp] theorem create_outbox (inst : Instance) : (State.create inst).outbox = [] := rfl
@[simp] theorem create_freeDraws (inst : Instance) : (State.create inst).freeDraws = 0 := rfl

@[simp] theorem replyOk_status (r : Result) : (replyOk r).status = .ok := rfl
@[simp] theorem replyOk_result (r : Result) : (replyOk r).result = r := rfl
@[simp] theorem replyOk_info (r : Result) : (replyOk r).info = .none := rfl
@[simp] theorem raise_status (e : Code) (x : Info) : (raise e x).status = e := rfl
@[simp] theorem raise_result (e : Code) (x : Info) : (raise e x).result = .none := rfl
@[simp] theorem raise_info (e : Code) (x : Info) : (raise e x).info = x := rfl

/-- What responding does to the state outside the table: one response, the same parameters and waiting commands. -/
theorem respond_answered (s : State) (ev : List Event) (r : Reply) :
    Answered s (respond s ev r) ⟨r.status, ev, r.result, r.info⟩ := ⟨rfl, rfl, rfl⟩

/-- With no command presented there is none to take. -/
theorem takeCommand_empty {s : State} (h : s.inbox = []) : takeCommand s = none := by
  simp [takeCommand, h]

/-- The oldest command presented is taken. -/
theorem takeCommand_next {s : State} {c : PortCommand} {rest : List PortCommand} (h : s.inbox = c :: rest) :
    takeCommand s = some (c, { s with inbox := rest }) := by
  simp [takeCommand, h]

end Sys2Proof.Machine
end

