-- ==== Sys2Proof/Laws/Signal.lean ====
section
/-! SUPPORT. The SPN Decode Engine, said once: the bits of a raw value, the three outcomes of a signal decode, and the conversion with
its free value. -/

namespace Sys2Proof.Machine

/-- A raw value of `len` bits is below `2^len` (R92). -/
theorem rawSum_lt (pay : List Byte) (b0 len : Nat) : rawSum pay b0 len < 2 ^ len := by
  induction len with
  | zero => simp [rawSum]
  | succ n ih =>
    rw [rawSum, Nat.shiftLeft_eq, Nat.pow_succ]
    cases payloadBit pay (b0 + n) <;> simp <;> omega

/-- Bit `k` of a raw value is bit `b0 + k` of the payload (R91). -/
theorem rawSum_testBit (pay : List Byte) (b0 len k : Nat) :
    (rawSum pay b0 len).testBit k = (decide (k < len) && payloadBit pay (b0 + k)) := by
  induction len with
  | zero => simp [rawSum]
  | succ n ih =>
    have e : rawSum pay b0 (n + 1) = 2 ^ n * (payloadBit pay (b0 + n)).toNat + rawSum pay b0 n := by
      rw [rawSum, Nat.shiftLeft_eq, Nat.mul_comm, Nat.add_comm]
    rw [e, Nat.testBit_two_pow_mul_add _ (rawSum_lt pay b0 n), ih]
    rcases lt_trichotomy k n with h | rfl | h
    · simp [h, show k < n + 1 by omega]
    · cases payloadBit pay (b0 + k) <;> simp
    · obtain ⟨j, hj⟩ := Nat.exists_eq_succ_of_ne_zero (show k - n ≠ 0 by omega)
      rw [if_neg (by omega), hj]
      cases payloadBit pay (b0 + n) <;> simp [show ¬k < n + 1 by omega, Nat.testBit_succ]

/-- A bit of a field of at most 32 bits (R91, R92). -/
theorem rawField_getLsbD (pay : List Byte) (b0 len k : Nat) (h : len ≤ 32) :
    (rawField pay b0 len).getLsbD k = (decide (k < len) && payloadBit pay (b0 + k)) := by
  rw [rawField, BitVec.getLsbD_ofNat, rawSum_testBit]
  by_cases hk : k < len
  · simp [hk, show k < 32 by omega]
  · simp [hk]

/-- A payload bit that lies inside the payload (R31). -/
theorem payloadBit_eq {pay : List Byte} {k : Nat} {b : Byte} (h : pay[k / 8]? = some b) :
    payloadBit pay k = b.getLsbD (k % 8) := by
  rw [payloadBit, memRead, Nat.shiftRight_eq_div_pow, show k &&& 7 = k % 8 from Nat.and_two_pow_sub_one_eq_mod k 3, h]
  rfl

/-- The definition check in numbers (R89). -/
theorem defMalformed_iff (d : SpnDef) :
    defMalformed d = true ↔ d.bitLength.toNat < 1 ∨ d.bitLength.toNat > 32 ∨ d.startBit.toNat > 7 := by
  simp only [defMalformed, Bool.or_eq_true, decide_eq_true_eq, or_assoc]

/-- A malformed definition (R89). -/
theorem decodeSignal_malformed {inst : Instance} {k : Nat} {pay : List Byte} {d : SpnDef} (h : defMalformed d = true) :
    decodeSignal inst k pay d = .err .malformedDefinition d.spnId := by
  rw [decodeSignal, if_pos h]

/-- A payload too short for its field (R90). -/
theorem decodeSignal_short {inst : Instance} {k : Nat} {pay : List Byte} {d : SpnDef} (h : defMalformed d = false)
    (h' : fieldStart d + d.bitLength.toNat > 8 * pay.length) :
    decodeSignal inst k pay d = .err .payloadTooShort d.spnId := by
  rw [decodeSignal, if_neg (by rw [h]; exact Bool.false_ne_true), if_pos h']

/-- Otherwise a signal (R97). -/
theorem decodeSignal_ok {inst : Instance} {k : Nat} {pay : List Byte} {d : SpnDef} (h : defMalformed d = false)
    (h' : ¬fieldStart d + d.bitLength.toNat > 8 * pay.length) : ∃ sig : DecodedSignal,
      decodeSignal inst k pay d = .ok sig ∧ sig.spnId = d.spnId ∧ sig.unit = d.unit ∧
      sig.raw = rawField pay (fieldStart d) d.bitLength.toNat ∧
      sig.cls = sentinel inst.sentinels d.bitLength.toNat sig.raw ∧
      sig.value = if sig.cls = .value then physicalValue k sig.raw d.resolution d.offset else 0#64 := by
  rw [decodeSignal, if_neg (by rw [h]; exact Bool.false_ne_true), if_neg h']
  exact ⟨_, rfl, rfl, rfl, rfl, rfl, rfl⟩

/-- The conversion when it gives a value (R95). -/
theorem physicalValue_some {k : Nat} {raw : Word} {resolution offset p v : F64}
    (h : f64Mul (u32ToF64 raw) resolution = some p) (h' : f64Add p offset = some v) :
    physicalValue k raw resolution offset = v := by
  rw [physicalValue, h, Option.bind_some, h', Option.getD_some]

/-- The conversion when it gives a NaN: the k-th free value (R96). -/
theorem physicalValue_none {k : Nat} {raw : Word} {resolution offset : F64}
    (h : (f64Mul (u32ToF64 raw) resolution).bind (f64Add · offset) = none) :
    physicalValue k raw resolution offset = nanBits (Config.freeNan k) := by
  rw [physicalValue, h, Option.getD_none]

/-- A packed pattern as a number. -/
theorem f64Pack_toNat (neg : Bool) {mag : Nat} (h : mag < 2 ^ 63) :
    (f64Pack neg mag).toNat = neg.toNat * 2 ^ 63 + mag := by
  rw [f64Pack, BitVec.toNat_append, ← Nat.shiftLeft_add_eq_or_of_lt (BitVec.isLt _), Nat.shiftLeft_eq,
    BitVec.toNat_ofBool, BitVec.toNat_ofNat, Nat.mod_eq_of_lt h]

/-- A pattern's fields as numbers (R11). -/
theorem f64Expo_eq (a : F64) : f64Expo a = a.toNat / 2 ^ 52 % 2 ^ 11 := by
  rw [f64Expo, BitVec.extractLsb'_toNat, Nat.shiftRight_eq_div_pow]

theorem f64Frac_eq (a : F64) : f64Frac a = a.toNat % 2 ^ 52 := by
  rw [f64Frac, BitVec.extractLsb'_toNat, Nat.shiftRight_eq_div_pow, Nat.pow_zero, Nat.div_one]

/-- Every free value is a NaN. -/
theorem f64IsNan_nanBits (x : Bool × Fin 4503599627370495) : f64IsNan (nanBits x) = true := by
  have hx := x.2.isLt
  have e : (nanBits x).toNat = x.1.toNat * 2 ^ 63 + (2047 * 2 ^ 52 + x.2.val + 1) :=
    f64Pack_toNat _ (by rw [f64InfMag]; omega)
  rw [f64IsNan, Bool.and_eq_true, beq_iff_eq, bne_iff_ne, f64Expo_eq, f64Frac_eq, e]
  constructor <;> cases x.1 <;> simp only [Bool.toNat_true, Bool.toNat_false] <;> omega

end Sys2Proof.Machine
end

