-- ==== Sys2Proof/Laws/Float.lean ====
section
/-! SUPPORT. The rounding of a magnitude (R11): what a magnitude field stands for, that rounding goes to a nearest multiple of its
unit, and that no finite binary64 lies nearer. -/

namespace Sys2Proof.Machine

/-- The units of a finite magnitude field. -/
def magUnits (m : Nat) : Nat := if m < 2 ^ 52 then m else (2 ^ 52 + m % 2 ^ 52) * 2 ^ (m / 2 ^ 52 - 1)

/-- The units of a pattern are those of its low 63 bits. -/
theorem f64Units_eq (a : F64) : f64Units a = magUnits (a.toNat % 2 ^ 63) := by
  rw [f64Units, magUnits, f64Expo_eq, f64Frac_eq, Nat.shiftLeft_eq]
  by_cases h : a.toNat % 2 ^ 63 < 2 ^ 52
  · rw [if_pos (by omega), if_pos h]; omega
  · rw [if_neg (by omega), if_neg h]
    congr 2 <;> omega

/-- An exponent and a significand put together; a carry out of the significand moves into the exponent. -/
theorem magUnits_shift (e q : Nat) (hq : q ≤ 2 ^ 53) (he : e = 0 ∨ 2 ^ 52 ≤ q) :
    magUnits (e * 2 ^ 52 + q) = q * 2 ^ e := by
  rw [magUnits]
  rcases Nat.lt_or_ge q (2 ^ 52) with h | h
  · have : e = 0 := by omega
    subst this
    rw [if_pos (by omega)]; omega
  · rw [if_neg (by omega)]
    rcases Nat.lt_or_ge q (2 ^ 53) with h2 | h2
    · rw [show (e * 2 ^ 52 + q) % 2 ^ 52 = q - 2 ^ 52 by omega, show (e * 2 ^ 52 + q) / 2 ^ 52 - 1 = e by omega]
      rw [Nat.add_sub_cancel' h]
    · rw [show (e * 2 ^ 52 + q) % 2 ^ 52 = 0 by omega, show (e * 2 ^ 52 + q) / 2 ^ 52 - 1 = e + 1 by omega, Nat.pow_succ]
      have : q = 2 * 2 ^ 52 := by omega
      rw [this]
      omega

theorem log2_bounds (n : Nat) (h : n ≠ 0) : 2 ^ n.log2 ≤ n ∧ n < 2 ^ (n.log2 + 1) :=
  ⟨Nat.log2_self_le h, Nat.lt_log2_self⟩

/-- Rounding goes down or up, and never by more than half a unit. -/
theorem roundShift_cases (n sh : Nat) :
    (roundShift n sh = n / 2 ^ sh ∧ 2 * (n % 2 ^ sh) ≤ 2 ^ sh) ∨
    (roundShift n sh = n / 2 ^ sh + 1 ∧ 2 ^ sh ≤ 2 * (n % 2 ^ sh)) := by
  rw [roundShift, Nat.shiftRight_eq_div_pow]
  split
  · right; exact ⟨rfl, by omega⟩
  · left; exact ⟨rfl, by omega⟩

/-- What rounding leaves out of `n`: fewer than 53 bits stay, and 52 of them unless the exponent is the least. -/
theorem roundBits_bounds (n sub : Nat) :
    n < 2 ^ 53 * 2 ^ roundBits n sub ∧ (roundBits n sub = sub ∨ 2 ^ 52 * 2 ^ roundBits n sub ≤ n) := by
  rcases Nat.eq_zero_or_pos n with rfl | hn
  · refine ⟨by positivity, ?_⟩
    left; simp [roundBits]
  · have hl := log2_bounds n (by omega)
    constructor
    · refine lt_of_lt_of_le hl.2 ?_
      rw [← Nat.pow_add]
      exact Nat.pow_le_pow_right (by decide) (by rw [roundBits]; omega)
    · rcases Nat.lt_or_ge sub (n.log2 + 1 - 53) with h | h
      · right
        refine le_trans ?_ hl.1
        rw [← Nat.pow_add]
        exact Nat.pow_le_pow_right (by decide) (by rw [roundBits]; omega)
      · left; rw [roundBits]; omega

/-- The rounded significand fits, and is normal unless the exponent is the least. -/
theorem roundShift_bounds (n sub : Nat) : roundShift n (roundBits n sub) ≤ 2 ^ 53 ∧
    (roundBits n sub = sub ∨ 2 ^ 52 ≤ roundShift n (roundBits n sub)) := by
  have hb := roundBits_bounds n sub
  have hp : 0 < 2 ^ roundBits n sub := by positivity
  have h1 : n / 2 ^ roundBits n sub < 2 ^ 53 := Nat.div_lt_of_lt_mul (by rw [Nat.mul_comm]; exact hb.1)
  constructor
  · rcases roundShift_cases n (roundBits n sub) with ⟨h, -⟩ | ⟨h, -⟩ <;> omega
  · rcases hb.2 with h | h
    · exact .inl h
    · right
      have := (Nat.le_div_iff_mul_le hp).2 h
      rcases roundShift_cases n (roundBits n sub) with ⟨h, -⟩ | ⟨h, -⟩ <;> omega

theorem sub_le_roundBits (n sub : Nat) : sub ≤ roundBits n sub := Nat.le_max_left _ _

/-- The units of a rounded magnitude that does not overflow. -/
theorem magUnits_roundMag (n sub : Nat) (h : roundMag n sub < f64InfMag) :
    magUnits (roundMag n sub) * 2 ^ sub = roundShift n (roundBits n sub) * 2 ^ roundBits n sub := by
  have hr : roundMag n sub = (roundBits n sub - sub) * 2 ^ 52 + roundShift n (roundBits n sub) := by
    rw [roundMag] at h ⊢; omega
  have hb := roundShift_bounds n sub
  have hs := sub_le_roundBits n sub
  rw [hr, magUnits_shift _ _ hb.1 (by omega), Nat.mul_assoc, ← Nat.pow_add, Nat.sub_add_cancel hs]

/-- No multiple of the rounding unit lies nearer. -/
theorem roundShift_nearest (n sh k : Nat) :
    ((roundShift n sh * 2 ^ sh : Nat) - n : Int).natAbs ≤ ((k * 2 ^ sh : Nat) - n : Int).natAbs := by
  have hd := Nat.div_add_mod n (2 ^ sh)
  have hm := Nat.mod_lt n (show 0 < 2 ^ sh by positivity)
  generalize n % 2 ^ sh = r at *
  generalize hq : n / 2 ^ sh = q at *
  have hk : k ≤ q ∨ q + 1 ≤ k := by omega
  have hk' : k * 2 ^ sh ≤ q * 2 ^ sh ∨ q * 2 ^ sh + 2 ^ sh ≤ k * 2 ^ sh := by
    rcases hk with h | h
    · exact .inl (Nat.mul_le_mul_right _ h)
    · exact .inr (by have := Nat.mul_le_mul_right (2 ^ sh) h; rw [Nat.add_mul] at this; omega)
  have hc := roundShift_cases n sh
  rw [hq] at hc
  have hd' : q * 2 ^ sh + r = n := by rw [Nat.mul_comm]; exact hd
  have hr : n % 2 ^ sh = r := by
    rw [← hd', Nat.add_comm, Nat.add_mul_mod_self_right, Nat.mod_eq_of_lt hm]
  rw [hr] at hc
  rcases hc with ⟨h1, h2⟩ | ⟨h1, h2⟩ <;> rw [h1]
  · omega
  · rw [Nat.add_mul]; omega

/-- Every finite magnitude is a significand below `2 ^ 53` times a power of two. -/
theorem magUnits_form (m : Nat) : ∃ c e, c < 2 ^ 53 ∧ magUnits m = c * 2 ^ e := by
  rw [magUnits]
  split
  · exact ⟨m, 0, by omega, by omega⟩
  · exact ⟨_, _, by omega, rfl⟩

/-- No magnitude lies nearer to the exact one than its rounding. -/
theorem roundMag_nearest (n sub m : Nat) (h : roundMag n sub < f64InfMag) :
    ((magUnits (roundMag n sub) * 2 ^ sub : Nat) - n : Int).natAbs ≤ ((magUnits m * 2 ^ sub : Nat) - n : Int).natAbs := by
  rw [magUnits_roundMag n sub h]
  obtain ⟨c, e, hc, hm⟩ := magUnits_form m
  rw [hm, Nat.mul_assoc, ← Nat.pow_add]
  rcases Nat.lt_or_ge (e + sub) (roundBits n sub) with he | he
  · -- below the rounding unit
    have hs : sub < roundBits n sub := by omega
    have hn := (roundBits_bounds n sub).2.resolve_left (by omega)
    have hlt : c * 2 ^ (e+sub) ≤ 2 ^ 52 * 2 ^ roundBits n sub := by
      calc c * 2 ^ (e+sub) ≤ 2 ^ 53 * 2 ^ (e+sub) := Nat.mul_le_mul_right _ (by omega)
        _ = 2 ^ 52 * 2 ^ (e+sub+1) := by rw [Nat.pow_succ 2 (e+sub)]; omega
        _ ≤ _ := Nat.mul_le_mul_left _ (Nat.pow_le_pow_right (by decide) he)
    have := roundShift_nearest n (roundBits n sub) (2 ^ 52)
    omega
  · have := roundShift_nearest n (roundBits n sub) (c * 2 ^ (e + sub - roundBits n sub))
    rwa [Nat.mul_assoc, ← Nat.pow_add, Nat.sub_add_cancel he] at this

theorem roundMag_le (n sub) : roundMag n sub ≤ f64InfMag := Nat.min_le_right _ _

theorem f64InfMag_lt : f64InfMag < 2 ^ 63 := by rw [f64InfMag]; omega

/-- The significand carries out of 53 bits from half a unit below `2^53` on: there the tie goes up, `2^53 - 1` being odd. -/
theorem roundShift_carry {n sh : Nat} (h : n < 2 ^ 53 * 2 ^ sh) :
    roundShift n sh < 2 ^ 53 ↔ 2 * n < (2 ^ 54 - 1) * 2 ^ sh := by
  have hd := Nat.div_add_mod n (2 ^ sh)
  have hm := Nat.mod_lt n (show 0 < 2 ^ sh by positivity)
  have h1 : n / 2 ^ sh < 2 ^ 53 := Nat.div_lt_of_lt_mul (by rwa [Nat.mul_comm])
  rw [roundShift, Nat.shiftRight_eq_div_pow]
  generalize n % 2 ^ sh = r at *
  generalize n / 2 ^ sh = d at *
  generalize 2 ^ sh = P at *
  rcases Nat.lt_or_ge d (2 ^ 53 - 1) with h2 | h2
  · have := Nat.mul_le_mul_left P (show d ≤ 2 ^ 53 - 2 by omega)
    constructor
    · intro _; omega
    · intro _; split <;> omega
  · have : d = 2 ^ 53 - 1 := by omega
    subst this
    split <;> omega

/-- The exact magnitude from which rounding overflows: half a unit below the first magnitude past the greatest finite one. -/
theorem roundMag_finite_iff (n sub : Nat) :
    roundMag n sub < f64InfMag ↔ n < (2 ^ 2098 - 2 ^ 2044) * 2 ^ sub := by
  have hb := roundBits_bounds n sub
  have hq := roundShift_bounds n sub
  have hs := sub_le_roundBits n sub
  have hc := roundShift_carry hb.1
  have hm : roundMag n sub < f64InfMag ↔
      (roundBits n sub - sub) * 2 ^ 52 + roundShift n (roundBits n sub) < 2047 * 2 ^ 52 := by
    rw [roundMag, f64InfMag]; omega
  rw [hm]
  generalize hB : 2 ^ 2098 - 2 ^ 2044 = B
  have e1 : 2 ^ 2098 = 2 ^ 54 * 2 ^ 2044 := by rw [← Nat.pow_add]
  have e2 : 2 ^ 2097 = 2 ^ 53 * 2 ^ 2044 := by rw [← Nat.pow_add]
  have e3 : 2 ^ 2045 = 2 ^ 1 * 2 ^ 2044 := by rw [← Nat.pow_add]
  have hB1 : 2 ^ 2097 ≤ B := by omega
  have hB2 : 2 * B = (2 ^ 54 - 1) * 2 ^ 2045 := by omega
  have hB3 : B ≤ 2 ^ 2098 := by omega
  generalize hR : roundBits n sub = R at *
  obtain ⟨e, rfl⟩ : ∃ e, R = e + sub := ⟨R - sub, by omega⟩
  rw [Nat.add_sub_cancel] at *
  rw [Nat.pow_add, ← Nat.mul_assoc, ← Nat.mul_assoc] at hb
  rw [Nat.pow_add, ← Nat.mul_assoc] at hc
  have hS : 0 < 2 ^ sub := by positivity
  rcases lt_trichotomy e 2045 with h | rfl | h
  · have h3 : ∀ k, 53 + e ≤ k → 2 ^ 53 * 2 ^ e ≤ 2 ^ k := fun k hk => by
      rw [← Nat.pow_add]; exact Nat.pow_le_pow_right (by decide) hk
    have h4 := Nat.mul_le_mul_right (2 ^ sub) ((h3 2097 (by omega)).trans hB1)
    refine ⟨fun _ => by omega, fun _ => by omega⟩
  · have h5 : 2 * (B * 2 ^ sub) = (2 ^ 54 - 1) * 2 ^ 2045 * 2 ^ sub := by rw [← hB2, Nat.mul_assoc]
    constructor
    · intro _
      have := hc.1 (by omega)
      omega
    · intro _
      have := hc.2 (by omega)
      omega
  · have h3 : ∀ k, k ≤ 52 + e → 2 ^ k ≤ 2 ^ 52 * 2 ^ e := fun k hk => by
      rw [← Nat.pow_add]; exact Nat.pow_le_pow_right (by decide) hk
    have h4 := Nat.mul_le_mul_right (2 ^ sub) (hB3.trans (h3 2098 (by omega)))
    have h5 : 2 ^ 52 * 2 ^ e * 2 ^ sub ≤ n := hb.2.resolve_left (by omega)
    have h6 := hq.2.resolve_left (by omega)
    refine ⟨fun _ => by omega, fun _ => by omega⟩

/-- A multiple of the rounding unit that lies as near, and is another one, makes the rounded one even. -/
theorem roundShift_tie {n sh k : Nat} (hk : k ≠ roundShift n sh)
    (h : ((roundShift n sh * 2 ^ sh : Nat) - n : Int).natAbs = ((k * 2 ^ sh : Nat) - n : Int).natAbs) :
    roundShift n sh % 2 = 0 := by
  have hd := Nat.div_add_mod n (2 ^ sh)
  have hm := Nat.mod_lt n (show 0 < 2 ^ sh by positivity)
  rw [roundShift, Nat.shiftRight_eq_div_pow] at *
  generalize n % 2 ^ sh = r at *
  generalize n / 2 ^ sh = q at *
  generalize 2 ^ sh = P at *
  have hk' : k * P + P ≤ q * P ∨ k = q ∨ k = q + 1 ∨ q * P + 2 * P ≤ k * P := by
    rcases lt_trichotomy k q with h1 | h1 | h1
    · have := Nat.mul_le_mul_right P h1; rw [Nat.succ_mul] at this; exact .inl this
    · exact .inr (.inl h1)
    · rcases Nat.lt_or_ge (q + 1) k with h2 | h2
      · have := Nat.mul_le_mul_right P h2; rw [Nat.succ_mul, Nat.succ_mul] at this
        exact .inr (.inr (.inr (by omega)))
      · exact .inr (.inr (.inl (by omega)))
  rw [Nat.mul_comm] at hd
  split at hk <;> rename_i hc
  · rw [if_pos hc, Nat.succ_mul] at *
    rcases hk' with h1 | rfl | rfl | h1 <;> omega
  · rw [if_neg hc] at *
    rcases hk' with h1 | rfl | rfl | h1
    · omega
    · omega
    · rw [Nat.succ_mul] at h; omega
    · omega

/-- Where another magnitude lies as near as a rounded one, the rounded one is even: ties go to even (R11). -/
theorem roundMag_tie {n sub m : Nat} (h : roundMag n sub < f64InfMag) (hm : magUnits m ≠ magUnits (roundMag n sub))
    (he : ((magUnits (roundMag n sub) * 2 ^ sub : Nat) - n : Int).natAbs = ((magUnits m * 2 ^ sub : Nat) - n : Int).natAbs) :
    roundMag n sub % 2 = 0 := by
  have hr : roundMag n sub = (roundBits n sub - sub) * 2 ^ 52 + roundShift n (roundBits n sub) := by
    rw [roundMag] at h ⊢; omega
  have hne : magUnits m * 2 ^ sub ≠ magUnits (roundMag n sub) * 2 ^ sub :=
    fun h => hm (Nat.eq_of_mul_eq_mul_right (by positivity) h)
  rw [magUnits_roundMag n sub h] at he hne
  obtain ⟨c, e, hc, hf⟩ := magUnits_form m
  rw [hf, Nat.mul_assoc, ← Nat.pow_add] at he hne
  rcases Nat.lt_or_ge (e + sub) (roundBits n sub) with h1 | h1
  · exfalso
    have hn := (roundBits_bounds n sub).2.resolve_left (by omega)
    have hlt : c * 2 ^ (e + sub) < 2 ^ 52 * 2 ^ roundBits n sub := by
      calc c * 2 ^ (e + sub) < 2 ^ 53 * 2 ^ (e + sub) := Nat.mul_lt_mul_of_pos_right hc (by positivity)
        _ = 2 ^ 52 * 2 ^ (e + sub + 1) := by rw [Nat.pow_succ 2 (e + sub)]; omega
        _ ≤ _ := Nat.mul_le_mul_left _ (Nat.pow_le_pow_right (by decide) h1)
    have := roundShift_nearest n (roundBits n sub) (2 ^ 52)
    omega
  · rw [← Nat.sub_add_cancel h1, Nat.pow_add, ← Nat.mul_assoc] at he hne
    have := roundShift_tie (fun h => hne (by rw [h])) he
    omega

/-- A rounded pattern as a number. -/
theorem f64Pack_roundMag (neg n sub) : (f64Pack neg (roundMag n sub)).toNat = neg.toNat * 2 ^ 63 + roundMag n sub :=
  f64Pack_toNat _ (lt_of_le_of_lt (roundMag_le _ _) f64InfMag_lt)

theorem mag_pack (neg n sub) : (f64Pack neg (roundMag n sub)).toNat % 2 ^ 63 = roundMag n sub := by
  have := roundMag_le n sub
  have := f64InfMag_lt
  rw [f64Pack_roundMag]; omega

/-- The pattern of infinity. -/
theorem f64Pack_inf (neg : Bool) : f64Expo (f64Pack neg f64InfMag) = 2047 ∧ f64Frac (f64Pack neg f64InfMag) = 0 := by
  rw [f64Expo_eq, f64Frac_eq, f64Pack_toNat _ f64InfMag_lt, f64InfMag]
  cases neg <;> simp only [Bool.toNat_true, Bool.toNat_false] <;> omega

/-- A rounded pattern is finite exactly when it has not overflowed. -/
theorem finite_pack_iff (neg n sub) : f64Expo (f64Pack neg (roundMag n sub)) ≠ 2047 ↔ roundMag n sub < f64InfMag := by
  constructor
  · intro h
    rcases Nat.lt_or_ge (roundMag n sub) f64InfMag with h2 | h2
    · exact h2
    · rw [Nat.le_antisymm (roundMag_le n sub) h2] at h
      exact absurd (f64Pack_inf neg).1 h
  · intro h
    have h' := h
    rw [f64InfMag] at h'
    rw [f64Expo_eq, f64Pack_roundMag]
    cases neg <;> simp only [Bool.toNat_true, Bool.toNat_false] <;> omega

/-- A rounded pattern that overflows is infinity. -/
theorem f64Pack_overflow (neg n sub) (h : ¬roundMag n sub < f64InfMag) :
    f64Pack neg (roundMag n sub) = f64Pack neg f64InfMag := by
  rw [Nat.le_antisymm (roundMag_le n sub) (Nat.le_of_not_lt h)]

/-- The fraction of a rounded pattern is the low part of its magnitude field. -/
theorem f64Frac_pack (neg n sub) : f64Frac (f64Pack neg (roundMag n sub)) = roundMag n sub % 2 ^ 52 := by
  rw [f64Frac_eq, f64Pack_roundMag]
  omega

theorem not_special {a : F64} (h : f64Expo a ≠ 2047) : f64IsNan a = false ∧ f64IsInf a = false := by
  simp [f64IsNan, f64IsInf, h]

/-- The product of finite operands is their rounded exact product (R11). -/
theorem f64Mul_finite {a b : F64} (ha : f64Expo a ≠ 2047) (hb : f64Expo b ≠ 2047) :
    f64Mul a b = some (f64Pack (f64Sign a != f64Sign b) (roundMag (f64Units a * f64Units b) 1074)) := by
  simp [f64Mul, not_special ha, not_special hb]

/-- The sum of finite operands is their rounded exact sum, or a zero (R11). -/
theorem f64Add_finite {a b : F64} (ha : f64Expo a ≠ 2047) (hb : f64Expo b ≠ 2047) :
    f64Add a b = if f64Int a + f64Int b = 0 then some (f64Pack (f64Sign a && f64Sign b) 0)
      else some (f64Pack (decide (f64Int a + f64Int b < 0)) (roundMag (f64Int a + f64Int b).natAbs 0)) := by
  simp [f64Add, not_special ha, not_special hb]

/-- The sign of a packed pattern. -/
theorem f64Sign_pack (neg) {mag} (h : mag < 2 ^ 63) : f64Sign (f64Pack neg mag) = neg := by
  rw [f64Sign, BitVec.getLsbD, f64Pack_toNat _ h, Nat.testBit_eq_decide_div_mod_eq]
  cases neg <;> simp only [Bool.toNat_true, Bool.toNat_false, decide_eq_true_eq, decide_eq_false_iff_not] <;> omega

end Sys2Proof.Machine
end

