-- ==== Sys2Proof/Laws/Map.lean ====
section
/-! SUPPORT. Finite maps: reading after writing, and that every operation keeps the canonical form. -/

namespace Sys2Proof.Machine

variable {α : Type}

@[simp] theorem mapGet_nil (k : Nat) : mapGet k ([] : NatMap α) = none := rfl

theorem mapGet_cons (k : Nat) (p : Nat × α) (m : NatMap α) :
    mapGet k (p :: m) = if p.1 = k then some p.2 else mapGet k m := rfl

/-- A read after a write to the same key gives the value written; any other key reads as before. -/
theorem mapGet_mapSet (k k' : Nat) (v : α) (m : NatMap α) :
    mapGet k' (mapSet k v m) = if k = k' then some v else mapGet k' m := by
  induction m with
  | nil => simp [mapSet, mapGet_cons]
  | cons p m ih =>
    simp only [mapSet]
    split
    · simp [mapGet_cons]
    · split
      · rename_i h1 h2
        simp only [mapGet_cons, ← h2]
        split <;> simp_all
      · rename_i h1 h2
        simp only [mapGet_cons, ih]
        by_cases h3 : p.1 = k'
        · have : k ≠ k' := fun h => h2 (h3.trans h.symm)
          simp [h3, this]
        · simp [h3]

/-- A removed key reads as absent; any other key reads as before. -/
theorem mapGet_mapErase (k k' : Nat) (m : NatMap α) :
    mapGet k' (mapErase k m) = if k = k' then none else mapGet k' m := by
  induction m with
  | nil => simp [mapErase]
  | cons p m ih =>
    rw [mapErase] at ih ⊢
    rw [List.filter_cons]
    by_cases hp : p.1 = k
    · simp only [hp, bne_self_eq_false, Bool.false_eq_true, if_false, ih, mapGet_cons]
      split <;> simp_all
    · simp only [bne_iff_ne, ne_eq, hp, not_false_eq_true, if_true, mapGet_cons, ih]
      by_cases h3 : p.1 = k'
      · have : k ≠ k' := fun h => hp (h3.trans h.symm)
        simp [h3, this]
      · simp [h3]

/-- What reads as a value is listed. -/
theorem mem_of_mapGet {k : Nat} {v : α} {m : NatMap α} (h : mapGet k m = some v) : (k, v) ∈ m := by
  induction m with
  | nil => simp at h
  | cons p m ih =>
    rw [mapGet_cons] at h
    split at h
    · rename_i hk
      cases h
      simp [← hk]
    · exact List.mem_cons_of_mem _ (ih h)

/-- In canonical form what is listed reads as its value. -/
theorem mapGet_of_mem {k : Nat} {v : α} {m : NatMap α} (hm : MapWf m) (h : (k, v) ∈ m) : mapGet k m = some v := by
  induction m with
  | nil => simp at h
  | cons p m ih =>
    rw [mapGet_cons]
    rw [MapWf, List.pairwise_cons] at hm
    rcases List.mem_cons.1 h with rfl | h
    · simp
    · have := hm.1 _ h
      rw [if_neg (by simp only at this; omega), ih hm.2 h]

theorem mapGet_eq_some_iff {k : Nat} {v : α} {m : NatMap α} (hm : MapWf m) :
    mapGet k m = some v ↔ (k, v) ∈ m := ⟨mem_of_mapGet, mapGet_of_mem hm⟩

/-- Filtering a map in canonical form filters what each key reads as. -/
theorem mapGet_filter (k : Nat) {m : NatMap α} (hm : MapWf m) (f : Nat × α → Bool) :
    mapGet k (m.filter f) = (mapGet k m).filter (fun v => f (k, v)) := by
  rcases h : mapGet k m with _ | v
  · rcases h' : mapGet k (m.filter f) with _ | w
    · rfl
    · have := mapGet_of_mem hm (List.mem_filter.1 (mem_of_mapGet h')).1
      simp [h] at this
  · have hv := mem_of_mapGet h
    have hf : MapWf (m.filter f) := List.Pairwise.filter _ hm
    by_cases hfv : f (k, v)
    · simp [Option.filter, hfv, mapGet_of_mem hf (List.mem_filter.2 ⟨hv, hfv⟩)]
    · rcases h' : mapGet k (m.filter f) with _ | w
      · simp [Option.filter, hfv]
      · have hw := List.mem_filter.1 (mem_of_mapGet h')
        have := mapGet_of_mem hm hw.1
        rw [h] at this
        cases this
        exact absurd hw.2 hfv

/-- What a written map lists: the written pair and pairs of other keys. -/
theorem mem_mapSet {k : Nat} {v : α} {m : NatMap α} (hm : MapWf m) {p : Nat × α} :
    p ∈ mapSet k v m ↔ p = (k, v) ∨ (p ∈ m ∧ p.1 ≠ k) := by
  induction m with
  | nil => simp [mapSet]
  | cons q m ih =>
    rw [MapWf, List.pairwise_cons] at hm
    simp only [mapSet]
    split
    · rename_i h1
      simp only [List.mem_cons]
      constructor
      · rintro (rfl | rfl | h)
        · exact .inl rfl
        · exact .inr ⟨.inl rfl, by omega⟩
        · have := hm.1 _ h
          exact .inr ⟨.inr h, by omega⟩
      · rintro (rfl | ⟨h, _⟩)
        · exact .inl rfl
        · exact .inr h
    · split
      · rename_i h1 h2
        simp only [List.mem_cons]
        constructor
        · rintro (rfl | h)
          · exact .inl rfl
          · have := hm.1 _ h
            exact .inr ⟨.inr h, by omega⟩
        · rintro (rfl | ⟨rfl | h, h3⟩)
          · exact .inl rfl
          · exact absurd h2 h3
          · exact .inr h
      · rename_i h1 h2
        simp only [List.mem_cons, ih hm.2]
        constructor
        · rintro (rfl | rfl | ⟨h, h3⟩)
          · exact .inr ⟨.inl rfl, h2⟩
          · exact .inl rfl
          · exact .inr ⟨.inr h, h3⟩
        · rintro (rfl | ⟨rfl | h, h3⟩)
          · exact .inr (.inl rfl)
          · exact .inl rfl
          · exact .inr (.inr ⟨h, h3⟩)

/-- Writing keeps the canonical form. -/
theorem mapSet_wf {k : Nat} {v : α} {m : NatMap α} (hm : MapWf m) : MapWf (mapSet k v m) := by
  induction m with
  | nil => simp [mapSet]
  | cons q m ih =>
    have hq := hm
    rw [MapWf, List.pairwise_cons] at hm
    simp only [mapSet]
    split
    · rename_i h1
      refine List.pairwise_cons.2 ⟨fun p hp => ?_, hq⟩
      rcases List.mem_cons.1 hp with rfl | hp
      · exact h1
      · have := hm.1 _ hp
        simp only
        omega
    · split
      · rename_i h1 h2
        exact List.pairwise_cons.2 ⟨fun p hp => h2 ▸ hm.1 p hp, hm.2⟩
      · rename_i h1 h2
        refine List.pairwise_cons.2 ⟨fun p hp => ?_, ih hm.2⟩
        rcases (mem_mapSet hm.2).1 hp with rfl | ⟨hp, _⟩
        · simp only
          omega
        · exact hm.1 p hp

/-- Filtering keeps the canonical form. -/
theorem filter_wf {m : NatMap α} (hm : MapWf m) (f : Nat × α → Bool) : MapWf (m.filter f) :=
  List.Pairwise.filter _ hm

/-- Removing keeps the canonical form. -/
theorem mapErase_wf {k : Nat} {m : NatMap α} (hm : MapWf m) : MapWf (mapErase k m) := filter_wf hm _

/-- Writing a present key keeps the size; writing an absent one adds one. -/
theorem mapSet_length (k : Nat) (v : α) {m : NatMap α} (hm : MapWf m) :
    (mapSet k v m).length = if (mapGet k m).isSome then m.length else m.length + 1 := by
  induction m with
  | nil => simp [mapSet]
  | cons q m ih =>
    have hq := hm
    rw [MapWf, List.pairwise_cons] at hm
    simp only [mapSet, mapGet_cons]
    split
    · rename_i h1
      have hn : mapGet k m = none := by
        rcases h : mapGet k m with _ | w
        · rfl
        · have := hm.1 _ (mem_of_mapGet h)
          simp only at this
          omega
      have hne : q.1 ≠ k := by omega
      simp [hn, hne]
    · split
      · simp
      · rw [List.length_cons, ih hm.2]
        split <;> simp

theorem mapErase_length_le (k : Nat) (m : NatMap α) : (mapErase k m).length ≤ m.length := List.length_filter_le _ _

/-- Two maps in canonical form that read alike at every key are equal. -/
theorem map_ext {m m' : NatMap α} (hm : MapWf m) (hm' : MapWf m') (h : ∀ k, mapGet k m = mapGet k m') : m = m' := by
  have hnd : ∀ {l : NatMap α}, MapWf l → l.Nodup := fun {l} hl =>
    List.Pairwise.imp (fun {a b} hab hne => by subst hne; omega) hl
  have hp : m.Perm m' := (List.perm_ext_iff_of_nodup (hnd hm) (hnd hm')).2 (fun p => by
    rw [← mapGet_eq_some_iff (k := p.1) (v := p.2) hm, ← mapGet_eq_some_iff (k := p.1) (v := p.2) hm', h])
  exact hp.eq_of_pairwise (fun a b _ _ h1 h2 => absurd (lt_trans h1 h2) (lt_irrefl _)) hm hm'

end Sys2Proof.Machine
end

