-- ==== Sys2Proof/Laws/Table.lean ====
section
/-! SUPPORT. The session table: keys, reading after writing, the sweep, and that every operation keeps the canonical form. -/

namespace Sys2Proof.Machine

theorem keyOf_lt (a b : Byte) : keyOf a b < 65536 := by
  have := a.isLt
  have := b.isLt
  simp only [keyOf]
  omega

/-- Two keys are one only when their addresses are. -/
theorem keyOf_inj {a b c d : Byte} : keyOf a b = keyOf c d ↔ a = c ∧ b = d := by
  have := b.isLt
  have := d.isLt
  simp only [keyOf, ← BitVec.toNat_inj]
  omega

@[simp] theorem keySrc_keyOf (a b : Byte) : keySrc (keyOf a b) = a := by
  have := a.isLt
  have := b.isLt
  simp only [keySrc, keyOf, ← BitVec.toNat_inj, BitVec.toNat_ofNat]
  omega

@[simp] theorem keyDst_keyOf (a b : Byte) : keyDst (keyOf a b) = b := by
  have := b.isLt
  simp only [keyDst, keyOf, ← BitVec.toNat_inj, BitVec.toNat_ofNat]
  omega

/-- The event of a key names its addresses (R132). -/
@[simp] theorem timeoutEvent_keyOf (a b : Byte) : timeoutEvent (keyOf a b) = ⟨.sessionTimeout, a, b⟩ := by
  simp [timeoutEvent]

@[simp] theorem tableGet_nil (a b : Byte) : tableGet [] a b = none := rfl

theorem tableGet_tableSet (t : Table) (src dst a b : Byte) (v : Session) :
    tableGet (tableSet t src dst v) a b = if a = src ∧ b = dst then some v else tableGet t a b := by
  simp only [tableGet, tableSet, mapGet_mapSet, keyOf_inj]
  by_cases h : a = src ∧ b = dst
  · simp [h]
  · rw [if_neg h, if_neg (fun h' => h ⟨h'.1.symm, h'.2.symm⟩)]

theorem tableGet_tableErase (t : Table) (src dst a b : Byte) :
    tableGet (tableErase t src dst) a b = if a = src ∧ b = dst then none else tableGet t a b := by
  simp only [tableGet, tableErase, mapGet_mapErase, keyOf_inj]
  by_cases h : a = src ∧ b = dst
  · simp [h]
  · rw [if_neg h, if_neg (fun h' => h ⟨h'.1.symm, h'.2.symm⟩)]

theorem tableSet_wf {t : Table} (ht : MapWf t) (src dst : Byte) (v : Session) : MapWf (tableSet t src dst v) :=
  mapSet_wf ht

theorem tableErase_wf {t : Table} (ht : MapWf t) (src dst : Byte) : MapWf (tableErase t src dst) :=
  mapErase_wf ht

theorem sweepTable_wf {t : Table} (ht : MapWf t) (inst : Instance) (now : Time) : MapWf (sweepTable inst now t) :=
  filter_wf ht _

/-- The expiry condition in numbers (R116). -/
theorem expired_iff (inst : Instance) (now : Time) (v : Session) :
    expired inst now v = true ↔ now > v.lastActivity ∧ now - v.lastActivity > window inst v := by
  simp [expired]

/-- A sweep removes the expired sessions and no other (R117). -/
theorem tableGet_sweepTable {t : Table} (ht : MapWf t) (inst : Instance) (now : Time) (a b : Byte) :
    tableGet (sweepTable inst now t) a b = (tableGet t a b).filter (fun v => !expired inst now v) :=
  mapGet_filter _ ht _

theorem mem_sweepTable {inst : Instance} {now : Time} {t : Table} {p : Nat × Session} :
    p ∈ sweepTable inst now t ↔ p ∈ t ∧ expired inst now p.2 = false := by
  simp [sweepTable]

theorem sweepTable_length_le (inst : Instance) (now : Time) (t : Table) :
    (sweepTable inst now t).length ≤ t.length := List.length_filter_le _ _

/-- A second sweep at the same time removes nothing. -/
theorem sweepTable_twice (inst : Instance) (now : Time) (t : Table) :
    sweepTable inst now (sweepTable inst now t) = sweepTable inst now t := by
  simp [sweepTable]

/-- A second sweep at the same time produces no event (R132). -/
theorem sweepEvents_twice (inst : Instance) (now : Time) (t : Table) :
    sweepEvents inst now (sweepTable inst now t) = [] := by
  simp [sweepEvents, sweepTable, List.filter_filter]

/-- Every event of a sweep is a SessionTimeout. -/
theorem sweepEvents_code {inst : Instance} {now : Time} {t : Table} {e : Event} (h : e ∈ sweepEvents inst now t) :
    e.code = .sessionTimeout := by
  simp only [sweepEvents, List.mem_map] at h
  obtain ⟨p, -, rfl⟩ := h
  rfl

@[simp] theorem sweepTable_nil (inst : Instance) (now : Time) : sweepTable inst now [] = [] := rfl
@[simp] theorem sweepEvents_nil (inst : Instance) (now : Time) : sweepEvents inst now [] = [] := rfl

/-- A table is full when it holds at least `MAX_SESSIONS` sessions, and never with `INF` (R102). -/
theorem tableFull_iff (inst : Instance) (t : Table) :
    tableFull inst t = true ↔ ∃ m, inst.maxSessions = some m ∧ m.count ≤ t.length := by
  simp only [tableFull]
  rcases inst.maxSessions with _ | m <;> simp

/-- A table without a session is never full, since `MAX_SESSIONS` is at least 1 (R7, R102). -/
@[simp] theorem tableFull_nil (inst : Instance) : tableFull inst [] = false := by
  rw [← Bool.not_eq_true, tableFull_iff]
  rintro ⟨m, -, h⟩
  exact absurd m.pos (by simpa using h)

end Sys2Proof.Machine
end

