-- ==== Sys2Proof/Laws/Frames.lean ====
section
/-! SUPPORT. What the shared operations of PROCESS_FRAME do, said once: how a frame ends, what running a frame class does, what an
announcement does, and what a data frame does. -/

namespace Sys2Proof.Machine

/-- The end of a frame writes no table, no parameter and no waiting command, and gives one response. -/
theorem finishFrame_answered (s : State) (ev : List Event) (r : FrameResult) :
    ∃ q : Reply, Answered s (finishFrame s ev r) ⟨q.status, ev, q.result, q.info⟩ ∧
      (finishFrame s ev r).table = s.table := by
  cases r with
  | nothing => exact ⟨_, respond_answered _ _ _, rfl⟩
  | raised e info => exact ⟨_, respond_answered _ _ _, rfl⟩
  | message m => exact ⟨_, ⟨rfl, rfl, rfl⟩, rfl⟩

@[simp] theorem finishFrame_table (s : State) (ev : List Event) (r : FrameResult) :
    (finishFrame s ev r).table = s.table := (finishFrame_answered s ev r).choose_spec.2

@[simp] theorem finishFrame_inst (s : State) (ev : List Event) (r : FrameResult) :
    (finishFrame s ev r).inst = s.inst := (finishFrame_answered s ev r).choose_spec.1.inst

@[simp] theorem finishFrame_inbox (s : State) (ev : List Event) (r : FrameResult) :
    (finishFrame s ev r).inbox = s.inbox := (finishFrame_answered s ev r).choose_spec.1.inbox

/-- Running a frame class always answers a next state: its table is the rule's on the swept table, and its response carries the
sweep's events. -/
theorem runFrame_next (now : Time) (rule : Table → Table × FrameResult) (s : State) :
    ∃ t q, runFrame now rule s = .next t ∧
      Answered s t ⟨Reply.status q, sweepEvents s.inst now s.table, q.result, q.info⟩ ∧
      t.table = (rule (sweepTable s.inst now s.table)).1 := by
  obtain ⟨q, hq, ht⟩ := finishFrame_answered { s with table := (rule (sweepTable s.inst now s.table)).1 }
    (sweepEvents s.inst now s.table) (rule (sweepTable s.inst now s.table)).2
  exact ⟨_, q, rfl, ⟨hq.outbox, hq.inst, hq.inbox⟩, ht⟩

/-- A frame class whose rule returns nothing answers OK with no result and draws no free value. -/
theorem runFrame_nothing {now : Time} {rule : Table → Table × FrameResult} {s : State} {t' : Table}
    (h : rule (sweepTable s.inst now s.table) = (t', .nothing)) :
    ∃ t, runFrame now rule s = .next t ∧
      Answered s t ⟨.ok, sweepEvents s.inst now s.table, .none, .none⟩ ∧ t.table = t' ∧ t.freeDraws = s.freeDraws := by
  refine ⟨_, rfl, ?_, ?_, ?_⟩ <;> simp only [h, finishFrame]
  · exact ⟨rfl, rfl, rfl⟩
  · rfl
  · rfl

/-- A frame class whose rule raises reports the status and keeps what the rule and the sweep wrote (R133). -/
theorem runFrame_raised {now : Time} {rule : Table → Table × FrameResult} {s : State} {t' : Table} {e : Code} {x : Info}
    (h : rule (sweepTable s.inst now s.table) = (t', .raised e x)) :
    ∃ t, runFrame now rule s = .next t ∧
      Answered s t ⟨e, sweepEvents s.inst now s.table, .none, x⟩ ∧ t.table = t' ∧ t.freeDraws = s.freeDraws := by
  refine ⟨_, rfl, ?_, ?_, ?_⟩ <;> simp only [h, finishFrame]
  · exact ⟨rfl, rfl, rfl⟩
  · rfl
  · rfl

/-- A frame class whose rule returns a message answers the message's decode. -/
theorem runFrame_message {now : Time} {rule : Table → Table × FrameResult} {s : State} {t' : Table} {m : Message}
    (h : rule (sweepTable s.inst now s.table) = (t', .message m)) :
    ∃ t, runFrame now rule s = .next t ∧
      Answered s t ⟨(msgDecode s.inst s.freeDraws m).status, sweepEvents s.inst now s.table,
        (msgDecode s.inst s.freeDraws m).result, (msgDecode s.inst s.freeDraws m).info⟩ ∧
      t.table = t' ∧ t.freeDraws = s.freeDraws + msgDraws s.inst m := by
  refine ⟨_, rfl, ?_, ?_, ?_⟩ <;> simp only [h, finishFrame]
  · exact ⟨rfl, rfl, rfl⟩
  · rfl
  · rfl

/-- The message decode (R123): unknown PGN under either policy, or a message with its signals. -/
theorem msgDecode_cases (inst : Instance) (k : Nat) (m : Message) :
    (dictPgn inst m.pgn = none ∧ inst.policy = .error ∧ msgDecode inst k m = raise .unknownPgn (.pgn m.pgn)) ∨
    (dictPgn inst m.pgn = none ∧ inst.policy = .passRaw ∧
      msgDecode inst k m = replyOk (.message ⟨m.pgn, m.sa, m.da, m.payload, false, []⟩)) ∨
    (∃ pd, dictPgn inst m.pgn = some pd ∧
      msgDecode inst k m =
        replyOk (.message ⟨m.pgn, m.sa, m.da, m.payload, true, decodeSignals inst m.payload k pd.spnIds⟩)) := by
  rcases h : dictPgn inst m.pgn with _ | pd
  · rcases hp : inst.policy with _ | _
    · exact .inl ⟨rfl, rfl, by simp [msgDecode, h, hp]⟩
    · exact .inr (.inl ⟨rfl, rfl, by simp [msgDecode, h, hp]⟩)
  · exact .inr (.inr ⟨pd, rfl, by simp [msgDecode, h]⟩)

@[simp] theorem decodeSignals_length (inst : Instance) (pay : List Byte) (k : Nat) (ids : List Word) :
    (decodeSignals inst pay k ids).length = ids.length := by
  induction ids generalizing k with
  | nil => rfl
  | cons id ids ih => simp [decodeSignals, ih]

/-- The j-th listed SPN has the j-th free value after `k` for its own. -/
theorem decodeSignals_getElem? (inst : Instance) (pay : List Byte) (k : Nat) (ids : List Word) (j : Nat) :
    (decodeSignals inst pay k ids)[j]? = (ids[j]?).map (fun id => (id, decodeListed inst (k + j) pay id)) := by
  induction ids generalizing k j with
  | nil => rfl
  | cons id ids ih =>
    cases j with
    | zero => rfl
    | succ j =>
      simp only [decodeSignals, List.getElem?_cons_succ, ih]
      rw [show k + 1 + j = k + (j + 1) by omega]

/-- The consistency of an announcement in numbers (R101, R10). -/
theorem consistent_iff (size : BitVec 16) (np : Byte) :
    consistent size np = true ↔ 1 ≤ size.toNat ∧ 1 ≤ np.toNat ∧
      size.toNat ≤ np.toNat * 7 ∧ np.toNat * 7 < size.toNat + 7 := by
  have h : consistent size np = true ↔ (1 ≤ size.toNat ∧ 1 ≤ np.toNat) ∧ np.toNat = ceilDiv size.toNat 7 := by
    simp only [consistent, Bool.and_eq_true, decide_eq_true_eq]
  rw [h, ceilDiv]
  omega

/-- An announcement is refused by a full table with its key absent, and stored otherwise (R102, R103). -/
theorem announce_cases (inst : Instance) (t : Table) (v : Session) :
    (tableGet t v.src v.dst = none ∧ tableFull inst t = true ∧
      announce inst t v = (t, .raised .sessionTableFull (.addresses v.src v.dst))) ∨
    ((tableGet t v.src v.dst ≠ none ∨ tableFull inst t = false) ∧
      announce inst t v = (tableSet t v.src v.dst v, .nothing)) := by
  by_cases h : tableGet t v.src v.dst = none ∧ tableFull inst t = true
  · exact .inl ⟨h.1, h.2, by rw [announce, if_pos h]⟩
  · refine .inr ⟨?_, by rw [announce, if_neg h]⟩
    by_cases h1 : tableGet t v.src v.dst = none
    · exact .inr (by simpa [h1] using h)
    · exact .inl h1

/-- A data frame: no session, a bad sequence number, a completing chunk, or a stored one (R113, R114). -/
theorem ruleDt_cases (now : Time) (sa da q : Byte) (chunk : List Byte) (t : Table) :
    (tableGet t sa da = none ∧ ruleDt now sa da q chunk t = (t, .nothing)) ∨
    (∃ v, tableGet t sa da = some v ∧ (q = 0#8 ∨ v.np.toNat < q.toNat) ∧
      ruleDt now sa da q chunk t = (tableErase t sa da, .raised .malformedTransportData (.addresses sa da))) ∨
    (∃ v, tableGet t sa da = some v ∧ ¬(q = 0#8 ∨ v.np.toNat < q.toNat) ∧
      allFilled (storeChunk now q chunk v) = true ∧
      ruleDt now sa da q chunk t = (tableErase t sa da, completed sa da (storeChunk now q chunk v))) ∨
    (∃ v, tableGet t sa da = some v ∧ ¬(q = 0#8 ∨ v.np.toNat < q.toNat) ∧
      allFilled (storeChunk now q chunk v) = false ∧
      ruleDt now sa da q chunk t = (tableSet t sa da (storeChunk now q chunk v), .nothing)) := by
  rcases h : tableGet t sa da with _ | v
  · exact .inl ⟨rfl, by simp [ruleDt, h]⟩
  · by_cases hq : q = 0#8 ∨ v.np.toNat < q.toNat
    · exact .inr (.inl ⟨v, rfl, hq, by simp only [ruleDt, h, if_pos hq]⟩)
    · by_cases hf : allFilled (storeChunk now q chunk v)
      · exact .inr (.inr (.inl ⟨v, rfl, hq, hf, by simp only [ruleDt, h, if_neg hq, if_pos hf]⟩))
      · exact .inr (.inr (.inr ⟨v, rfl, hq, by simpa using hf,
          by simp only [ruleDt, h, if_neg hq]; rw [if_neg hf]⟩))

/-- CTS and EOMA change at most the last activity of one session (R108, R109). -/
theorem tableGet_markReverse (now : Time) (sa da : Byte) (t : Table) (a b : Byte) :
    tableGet (markReverse now sa da t) a b =
      if a = da ∧ b = sa then (tableGet t da sa).map (fun v => if v.mode = .rtsCts then touch now v else v)
      else tableGet t a b := by
  simp only [markReverse]
  rcases h : tableGet t da sa with _ | v
  · by_cases hk : a = da ∧ b = sa
    · simp [hk, h]
    · simp [hk]
  · by_cases hm : v.mode = .rtsCts
    · simp only [hm, if_true, tableGet_tableSet, Option.map_some]
    · by_cases hk : a = da ∧ b = sa
      · simp [hk, h, hm]
      · simp [hk, hm]

/-- Abort removes its two keys (R110). -/
theorem tableGet_ruleAbort (sa da : Byte) (t : Table) (a b : Byte) :
    tableGet (ruleAbort sa da t).1 a b =
      if (a = sa ∧ b = da) ∨ (a = da ∧ b = sa) then none else tableGet t a b := by
  simp only [ruleAbort, tableGet_tableErase]
  by_cases h1 : a = da ∧ b = sa
  · simp [h1]
  · by_cases h2 : a = sa ∧ b = da <;> simp [h1, h2]

/-- A slot is filled when it holds a chunk. -/
theorem allFilled_iff (v : Session) :
    allFilled v = true ↔ ∀ q, 1 ≤ q → q ≤ v.np.toNat → (mapGet q v.rcv).isSome := by
  simp only [allFilled, List.all_eq_true, List.mem_range]
  constructor
  · intro h q h1 h2
    have := h (q - 1) (by omega)
    rwa [Nat.sub_add_cancel h1] at this
  · intro h i hi
    exact h (i + 1) (by omega) (by omega)

/-- The slots of a session after a chunk is stored (R113). -/
theorem mapGet_storeChunk (now : Time) (q : Byte) (chunk : List Byte) (v : Session) (k : Nat) :
    mapGet k (storeChunk now q chunk v).rcv = if q.toNat = k then some chunk else mapGet k v.rcv :=
  mapGet_mapSet _ _ _ _

/-- A TP.DT chunk has at most seven bytes (R56). -/
theorem chunkBytes_length_le (dlc : BitVec 4) (c : ChunkLanes) : (chunkBytes dlc c).length ≤ 7 := by
  simp [chunkBytes, chunkLanesList]

end Sys2Proof.Machine
end

