-- ==== Sys2Proof/Laws/Invariant.lean ====
section
/-! SUPPORT. The invariant of the session table, said of a table alone, and that each operation on a table keeps it. -/

namespace Sys2Proof.Machine

/-- The table's part of the state's invariant. -/
structure TableInv (inst : Instance) (t : Table) : Prop where
  wf       : MapWf t
  keys     : ∀ p ∈ t, p.1 = keyOf p.2.src p.2.dst
  sessions : ∀ p ∈ t, SessionInv p.2
  capacity : ∀ m, inst.maxSessions = some m → t.length ≤ m.count

theorem stateInv_iff (s : State) : StateInv s ↔ TableInv s.inst s.table :=
  ⟨fun h => ⟨h.1, h.2, h.3, h.4⟩, fun h => ⟨h.1, h.2, h.3, h.4⟩⟩

/-- The empty table meets the invariant (R28). -/
theorem tableInv_empty (inst : Instance) : TableInv inst [] :=
  ⟨List.Pairwise.nil, by simp, by simp, fun m _ => Nat.zero_le m.count⟩

/-- Removing entries keeps it: so do the sweep and every removal. -/
theorem tableInv_filter {inst : Instance} {t : Table} (h : TableInv inst t) (f : Nat × Session → Bool) :
    TableInv inst (t.filter f) where
  wf := filter_wf h.wf f
  keys p hp := h.keys p (List.mem_filter.1 hp).1
  sessions p hp := h.sessions p (List.mem_filter.1 hp).1
  capacity m hm := (List.length_filter_le _ _).trans (h.capacity m hm)

theorem tableInv_erase {inst : Instance} {t : Table} (h : TableInv inst t) (a b : Byte) :
    TableInv inst (tableErase t a b) := tableInv_filter h _

theorem tableInv_sweep {inst : Instance} {t : Table} (h : TableInv inst t) (now : Time) :
    TableInv inst (sweepTable inst now t) := tableInv_filter h _

/-- A session that the table holds meets the session invariants and stands at its own key (R20, R23). -/
theorem tableInv_get {inst : Instance} {t : Table} (h : TableInv inst t) {a b : Byte} {v : Session}
    (hv : tableGet t a b = some v) : SessionInv v ∧ v.src = a ∧ v.dst = b := by
  have hm := mem_of_mapGet hv
  have hk := keyOf_inj.1 (h.keys _ hm)
  exact ⟨h.sessions _ hm, hk.1.symm, hk.2.symm⟩

/-- Storing a session at its own key keeps it, if the key is present or the table is not full (R102). -/
theorem tableInv_set {inst : Instance} {t : Table} (h : TableInv inst t) {v : Session} (hv : SessionInv v)
    (hc : tableGet t v.src v.dst ≠ none ∨ tableFull inst t = false) : TableInv inst (tableSet t v.src v.dst v) where
  wf := tableSet_wf h.wf _ _ _
  keys p hp := by
    rcases (mem_mapSet h.wf).1 hp with rfl | ⟨hp, -⟩
    · rfl
    · exact h.keys p hp
  sessions p hp := by
    rcases (mem_mapSet h.wf).1 hp with rfl | ⟨hp, -⟩
    · exact hv
    · exact h.sessions p hp
  capacity m hm := by
    have hl := h.capacity m hm
    rw [tableSet, mapSet_length _ _ h.wf]
    split
    · exact hl
    · rename_i hn
      rcases hc with hc | hc
      · exact absurd (by simpa [tableGet] using hn) hc
      · simp only [tableFull, hm, decide_eq_false_iff_not] at hc
        omega

/-- A consistent announcement is a session that meets the session invariants (R23, R101). -/
theorem sessionInv_new {mode : Mode} {state : SessState} {src dst : Byte} {size : BitVec 16} {np : Byte}
    {pgn : BitVec 24} {now : Time} (hc : consistent size np = true) (hd : dst = 0xFF#8 ↔ mode = .bam)
    (hs : mode = .bam → state = .receiving) : SessionInv (newSession mode state src dst size np pgn now) := by
  simp only [consistent, Bool.and_eq_true, decide_eq_true_eq] at hc
  exact ⟨List.Pairwise.nil, by simp [newSession], ⟨hc.2, hc.1.1⟩, hd, by simp [newSession], le_refl _, hs⟩

/-- Marking activity keeps the session invariants (R100). -/
theorem sessionInv_touch {v : Session} (h : SessionInv v) (now : Time) : SessionInv (touch now v) :=
  ⟨h.rcvWf, h.rcvRange, h.packets, h.broadcast, h.chunkLength, h.times.trans (le_max_left _ _), h.bamReceiving⟩

/-- Storing a chunk at a sequence number in range keeps the session invariants (R113). -/
theorem sessionInv_store {now : Time} {q : Byte} {chunk : List Byte} {v : Session} (h : SessionInv v)
    (hq : ¬(q = 0#8 ∨ v.np.toNat < q.toNat)) (hl : chunk.length ≤ 7) : SessionInv (storeChunk now q chunk v) := by
  have h0 : q.toNat ≠ 0 := fun h => hq (.inl (BitVec.eq_of_toNat_eq (by simpa using h)))
  refine ⟨mapSet_wf h.rcvWf, fun p hp => ?_, h.packets, h.broadcast, fun p hp => ?_,
    h.times.trans (le_max_left _ _), fun _ => rfl⟩
  · rcases (mem_mapSet h.rcvWf).1 hp with rfl | ⟨hp, -⟩
    · simp only [storeChunk]
      omega
    · exact h.rcvRange p hp
  · rcases (mem_mapSet h.rcvWf).1 hp with rfl | ⟨hp, -⟩
    · exact hl
    · exact h.chunkLength p hp

theorem tableInv_announce {inst : Instance} {t : Table} (h : TableInv inst t) {v : Session} (hv : SessionInv v) :
    TableInv inst (announce inst t v).1 := by
  rcases announce_cases inst t v with ⟨-, -, e⟩ | ⟨hc, e⟩ <;> rw [e]
  · exact h
  · exact tableInv_set h hv hc

theorem tableInv_markReverse {inst : Instance} {t : Table} (h : TableInv inst t) (now : Time) (sa da : Byte) :
    TableInv inst (markReverse now sa da t) := by
  rw [markReverse]
  split
  · exact h
  · rename_i v hv
    obtain ⟨hi, h1, h2⟩ := tableInv_get h hv
    split
    · have := tableInv_set h (sessionInv_touch hi now) (.inl (by simp [touch, h1, h2, hv]))
      simpa [touch, h1, h2] using this
    · exact h

theorem tableInv_ruleDt {inst : Instance} {t : Table} (h : TableInv inst t) (now : Time) (sa da q : Byte)
    {chunk : List Byte} (hl : chunk.length ≤ 7) : TableInv inst (ruleDt now sa da q chunk t).1 := by
  rcases ruleDt_cases now sa da q chunk t with ⟨-, e⟩ | ⟨v, -, -, e⟩ | ⟨v, -, -, -, e⟩ | ⟨v, hv, hq, -, e⟩ <;> rw [e]
  · exact h
  · exact tableInv_erase h _ _
  · exact tableInv_erase h _ _
  · obtain ⟨hi, h1, h2⟩ := tableInv_get h hv
    have := tableInv_set h (sessionInv_store (now := now) hi hq hl) (.inl (by simp [storeChunk, h1, h2, hv]))
    simpa [storeChunk, h1, h2] using this

/-- A frame class whose rule keeps the table's invariant keeps the state's. -/
theorem runFrame_inv {now : Time} {rule : Table → Table × FrameResult} {s t : State}
    (hr : ∀ T, TableInv s.inst T → TableInv s.inst (rule T).1) (h : StateInv s) (e : runFrame now rule s = .next t) :
    StateInv t := by
  obtain ⟨t', q, h1, h2, h3⟩ := runFrame_next now rule s
  rw [e] at h1
  cases h1
  rw [stateInv_iff, h2.inst, h3]
  exact hr _ (tableInv_sweep ((stateInv_iff s).1 h) now)

end Sys2Proof.Machine
end

