-- ==== Sys2Proof/Laws/PerInstr.lean ====
section
/-! SUPPORT. Statements made of every instruction, one lemma for each constructor. -/

namespace Sys2Proof.Laws

/-- The encoding of a well-formed instruction is a command the decoder accepts (R59, R60). -/
def Encodable.Statement (i : Instr) : Prop := WellFormed i → ∃ j, decode (encode i) = .ok j

open Sys2Proof.Machine

/-- A frame class encodes as a PROCESS_FRAME, which the decoder accepts. -/
theorem encodable_of_frame {i : Instr} {now : Time} {f : Frame} (h : encode i = portFrame now f) :
    Encodable.Statement i := fun _ => ⟨_, by rw [h, decode_portFrame]⟩

theorem Encodable.processFrame (now : Time) (f : Frame) : Encodable.Statement (.processFrame now f) :=
  encodable_of_frame rfl
theorem Encodable.decodeId (id : Word) : Encodable.Statement (.decodeId id) :=
  fun _ => ⟨.decodeId id, by simp [encode, decode, portWord, bitsAt]⟩
theorem Encodable.encodeId (x : IdFields) : Encodable.Statement (.encodeId x) :=
  fun _ => ⟨.encodeId x, by simp [encode, decode, portWord, bitsAt]⟩
theorem Encodable.decodeSpn (n : BitVec 16) (p : List Byte) (d : SpnDef) : Encodable.Statement (.decodeSpn n p d) :=
  fun h => ⟨.decodeSpn n p d, by
    have hp : p.length = n.toNat := by simpa [WellFormed, wellFormed] using h
    simp [encode, decode, portWord, bitsAt, hp]⟩
theorem Encodable.tick (now : Time) : Encodable.Statement (.tick now) :=
  fun _ => ⟨.tick now, by simp [encode, decode, portWord, bitsAt]⟩
theorem Encodable.querySession (now : Time) (src dst : Byte) : Encodable.Statement (.querySession now src dst) :=
  fun _ => ⟨.querySession now src dst, by simp [encode, decode, portWord, bitsAt]⟩
theorem Encodable.reset : Encodable.Statement .reset :=
  fun _ => ⟨.reset, by simp [encode, decode, portWord, bitsAt]⟩
theorem Encodable.illegalOpcode7 : Encodable.Statement .illegalOpcode7 :=
  fun _ => ⟨.illegalOpcode7, by simp [encode, decode, portWord, bitsAt]⟩
theorem Encodable.illegalReserved (cw : Word) : Encodable.Statement (.illegalReserved cw) :=
  fun h => ⟨.illegalReserved cw, by
    have hb : bitsAt cw 3 29 ≠ 0 := by simpa [WellFormed, wellFormed] using h
    rw [decode]
    exact if_pos hb⟩
theorem Encodable.frameStandard (now : Time) (a : Word) (dlc : BitVec 4) (d : Lanes) :
    Encodable.Statement (.frameStandard now a dlc d) := encodable_of_frame rfl
theorem Encodable.frameInvalidId (now : Time) (a : Word) (dlc : BitVec 4) (d : Lanes) :
    Encodable.Statement (.frameInvalidId now a dlc d) := encodable_of_frame rfl
theorem Encodable.tpCmShort (now : Time) (h : TpHeader) (d : Lanes) : Encodable.Statement (.tpCmShort now h d) :=
  encodable_of_frame rfl
theorem Encodable.tpCmRts (now : Time) (h : TpHeader) (size : BitVec 16) (np mx : Byte) (pgn : BitVec 24) :
    Encodable.Statement (.tpCmRts now h size np mx pgn) := encodable_of_frame rfl
theorem Encodable.tpCmCts (now : Time) (h : TpHeader) (count next r3 r4 : Byte) (pgn : BitVec 24) :
    Encodable.Statement (.tpCmCts now h count next r3 r4 pgn) := encodable_of_frame rfl
theorem Encodable.tpCmEoma (now : Time) (h : TpHeader) (size : BitVec 16) (np r4 : Byte) (pgn : BitVec 24) :
    Encodable.Statement (.tpCmEoma now h size np r4 pgn) := encodable_of_frame rfl
theorem Encodable.tpCmBam (now : Time) (h : TpHeader) (size : BitVec 16) (np r4 : Byte) (pgn : BitVec 24) :
    Encodable.Statement (.tpCmBam now h size np r4 pgn) := encodable_of_frame rfl
theorem Encodable.tpCmAbort (now : Time) (h : TpHeader) (reason r2 r3 r4 : Byte) (pgn : BitVec 24) :
    Encodable.Statement (.tpCmAbort now h reason r2 r3 r4 pgn) := encodable_of_frame rfl
theorem Encodable.tpCmReserved (now : Time) (h : TpHeader) (d : Lanes) :
    Encodable.Statement (.tpCmReserved now h d) := encodable_of_frame rfl
theorem Encodable.tpDtEmpty (now : Time) (h : TpHeader) (d : Lanes) : Encodable.Statement (.tpDtEmpty now h d) :=
  encodable_of_frame rfl
theorem Encodable.tpDt (now : Time) (h : TpHeader) (q : Byte) (c : ChunkLanes) :
    Encodable.Statement (.tpDt now h q c) := encodable_of_frame rfl
theorem Encodable.frameSingle (now : Time) (x : IdFields) (dlc : BitVec 4) (d : Lanes) :
    Encodable.Statement (.frameSingle now x dlc d) := encodable_of_frame rfl

end Sys2Proof.Laws
end

