-- ==== Sys2Proof/Tests/Slice0.lean ====
section
/-! SUPPORT. The model's own tests: ill-formed terms that WellFormed refuses, every constructor decoded from a word or frame written
out from the spec's encodings, one or two steps of each instruction (the expected results are those of spec/95_test_vectors.md,
by its vector names), and for every obligation with hypotheses a witness that meets them. -/

namespace Sys2Proof.Tests

open Sys2Proof.Machine

/-! ### Fixtures -/

/-- The part of the fixture dictionary FIX (95_test_vectors.md section 1.2) that the tests use. -/
def fixInst : Instance :=
  { defaultInstance with
    dictPgn := [(0xFEE9, ⟨[], 9, [9401]⟩), (0xF004, ⟨[], 8, [9101, 9199]⟩)]
    dictSpn := [(9401, ⟨9401, 0xFEE9, 0, 0, 8, 0x3FE0000000000000, 0, [0x6C]⟩),
      (9101, ⟨9101, 0xF004, 3, 0, 16, 0x3FC0000000000000, 0, []⟩)] }

/-- An instance of FIX with the given table. -/
def stateWith (t : Table) : State := { State.create fixInst with table := t }

/-- The same with `MAX_SESSIONS = 1`. -/
def smallState (t : Table) : State := { State.create { fixInst with maxSessions := some ⟨1, by decide⟩ } with table := t }

/-- The same with `UNKNOWN_PGN_POLICY = PASS_RAW`. -/
def rawState : State := State.create { fixInst with policy := .passRaw }

/-- `TP.BAM 0 01 9 2 0x00FEE9` (TPR-12). -/
def bam1 : Session := ⟨.bam, .receiving, 1, 0xFF, 9, 2, 0x00FEE9, [], 0, 0⟩

/-- `TP.RTS 0 00 3D 10 2 0x00FECB` (TPR-9). -/
def rts1 : Session := ⟨.rtsCts, .announced, 0, 0x3D, 10, 2, 0x00FECB, [], 0, 0⟩

/-- The first chunk of TPR-21. -/
def chunk1 : List Byte := [0x10, 2, 3, 4, 5, 6, 7]

/-- A table of the broadcast session, the last slot missing. -/
def bamHalf : Session := { bam1 with rcv := [(1, chunk1)], lastActivity := 1 }

def bamTable : Table := [(511, bam1)]
def halfTable : Table := [(511, bamHalf)]
def rtsTable : Table := [(61, rts1)]
def twoTable : Table := [(61, rts1), (511, bam1)]

/-- A transport header of priority 7 and eight data bytes (R76). -/
def hdr (sa da : Byte) : TpHeader := ⟨7, sa, da, 8⟩

def zeroChunk : ChunkLanes := ⟨0, 0, 0, 0, 0, 0, 0⟩

/-- A definition of one field (DECODE_SPN vectors: spn 1). -/
def def1 (byte : BitVec 16) (bit len : Byte) (res off : F64) : SpnDef := ⟨1, 0, byte, bit, len, res, off, [0x75]⟩

def one64 : F64 := 0x3FF0000000000000

/-- The response a step gives. -/
def respOf : Host.Outcome State Fault Refusal → Option Response
  | .next t => t.outbox.getLast?
  | .fault _ => none
  | .refused _ => none

/-- The table a step leaves. -/
def tableOf : Host.Outcome State Fault Refusal → Option Table
  | .next t => some t.table
  | .fault _ => none
  | .refused _ => none

/-! ### WellFormed refuses an ill-formed term at each check -/

theorem test_ill_decodeSpn : ¬WellFormed (.decodeSpn 2 [1] (def1 0 0 8 one64 0)) := by decide
theorem test_ill_illegalReserved : ¬WellFormed (.illegalReserved 7) := by decide
theorem test_ill_frameInvalidId : ¬WellFormed (.frameInvalidId 0 0x1FFFFFFF 8 zeroLanes) := by decide
theorem test_ill_tpCmShort : ¬WellFormed (.tpCmShort 0 (hdr 1 2) zeroLanes) := by decide
theorem test_ill_tpCmRts : ¬WellFormed (.tpCmRts 0 ⟨7, 1, 2, 7⟩ 9 2 0xFF 0xFEE9) := by decide
theorem test_ill_tpCmCts : ¬WellFormed (.tpCmCts 0 ⟨7, 1, 2, 7⟩ 1 1 0xFF 0xFF 0xFEE9) := by decide
theorem test_ill_tpCmEoma : ¬WellFormed (.tpCmEoma 0 ⟨7, 1, 2, 0⟩ 9 2 0xFF 0xFEE9) := by decide
theorem test_ill_tpCmBam : ¬WellFormed (.tpCmBam 0 ⟨7, 1, 0xFF, 7⟩ 9 2 0xFF 0xFEE9) := by decide
theorem test_ill_tpCmAbort : ¬WellFormed (.tpCmAbort 0 ⟨7, 1, 2, 7⟩ 3 0xFF 0xFF 0xFF 0xFEE9) := by decide
theorem test_ill_tpCmReserved_length : ¬WellFormed (.tpCmReserved 0 ⟨7, 1, 2, 7⟩ zeroLanes) := by decide
theorem test_ill_tpCmReserved_control : ¬WellFormed (.tpCmReserved 0 (hdr 1 2) { zeroLanes with b0 := 0x13 }) := by
  decide
theorem test_ill_tpDtEmpty : ¬WellFormed (.tpDtEmpty 0 ⟨7, 1, 2, 1⟩ zeroLanes) := by decide
theorem test_ill_tpDt : ¬WellFormed (.tpDt 0 ⟨7, 1, 2, 0⟩ 1 zeroChunk) := by decide
theorem test_ill_frameSingle : ¬WellFormed (.frameSingle 0 ⟨3, 0, 0, 0xEC, 0x12, 0⟩ 8 zeroLanes) := by decide

/-! ### Decoding, from words written out from R59 and R51 to R56 -/

theorem test_decode_processFrame : decode (portWord 0b000) = .ok (.processFrame 0 zeroFrame) := by decide
theorem test_decode_decodeId : decode { portWord 0b001 with id := 5 } = .ok (.decodeId 5) := by decide
theorem test_decode_encodeId : decode { portWord 0b010 with fields := ⟨3, 0, 0, 0xF0, 4, 0⟩ } =
    .ok (.encodeId ⟨3, 0, 0, 0xF0, 4, 0⟩) := by decide
theorem test_decode_decodeSpn : decode { portWord 0b011 with n := 1, payload := [0x7D] } =
    .ok (.decodeSpn 1 [0x7D] ⟨0, 0, 0, 0, 0, 0, 0, []⟩) := by decide
theorem test_decode_decodeSpn_count : decode { portWord 0b011 with n := 2, payload := [0x7D] } =
    .error .payloadCount := by decide
theorem test_decode_tick : decode { portWord 0b100 with now := 850 } = .ok (.tick 850) := by decide
theorem test_decode_querySession : decode { portWord 0b101 with now := 15, src := 1, dst := 0xFF } =
    .ok (.querySession 15 1 0xFF) := by decide
theorem test_decode_reset : decode (portWord 0b110) = .ok .reset := by decide
theorem test_decode_opcode7 : decode (portWord 0b111) = .ok .illegalOpcode7 := by decide
theorem test_decode_reserved : decode (portWord 0x80000004) = .ok (.illegalReserved 0x80000004) := by decide
/-- DSP-9. -/
theorem test_decode_standard : decodeFrame 0 ⟨0, 0x0F0, 2, ⟨1, 2, 0, 0, 0, 0, 0, 0⟩⟩ =
    .frameStandard 0 0x0F0 2 ⟨1, 2, 0, 0, 0, 0, 0, 0⟩ := by decide
/-- DSP-10. -/
theorem test_decode_invalidId : decodeFrame 0 ⟨1, 0x2CF00400, 8, zeroLanes⟩ =
    .frameInvalidId 0 0x2CF00400 8 zeroLanes := by decide
/-- TPR-10. -/
theorem test_decode_short : decodeFrame 1 ⟨1, 0x1CECFF01, 7, ⟨0x20, 0x14, 0, 3, 0xFF, 0xCA, 0xFE, 0⟩⟩ =
    .tpCmShort 1 ⟨7, 1, 0xFF, 7⟩ ⟨0x20, 0x14, 0, 3, 0xFF, 0xCA, 0xFE, 0⟩ := by decide
/-- P2 step 1. -/
theorem test_decode_rts : decodeFrame 0 ⟨1, 0x1CEC3D00, 8, ⟨0x10, 0x0A, 0, 2, 0xFF, 0xCB, 0xFE, 0⟩⟩ =
    .tpCmRts 0 (hdr 0 0x3D) 10 2 0xFF 0x00FECB := by decide
/-- P2 step 2. -/
theorem test_decode_cts : decodeFrame 5 ⟨1, 0x1CEC003D, 8, ⟨0x11, 2, 1, 0xFF, 0xFF, 0xCB, 0xFE, 0⟩⟩ =
    .tpCmCts 5 (hdr 0x3D 0) 2 1 0xFF 0xFF 0x00FECB := by decide
/-- P2 step 9. -/
theorem test_decode_eoma : decodeFrame 50 ⟨1, 0x1CEC003D, 8, ⟨0x13, 0x0A, 0, 2, 0xFF, 0xCB, 0xFE, 0⟩⟩ =
    .tpCmEoma 50 (hdr 0x3D 0) 10 2 0xFF 0x00FECB := by decide
/-- TPR-24: all 24 bits of the PGN. -/
theorem test_decode_bam : decodeFrame 0 ⟨1, 0x1CECFF01, 8, ⟨0x20, 7, 0, 1, 0xFF, 0xE9, 0xFE, 1⟩⟩ =
    .tpCmBam 0 (hdr 1 0xFF) 7 1 0xFF 0x01FEE9 := by decide
/-- P2 step 11. -/
theorem test_decode_abort : decodeFrame 70 ⟨1, 0x1CEC003D, 8, ⟨0xFF, 1, 0xFF, 0xFF, 0xFF, 0xCB, 0xFE, 0⟩⟩ =
    .tpCmAbort 70 (hdr 0x3D 0) 1 0xFF 0xFF 0xFF 0x00FECB := by decide
/-- TPR-11. -/
theorem test_decode_cmReserved : decodeFrame 0 ⟨1, 0x1CECFF01, 8, { zeroLanes with b0 := 0x15 }⟩ =
    .tpCmReserved 0 (hdr 1 0xFF) { zeroLanes with b0 := 0x15 } := by decide
/-- TPR-17. -/
theorem test_decode_dtEmpty : decodeFrame 1 ⟨1, 0x1CEBFF01, 0, zeroLanes⟩ =
    .tpDtEmpty 1 ⟨7, 1, 0xFF, 0⟩ zeroLanes := by decide
/-- P1 step 2. -/
theorem test_decode_dt : decodeFrame 10 ⟨1, 0x1CEBFF01, 8, ⟨2, 8, 9, 0xA, 0xB, 0xC, 0xD, 0xE⟩⟩ =
    .tpDt 10 (hdr 1 0xFF) 2 ⟨8, 9, 0xA, 0xB, 0xC, 0xD, 0xE⟩ := by decide
/-- TPR-30: DP = 1 makes PF 0xEC a single-frame message. -/
theorem test_decode_single : decodeFrame 0 ⟨1, 0x1DECFF01, 8, ⟨0x20, 9, 0, 2, 0xFF, 0xE9, 0xFE, 0⟩⟩ =
    .frameSingle 0 ⟨7, 0, 1, 0xEC, 0xFF, 1⟩ 8 ⟨0x20, 9, 0, 2, 0xFF, 0xE9, 0xFE, 0⟩ := by decide

/-- P1 step 1 is TPR-1's pseudo-instruction; P1 step 5 is a TP.DT of six chunk bytes (R75, R76). -/
theorem test_assemble : assemble (.tpBam 0 1 20 3 0x00FECA) =
      portFrame 0 ⟨1, 0x1CECFF01, 8, ⟨0x20, 0x14, 0, 3, 0xFF, 0xCA, 0xFE, 0⟩⟩ ∧
    assemble (.tpDt 30 1 0xFF 3 [0x0F, 0x10, 0x11, 0x12, 0x13, 0x14]) =
      portFrame 30 ⟨1, 0x1CEBFF01, 7, ⟨3, 0x0F, 0x10, 0x11, 0x12, 0x13, 0x14, 0⟩⟩ ∧
    assemble (.processFrame 0 0x0F0 true none [1, 2]) = portFrame 0 ⟨0, 0x0F0, 2, ⟨1, 2, 0, 0, 0, 0, 0, 0⟩⟩ := by decide

/-- Log entry 19: the lanes past the eighth byte are dropped; the SPNDEF of P4 step 11's line but for its `pgn`. -/
theorem test_assemble_choices : assemble (.processFrame 0 0x18FEF100 false none [1, 2, 3, 4, 5, 6, 7, 8, 9]) =
      portFrame 0 ⟨1, 0x18FEF100, 9, ⟨1, 2, 3, 4, 5, 6, 7, 8⟩⟩ ∧
    assemble (.decodeSpn [0xF3] 9101 3 0 16 0x3FC0000000000000 0 []) =
      { portWord 3 with n := 1, payload := [0xF3], dfn := ⟨9101, 0, 3, 0, 16, 0x3FC0000000000000, 0, []⟩ } := by decide

/-! ### One step of each instruction -/

/-- IDC-5: PF 239 is PDU1. -/
theorem test_decodeId_pdu1 : respOf (exec (.decodeId 0x18EFFF05) State.reset) =
    some ⟨.ok, [], .identifier ⟨⟨6, 0, 0, 0xEF, 0xFF, 5⟩, 0, 0xFF, 0x0EF00⟩, .none⟩ := by decide
/-- IDC-9: R and DP fold into a PDU2 PGN. -/
theorem test_decodeId_pdu2 : respOf (exec (.decodeId 0x03F0FF17) State.reset) =
    some ⟨.ok, [], .identifier ⟨⟨0, 1, 1, 0xF0, 0xFF, 0x17⟩, 1, 0xFF, 0x3F0FF⟩, .none⟩ := by decide
/-- IDC-18. -/
theorem test_encodeId : respOf (exec (.encodeId ⟨2, 1, 0, 0xEF, 0x0A, 0x80⟩) State.reset) =
    some ⟨.ok, [], .word 0x0AEF0A80, .none⟩ := by decide
/-- SDE-1: the source's scaling example. -/
theorem test_decodeSpn_scaling :
    respOf (exec (.decodeSpn 1 [0x7D] (def1 0 0 8 0x3FA0000000000000 0xC071100000000000)) State.reset) =
      some ⟨.ok, [], .signal ⟨1, 0x7D, .value, 0xC070D18000000000, [0x75]⟩, .none⟩ := by decide +kernel
/-- SDE-16: the product is rounded. -/
theorem test_decodeSpn_rounding :
    respOf (exec (.decodeSpn 1 [3] (def1 0 0 8 0x3FB999999999999A 0)) State.reset) =
      some ⟨.ok, [], .signal ⟨1, 3, .value, 0x3FD3333333333334, [0x75]⟩, .none⟩ := by decide +kernel
/-- TPR-27: ascending key order. -/
theorem test_tick_order : respOf (exec (.tick 2000) (stateWith twoTable)) =
    some ⟨.ok, [⟨.sessionTimeout, 0, 0x3D⟩, ⟨.sessionTimeout, 1, 0xFF⟩], .none, .none⟩ := by decide
/-- CTL-2: an elapsed time of exactly the window is not expired. -/
theorem test_tick_window : tableOf (exec (.tick 750) (stateWith bamTable)) = some bamTable ∧
    tableOf (exec (.tick 751) (stateWith bamTable)) = some [] := by decide
/-- CTL-3, with the mask of a session that holds sequence number 1 (R127). -/
theorem test_querySession : respOf (exec (.querySession 5 1 0xFF) (stateWith halfTable)) =
    some ⟨.ok, [], .view ⟨0, 2, 1, 0xFF, 9, 2, 0x00FEE9, 2, 0, 1⟩, .none⟩ := by decide
/-- CTL-5: a query is no activity. -/
theorem test_querySession_silent : tableOf (exec (.querySession 700 1 0xFF) (stateWith bamTable)) = some bamTable := by
  decide
/-- CTL-7: RESET removes without an event. -/
theorem test_reset : tableOf (exec .reset (stateWith twoTable)) = some [] ∧
    respOf (exec .reset (stateWith twoTable)) = some ⟨.ok, [], .none, .none⟩ := by decide
/-- CTL-8. -/
theorem test_opcode7 : respOf (exec .illegalOpcode7 State.reset) = some ⟨.illegalCommand, [], .none, .cw 7⟩ := by
  decide
/-- CTL-10. -/
theorem test_illegalReserved : respOf (exec (.illegalReserved 0x80000004) (stateWith bamTable)) =
    some ⟨.illegalCommand, [], .none, .cw 0x80000004⟩ := by decide
/-- DSP-9. -/
theorem test_frameStandard : respOf (exec (.frameStandard 0 0x0F0 2 zeroLanes) State.reset) =
    some ⟨.invalidIdentifier, [], .none, .arbId 0x0F0⟩ := by decide
/-- DSP-12: the sweep's eviction stays. -/
theorem test_frameInvalidId : respOf (exec (.frameInvalidId 800 0x2CF00400 8 zeroLanes) (stateWith bamTable)) =
      some ⟨.invalidIdentifier, [⟨.sessionTimeout, 1, 0xFF⟩], .none, .arbId 0x2CF00400⟩ ∧
    tableOf (exec (.frameInvalidId 800 0x2CF00400 8 zeroLanes) (stateWith bamTable)) = some [] := by decide
/-- TPR-10: no affected key. -/
theorem test_tpCmShort : respOf (exec (.tpCmShort 1 ⟨7, 1, 0xFF, 7⟩ zeroLanes) (stateWith bamTable)) =
      some ⟨.malformedTransportControl, [], .none, .addresses 1 0xFF⟩ ∧
    tableOf (exec (.tpCmShort 1 ⟨7, 1, 0xFF, 7⟩ zeroLanes) (stateWith bamTable)) = some bamTable := by decide
/-- TPR-9. -/
theorem test_tpCmRts : tableOf (exec (.tpCmRts 0 (hdr 0 0x3D) 10 2 0xFF 0x00FECB) (stateWith [])) = some rtsTable := by
  decide
/-- TPR-29: a full table refuses a new key. -/
theorem test_tpCmRts_full : respOf (exec (.tpCmRts 6 (hdr 1 2) 7 1 0xFF 0x00FEE9) (smallState bamTable)) =
    some ⟨.sessionTableFull, [], .none, .addresses 1 2⟩ := by decide
/-- TPR-13: the session is the reverse one. -/
theorem test_tpCmCts : tableOf (exec (.tpCmCts 10 (hdr 0x3D 0) 2 1 0xFF 0xFF 0x00FECB) (stateWith rtsTable)) =
    some [(61, { rts1 with lastActivity := 10 })] := by decide
/-- TPR-12: a CTS never marks a BAM session. -/
theorem test_tpCmCts_bam : tableOf (exec (.tpCmCts 100 (hdr 0xFF 1) 1 1 0xFF 0xFF 0x00FEE9) (stateWith bamTable)) =
    some bamTable := by decide
/-- TPR-14. -/
theorem test_tpCmEoma : tableOf (exec (.tpCmEoma 1000 (hdr 0x3D 0) 10 2 0xFF 0x00FECB) (stateWith rtsTable)) =
    some [(61, { rts1 with lastActivity := 1000 })] := by decide
/-- TPR-12's announcement. -/
theorem test_tpCmBam : tableOf (exec (.tpCmBam 0 (hdr 1 0xFF) 9 2 0xFF 0x00FEE9) (stateWith [])) = some bamTable := by
  decide
/-- TPR-2: a BAM to an address removes the broadcast session of its source. -/
theorem test_tpCmBam_addressed : respOf (exec (.tpCmBam 1 (hdr 1 0x3D) 20 3 0xFF 0x00FECA) (stateWith bamTable)) =
      some ⟨.malformedTransportControl, [], .none, .addresses 1 0x3D⟩ ∧
    tableOf (exec (.tpCmBam 1 (hdr 1 0x3D) 20 3 0xFF 0x00FECA) (stateWith bamTable)) = some [] := by decide
/-- TPR-15: the other orientation, and whatever PGN the Abort names. -/
theorem test_tpCmAbort : tableOf (exec (.tpCmAbort 1 (hdr 0x3D 0) 3 0xFF 0xFF 0xFF 0x123456) (stateWith twoTable)) =
    some bamTable := by decide
/-- TPR-11. -/
theorem test_tpCmReserved : respOf (exec (.tpCmReserved 0 (hdr 1 0xFF) { zeroLanes with b0 := 0x15 }) State.reset) =
    some ⟨.ok, [], .none, .none⟩ := by decide
/-- TPR-17. -/
theorem test_tpDtEmpty : respOf (exec (.tpDtEmpty 1 ⟨7, 1, 0xFF, 0⟩ zeroLanes) (stateWith bamTable)) =
      some ⟨.malformedTransportData, [], .none, .addresses 1 0xFF⟩ ∧
    tableOf (exec (.tpDtEmpty 1 ⟨7, 1, 0xFF, 0⟩ zeroLanes) (stateWith bamTable)) = some [] := by decide
/-- TPR-21, the first stored chunk. -/
theorem test_tpDt_stores :
    tableOf (exec (.tpDt 1 (hdr 1 0xFF) 1 ⟨0x10, 2, 3, 4, 5, 6, 7⟩) (stateWith bamTable)) = some halfTable := by decide
/-- TPR-21, the completing chunk: nine bytes of the fourteen. -/
theorem test_tpDt_completes :
    respOf (exec (.tpDt 3 (hdr 1 0xFF) 2 ⟨8, 9, 0xFF, 0xFF, 0xFF, 0xFF, 0xFF⟩) (stateWith halfTable)) =
      some ⟨.ok, [], .message ⟨0xFEE9, 1, 0xFF, [0x10, 2, 3, 4, 5, 6, 7, 8, 9], true,
        [(9401, .ok ⟨9401, 0x10, .value, 0x4020000000000000, [0x6C]⟩)]⟩, .none⟩ := by decide +kernel
/-- DSP-1, two of its signals: 1000.0 rpm, and the listed SPN the dictionary lacks. -/
theorem test_frameSingle :
    respOf (exec (.frameSingle 0 ⟨3, 0, 0, 0xF0, 4, 0⟩ 8 ⟨0xF3, 0xFF, 0x7D, 0x40, 0x1F, 0xFF, 0xFF, 0xFF⟩)
      (stateWith [])) =
      some ⟨.ok, [], .message ⟨0xF004, 0, 0xFF, [0xF3, 0xFF, 0x7D, 0x40, 0x1F, 0xFF, 0xFF, 0xFF], true,
        [(9101, .ok ⟨9101, 0x1F40, .value, 0x408F400000000000, []⟩), (9199, .err .unknownSpn 9199)]⟩, .none⟩ := by
  decide +kernel
/-- DSP-7: passed raw. -/
theorem test_frameSingle_raw : respOf (exec (.frameSingle 0 ⟨6, 0, 0, 0xFE, 0xF1, 0⟩ 8 ⟨1, 2, 3, 4, 5, 6, 7, 8⟩) rawState) =
    some ⟨.ok, [], .message ⟨0xFEF1, 0, 0xFF, [1, 2, 3, 4, 5, 6, 7, 8], false, []⟩, .none⟩ := by decide
/-- DSP-14, through PROCESS_FRAME. -/
theorem test_processFrame : respOf (exec (.processFrame 0 ⟨1, 0x18EF0A00, 1, { zeroLanes with b0 := 1 }⟩) State.reset) =
    some ⟨.unknownPgn, [], .none, .pgn 0xEF00⟩ := by decide

/-! ### A word presented is the next to run -/

theorem test_step_after_reset : respOf (step (State.reset.withFetchWord 32 7)) =
    some ⟨.illegalCommand, [], .none, .cw 7⟩ := by decide
theorem test_step_fcw : respOf (step (State.reset.withFetchWord 40 0x1CECFF0110)) =
    some ⟨.malformedTransportControl, [], .none, .addresses 1 0xFF⟩ := by decide

/-! ### Witnesses: for every obligation with hypotheses, a state and operands that meet all of them -/

/-- A state of FIX with the given table and commands waiting. -/
def stateInbox (t : Table) (cs : List PortCommand) : State := { stateWith t with inbox := cs }

/-- What responding adds is one response. -/
theorem answered_respond (s t : State) (ev : List Event) (r : Reply) (h1 : t.inst = s.inst) (h2 : t.inbox = s.inbox)
    (h3 : t.outbox = s.outbox) : Answered s (respond t ev r) ⟨r.status, ev, r.result, r.info⟩ :=
  ⟨by rw [← h3]; rfl, h1, h2⟩

theorem witness_bamInv : SessionInv bam1 :=
  ⟨by decide, by decide, by decide, by decide, by decide, by decide, by decide⟩
theorem witness_halfInv : SessionInv bamHalf :=
  ⟨by decide, by decide, by decide, by decide, by decide, by decide, by decide⟩
theorem witness_rtsInv : SessionInv rts1 :=
  ⟨by decide, by decide, by decide, by decide, by decide, by decide, by decide⟩

/-- A state of two sessions meets the invariant. -/
theorem witness_stateInv (cs : List PortCommand) : StateInv (stateInbox twoTable cs) := by
  refine ⟨?_, ?_, ?_, fun m hm => by cases hm⟩
  · show MapWf twoTable
    decide
  · show ∀ p ∈ twoTable, p.1 = keyOf p.2.src p.2.dst
    decide
  · intro p hp
    rcases List.mem_cons.1 hp with rfl | hp
    · exact witness_rtsInv
    · rcases List.mem_cons.1 hp with rfl | hp
      · exact witness_bamInv
      · cases hp

/-- The same at the capacity: `MAX_SESSIONS = 1` and one session. -/
theorem witness_stateInv_full : StateInv (smallState bamTable) := by
  refine ⟨?_, ?_, ?_, fun m hm => by cases hm; decide⟩
  · show MapWf bamTable
    decide
  · show ∀ p ∈ bamTable, p.1 = keyOf p.2.src p.2.dst
    decide
  · intro p hp
    rcases List.mem_cons.1 hp with rfl | hp
    · exact witness_bamInv
    · cases hp

theorem witness_StepRunsTheDecodedCommand : ∃ (s : State) (c : PortCommand) (rest : List PortCommand) (i : Instr),
    s.inbox = c :: rest ∧ decode c = .ok i :=
  ⟨stateInbox twoTable [portWord 1], portWord 1, [], .decodeId 0, rfl, by decide⟩

theorem witness_StepWithoutACommandIsIdle : (∃ s : State, s.inbox = []) ∧
    ∃ (s : State) (c : PortCommand) (rest : List PortCommand),
      s.inbox = c :: rest ∧ c.cw = 3#32 ∧ c.payload.length ≠ c.n.toNat :=
  ⟨⟨State.reset, rfl⟩, stateInbox [] [{ portWord 3 with n := 1 }], { portWord 3 with n := 1 }, [], rfl, rfl, by decide⟩

theorem witness_CommandWordSelectsTheRow :
    8 ≤ (portWord 8).cw.toNat ∧ 8 ≤ (portWord 0xFFFFFFFF).cw.toNat ∧ (portWord 0).cw = 0#32 ∧ (portWord 1).cw = 1#32 ∧
    (portWord 2).cw = 2#32 ∧ ((portWord 3).cw = 3#32 ∧ (portWord 3).payload.length = (portWord 3).n.toNat) ∧
    (portWord 4).cw = 4#32 ∧ (portWord 5).cw = 5#32 ∧ (portWord 6).cw = 6#32 ∧ (portWord 7).cw = 7#32 := by decide

theorem witness_DecodeOfEncodeIsTheInstruction : WellFormed (.tpCmBam 0 ⟨7, 1, 0xFF, 15⟩ 9 2 0xFF 0x01FEE9) ∧
    WellFormed (.decodeSpn 1 [0x7D] (def1 0 0 8 one64 0)) ∧ WellFormed (.illegalReserved 8) ∧
    WellFormed (.tpDt 0 ⟨7, 1, 2, 1⟩ 0 zeroChunk) ∧ WellFormed (.frameSingle 0 ⟨7, 0, 1, 0xEC, 0xFF, 1⟩ 8 zeroLanes) := by
  decide

/-- The longest and the shortest chunk. -/
theorem witness_PseudoInstructionsExpand :
    (1 ≤ ([1, 2, 3, 4, 5, 6, 7] : List Byte).length ∧ ([1, 2, 3, 4, 5, 6, 7] : List Byte).length ≤ 7) ∧
    (1 ≤ ([8] : List Byte).length ∧ ([8] : List Byte).length ≤ 7) := by decide

theorem witness_DecodeIdFollowsItsRule : (0x1FFFFFFF#32).toNat < 2 ^ 29 ∧ 2 ^ 29 ≤ (0x20000000#32).toNat := by decide

theorem witness_EncodeOfDecodedIdIsTheId : (0x0AEF0A80#32).toNat < 2 ^ 29 := by decide

theorem witness_PgnFoldsPsOnlyInPdu2 :
    (∃ id id' : Word, id ≠ id' ∧ (∀ k, ¬(8 ≤ k ∧ k < 16) → id.getLsbD k = id'.getLsbD k) ∧
      id.toNat / 2 ^ 16 % 2 ^ 8 < 240) ∧ 240 ≤ (0x00F03400#32).toNat / 2 ^ 16 % 2 ^ 8 := by
  refine ⟨⟨0x00EF0A00, 0x00EF0B00, by decide, fun k hk => ?_, by decide⟩, by decide⟩
  by_cases h : k < 32
  · have : ∀ j : Fin 32, ¬(8 ≤ j.val ∧ j.val < 16) →
        (0x00EF0A00#32).getLsbD j.val = (0x00EF0B00#32).getLsbD j.val := by decide
    exact this ⟨k, h⟩ hk
  · rw [BitVec.getLsbD_of_ge _ _ (by omega), BitVec.getLsbD_of_ge _ _ (by omega)]

theorem witness_TransportPgnsArePdu1 : (pgnOf ⟨7, 0, 0, 0xEC, 0xFF, 1⟩).toNat = 0x00EC00 ∧
    (pgnOf ⟨7, 0, 0, 0xEB, 0x3D, 1⟩).toNat = 0x00EB00 := by decide

/-- SDE-12, SDE-13 and SDE-14. -/
theorem witness_MalformedDefinitionIsReported : (def1 0 0 0 one64 0).bitLength.toNat < 1 ∧
    (def1 0 0 33 one64 0).bitLength.toNat > 32 ∧ (def1 0 8 1 one64 0).startBit.toNat > 7 := by decide

/-- SDE-11. -/
theorem witness_ShortPayloadIsReported : 1 ≤ (def1 0 4 8 one64 0).bitLength.toNat ∧
    (def1 0 4 8 one64 0).bitLength.toNat ≤ 32 ∧ (def1 0 4 8 one64 0).startBit.toNat ≤ 7 ∧
    (def1 0 4 8 one64 0).startByte.toNat * 8 + (def1 0 4 8 one64 0).startBit.toNat +
      (def1 0 4 8 one64 0).bitLength.toNat > 8 * [(0xAB : Byte)].length := by decide

/-- SDE-28: the field ends at the last bit. -/
theorem witness_DecodeSpnExtractsTheField : 1 ≤ (def1 7 7 1 one64 0).bitLength.toNat ∧
    (def1 7 7 1 one64 0).bitLength.toNat ≤ 32 ∧ (def1 7 7 1 one64 0).startBit.toNat ≤ 7 ∧
    (def1 7 7 1 one64 0).startByte.toNat * 8 + (def1 7 7 1 one64 0).startBit.toNat +
      (def1 7 7 1 one64 0).bitLength.toNat ≤ 8 * [(0 : Byte), 0, 0, 0, 0, 0, 0, 0x80].length := by decide

/-- A value (SDE-25), a sentinel (SDE-24) and a NaN (SDE-18: the resolution is infinite and the raw value 0). -/
theorem witness_SignalValueIsTheConversion :
    decodeSignal fixInst 0 [1] (def1 0 0 2 one64 0) = .ok ⟨1, 1, .value, one64, [0x75]⟩ ∧
    f64Mul (u32ToF64 1) one64 = some one64 ∧ f64Add one64 0 = some one64 ∧
    decodeSignal fixInst 0 [3] (def1 0 0 2 one64 0) = .ok ⟨1, 3, .notAvailable, 0, [0x75]⟩ ∧
    sentinel fixInst.sentinels 8 0 = .value ∧
    (f64Mul (u32ToF64 0) 0x7FF0000000000000).bind (f64Add · 0) = none := by decide +kernel

theorem witness_EightBitAllOnesIsNotAvailable : (def1 1 0 8 one64 0).bitLength = 8#8 ∧
    (def1 1 0 8 one64 0).startBit = 0#8 ∧ (def1 1 0 8 one64 0).startByte.toNat = 1 ∧
    [(0 : Byte), 0xFF][1]? = some 0xFF#8 := by decide

/-- The two ends of the range of widths. -/
theorem witness_DefaultSentinelsAreTheTable : (1 ≤ 1 ∧ 1 ≤ 32 ∧ (1#32).toNat < 2 ^ 1) ∧
    (1 ≤ 32 ∧ 32 ≤ 32 ∧ (0xFFFFFFFF#32).toNat < 2 ^ 32) := by decide

/-- The greatest finite binary64, and infinity. -/
def max64 : F64 := 0x7FEFFFFFFFFFFFFF
def inf64 : F64 := 0x7FF0000000000000

/-- The two sides of the overflow (the greatest finite value times 1; (2^27 - 1)*2^500 times (2^27 + 1)*2^470, which is half a unit past
it), a tie ((2^27 + 1)*(2^26 + 1) lies between two values) and an infinity times one. -/
theorem witness_ProductIsNearest : f64Expo one64 ≠ 2047 ∧ f64Expo max64 ≠ 2047 ∧
    f64Units max64 * f64Units one64 < (2 ^ 2098 - 2 ^ 2044) * 2 ^ 1074 ∧
    (f64Expo 0x60DFFFFFFC000000 ≠ 2047 ∧ f64Expo 0x5F00000002000000 ≠ 2047 ∧
      (2 ^ 2098 - 2 ^ 2044) * 2 ^ 1074 = f64Units 0x60DFFFFFFC000000 * f64Units 0x5F00000002000000) ∧
    (f64Mul 0x41A0000002000000 0x4190000004000000 = some 0x4340000006000000 ∧
      f64Units 0x4340000006000001 ≠ f64Units 0x4340000006000000 ∧
      ((f64Units 0x4340000006000000 : Int) * 2 ^ 1074 -
          f64Units 0x41A0000002000000 * f64Units 0x4190000004000000).natAbs =
        ((f64Units 0x4340000006000001 : Int) * 2 ^ 1074 -
          f64Units 0x41A0000002000000 * f64Units 0x4190000004000000).natAbs) ∧
    (f64Expo inf64 = 2047 ∧ f64Frac inf64 = 0 ∧ f64Expo one64 ≠ 0) := by decide +kernel

/-- A zero sum and another, the two sides of the overflow (2^970 is half a unit past the greatest finite value), a tie (2^53 + 1) and an
infinity plus itself and plus one. -/
theorem witness_SumIsNearest : f64Expo one64 ≠ 2047 ∧ f64Int one64 + f64Int 0xBFF0000000000000 = 0 ∧
    f64Int one64 + f64Int one64 ≠ 0 ∧ f64Expo max64 ≠ 2047 ∧
    (f64Int max64 + f64Int 0x7C8FFFFFFFFFFFFF).natAbs < 2 ^ 2098 - 2 ^ 2044 ∧
    2 ^ 2098 - 2 ^ 2044 = (f64Int max64 + f64Int 0x7C90000000000000).natAbs ∧
    (f64Add 0x4340000000000000 one64 = some 0x4340000000000000 ∧
      f64Int 0x4340000000000001 ≠ f64Int 0x4340000000000000 ∧
      (f64Int 0x4340000000000000 - (f64Int 0x4340000000000000 + f64Int one64)).natAbs =
        (f64Int 0x4340000000000001 - (f64Int 0x4340000000000000 + f64Int one64)).natAbs) ∧
    (f64Expo inf64 = 2047 ∧ f64Frac inf64 = 0 ∧ f64Sign inf64 = f64Sign inf64) := by decide +kernel

theorem witness_InvalidIdentifierFrameIsRejected : 2 ^ 29 ≤ (0x20000000#32).toNat ∧
    ∃ t r, (0x1FFFFFFF#32).toNat < 2 ^ 29 ∧
      exec (.processFrame 0 ⟨1, 0x1FFFFFFF, 0, zeroLanes⟩) State.reset = .next t ∧ Answered State.reset t r :=
  ⟨by decide, _, _, by decide, rfl, answered_respond _ _ _ _ rfl rfl rfl⟩

theorem witness_SingleFrameMessageIsDecoded :
    dictPgn (stateWith []).inst ((pgnOf ⟨3, 0, 0, 0xF0, 4, 0⟩).setWidth 32) = some ⟨[], 8, [9101, 9199]⟩ ∧
    dictSpn (stateWith []).inst 9199 = none ∧
    dictSpn (stateWith []).inst 9101 = some ⟨9101, 0xF004, 3, 0, 16, 0x3FC0000000000000, 0, []⟩ := by decide

theorem witness_UnknownPgnFollowsThePolicy :
    (dictPgn State.reset.inst ((pgnOf ⟨3, 0, 0, 0xF0, 4, 0⟩).setWidth 32) = none ∧ State.reset.inst.policy = .error) ∧
    (dictPgn rawState.inst ((pgnOf ⟨6, 0, 0, 0xFE, 0xF1, 0⟩).setWidth 32) = none ∧ rawState.inst.policy = .passRaw) := by
  decide

/-- A message from a single frame, and one from the data frame that completes a session. -/
theorem witness_ProcessFrameGivesAtMostOneMessage :
    (classify ⟨1, 0x18FEF100, 0, zeroLanes⟩ = .single ∧
      respOf (exec (.processFrame 0 ⟨1, 0x18FEF100, 0, zeroLanes⟩) rawState) =
        some ⟨.ok, [], .message ⟨0xFEF1, 0, 0xFF, [], false, []⟩, .none⟩) ∧
    (classify ⟨1, 0x1CEBFF01, 8, ⟨2, 8, 9, 0xFF, 0xFF, 0xFF, 0xFF, 0xFF⟩⟩ = .dt ∧
      ((respOf (exec (.processFrame 3 ⟨1, 0x1CEBFF01, 8, ⟨2, 8, 9, 0xFF, 0xFF, 0xFF, 0xFF, 0xFF⟩⟩)
        (stateWith halfTable))).map (fun r => r.result ≠ .none)) = some True) := by
  refine ⟨by decide, by decide, ?_⟩
  have h : respOf (exec (.processFrame 3 ⟨1, 0x1CEBFF01, 8, ⟨2, 8, 9, 0xFF, 0xFF, 0xFF, 0xFF, 0xFF⟩⟩)
      (stateWith halfTable)) = some ⟨.ok, [], .message ⟨0xFEE9, 1, 0xFF, [0x10, 2, 3, 4, 5, 6, 7, 8, 9], true,
        [(9401, .ok ⟨9401, 0x10, .value, 0x4020000000000000, [0x6C]⟩)]⟩, .none⟩ := by decide +kernel
  rw [h]
  simp

theorem witness_LanesPastTheLengthAreIgnored : ∀ k, k < min (1#4).toNat 8 →
    [(5 : Byte), 0, 0, 0, 0, 0, 0, 0][k]? = [(5 : Byte), 1, 2, 3, 4, 5, 6, 7][k]? := by decide

/-- Each clause: another destination, an inconsistent size (8 bytes announced as one packet), a full table, and the largest
consistent announcement. -/
theorem witness_BamFollowsItsRule : (hdr 1 0x3D).da ≠ 0xFF#8 ∧ (hdr 1 0xFF).da = 0xFF#8 ∧
    ¬(1 ≤ (8#16).toNat ∧ 1 ≤ (1#8).toNat ∧ (8#16).toNat ≤ (1#8).toNat * 7 ∧ (1#8).toNat * 7 < (8#16).toNat + 7) ∧
    (1 ≤ (1785#16).toNat ∧ 1 ≤ (255#8).toNat ∧ (1785#16).toNat ≤ (255#8).toNat * 7 ∧
      (255#8).toNat * 7 < (1785#16).toNat + 7) ∧
    (tableGet (sweepTable (smallState bamTable).inst 0 (smallState bamTable).table) 2 0xFF#8 = none ∧
      ∃ m, (smallState bamTable).inst.maxSessions = some m ∧
        m.count ≤ (sweepTable (smallState bamTable).inst 0 (smallState bamTable).table).length) ∧
    tableGet (sweepTable (smallState bamTable).inst 0 (smallState bamTable).table) 1 0xFF#8 ≠ none := by
  refine ⟨by decide, by decide, by decide, by decide, ⟨by decide, ⟨1, by decide⟩, rfl, by decide⟩, by decide⟩

/-- Each clause: the global address, an inconsistent size, a full table, and the least consistent announcement. -/
theorem witness_RtsFollowsItsRule : (hdr 1 0xFF).da = 0xFF#8 ∧ (hdr 1 2).da ≠ 0xFF#8 ∧
    ¬(1 ≤ (0#16).toNat ∧ 1 ≤ (1#8).toNat ∧ (0#16).toNat ≤ (1#8).toNat * 7 ∧ (1#8).toNat * 7 < (0#16).toNat + 7) ∧
    (1 ≤ (1#16).toNat ∧ 1 ≤ (1#8).toNat ∧ (1#16).toNat ≤ (1#8).toNat * 7 ∧ (1#8).toNat * 7 < (1#16).toNat + 7) ∧
    (tableGet (sweepTable (smallState bamTable).inst 0 (smallState bamTable).table) 1 2 = none ∧
      ∃ m, (smallState bamTable).inst.maxSessions = some m ∧
        m.count ≤ (sweepTable (smallState bamTable).inst 0 (smallState bamTable).table).length) ∧
    ¬(tableGet (sweepTable (stateWith []).inst 0 (stateWith []).table) 1 2 = none ∧
      ∃ m, (stateWith []).inst.maxSessions = some m ∧
        m.count ≤ (sweepTable (stateWith []).inst 0 (stateWith []).table).length) := by
  refine ⟨by decide, by decide, by decide, by decide, ⟨by decide, ⟨1, by decide⟩, rfl, by decide⟩, ?_⟩
  rintro ⟨-, m, hm, -⟩
  cases hm

/-- The session at `(da, sa)`: none, a BAM session, an RTS_CTS session. -/
theorem witness_CtsAndEomaMarkActivity :
    ((∃ count next r3 r4 pgn, Instr.tpCmCts 10 (hdr 0x3D 0) 2 1 0xFF 0xFF 0xFECB =
        .tpCmCts 10 (hdr 0x3D 0) count next r3 r4 pgn) ∨
      (∃ size np r4 pgn, Instr.tpCmCts 10 (hdr 0x3D 0) 2 1 0xFF 0xFF 0xFECB =
        .tpCmEoma 10 (hdr 0x3D 0) size np r4 pgn)) ∧
    ((∃ count next r3 r4 pgn, Instr.tpCmEoma 10 (hdr 0x3D 0) 10 2 0xFF 0xFECB =
        .tpCmCts 10 (hdr 0x3D 0) count next r3 r4 pgn) ∨
      (∃ size np r4 pgn, Instr.tpCmEoma 10 (hdr 0x3D 0) 10 2 0xFF 0xFECB =
        .tpCmEoma 10 (hdr 0x3D 0) size np r4 pgn)) ∧
    tableGet (sweepTable fixInst 10 twoTable) 5 6 = none ∧
    (tableGet (sweepTable fixInst 10 twoTable) 1 0xFF = some bam1 ∧ bam1.mode = .bam) ∧
    (tableGet (sweepTable fixInst 10 twoTable) 0 0x3D = some rts1 ∧ rts1.mode = .rtsCts) :=
  ⟨.inl ⟨_, _, _, _, _, rfl⟩, .inr ⟨_, _, _, _, rfl⟩, by decide, by decide, by decide⟩

/-- Each clause: no session, sequence number 0 and one above `np`, an unfinished session, a complete one that is long enough (two
chunks of seven bytes for nine) and one that is too short (TPR-22: eight bytes for nine). -/
theorem witness_DataFrameFollowsItsRule :
    tableGet (sweepTable fixInst 2 halfTable) 5 0xFF = none ∧
    (tableGet (sweepTable fixInst 2 halfTable) 1 0xFF = some bamHalf ∧ (3#8).toNat > bamHalf.np.toNat ∧
      (2#8).toNat ≤ bamHalf.np.toNat ∧ 2#8 ≠ 0#8) ∧
    allFilled (storeChunk 1 1 chunk1 bam1) = false ∧
    (allFilled (storeChunk 2 2 chunk1 bamHalf) = true ∧
      9 ≤ (concatChunks (storeChunk 2 2 chunk1 bamHalf)).length) ∧
    (allFilled (storeChunk 2 2 [8] bamHalf) = true ∧ (concatChunks (storeChunk 2 2 [8] bamHalf)).length < 9) := by
  decide

/-- Two arrival orders of two chunks. -/
theorem witness_ReassemblyIgnoresArrivalOrder : ∀ q : Byte,
    (([(1, 1, [5]), (2, 2, [6])] : List (Time × Byte × List Byte)).reverse.find? (fun d => d.2.1 == q)).map (·.2.2) =
      (([(1, 2, [6]), (2, 1, [5])] : List (Time × Byte × List Byte)).reverse.find? (fun d => d.2.1 == q)).map (·.2.2) := by
  intro q
  by_cases h1 : q = 1#8
  · subst h1
    decide
  · by_cases h2 : q = 2#8
    · subst h2
      decide
    · have e1 : ((1#8 : Byte) == q) = false := by simpa using Ne.symm h1
      have e2 : ((2#8 : Byte) == q) = false := by simpa using Ne.symm h2
      simp [e1, e2]

/-- E5's announcement of 20 bytes in three packets, arriving as 2, 1, 3; also a full table that holds the superseded session. -/
theorem witness_BroadcastTransferDeliversInAnyOrder : (hdr 1 0xFF).da = 0xFF#8 ∧ 8 ≤ (hdr 1 0xFF).dlc.toNat ∧
    1 ≤ (20#16).toNat ∧ (20#16).toNat ≤ (3#8).toNat * 7 ∧ (3#8).toNat * 7 < (20#16).toNat + 7 ∧
    [2#8, 1#8, 3#8].Perm ((List.range (3#8).toNat).map (fun j => BitVec.ofNat 8 (j + 1))) ∧
    (tableGet (sweepTable (stateWith []).inst 0 (stateWith []).table) 1 0xFF#8 ≠ none ∨
      ∀ m, (stateWith []).inst.maxSessions = some m →
        (sweepTable (stateWith []).inst 0 (stateWith []).table).length < m.count) ∧
    tableGet (sweepTable (smallState bamTable).inst 0 (smallState bamTable).table) 1 0xFF#8 ≠ none :=
  ⟨by decide, by decide, by decide, by decide, by decide, by decide, .inr (fun m hm => by cases hm), by decide⟩

/-- At 751 ms the BAM session is expired and the RTS_CTS session is not. -/
theorem witness_TickEvictsExactlyTheExpired : StateInv (stateInbox twoTable []) ∧
    tableGet (stateInbox twoTable []).table 5 6 = none ∧
    (tableGet (stateInbox twoTable []).table 1 0xFF = some bam1 ∧ bam1.lastActivity < 751 ∧
      (bam1.mode = .bam → fixInst.timeoutBam.toNat < 751 - bam1.lastActivity) ∧
      (bam1.mode = .rtsCts → fixInst.timeoutCm.toNat < 751 - bam1.lastActivity)) ∧
    (tableGet (stateInbox twoTable []).table 0 0x3D = some rts1 ∧
      ¬(rts1.lastActivity < 751 ∧ (rts1.mode = .bam → fixInst.timeoutBam.toNat < 751 - rts1.lastActivity) ∧
        (rts1.mode = .rtsCts → fixInst.timeoutCm.toNat < 751 - rts1.lastActivity))) :=
  ⟨witness_stateInv [], by decide, by decide, by decide⟩

/-- OnlyThreeCommandsSweep, EveryResponseIsWellShaped and SecondTickIsSilent. -/
theorem witness_answeredTick : ∃ t r, exec (.tick 751) (stateWith twoTable) = .next t ∧
    Answered (stateWith twoTable) t r := ⟨_, _, rfl, answered_respond _ _ _ _ rfl rfl rfl⟩

theorem witness_QuerySessionShowsTheSession : tableGet (sweepTable fixInst 5 halfTable) 1 2 = none ∧
    tableGet (sweepTable fixInst 5 halfTable) 1 0xFF = some bamHalf := by decide

theorem witness_IllegalCommandIsReported : (stateInbox [] [portWord 7]).inbox = portWord 7 :: [] ∧
    7 ≤ (portWord 7).cw.toNat := by decide

theorem witness_StepKeepsTheSessionInvariants : ∃ t, StateInv (stateInbox twoTable [portWord 4]) ∧
    step (stateInbox twoTable [portWord 4]) = .next t := ⟨_, witness_stateInv _, rfl⟩

theorem witness_EveryRunKeepsTheSessionInvariants : Reachable (State.create { fixInst with maxSessions := some ⟨1, by decide⟩ }) ∧
    (State.create { fixInst with maxSessions := some ⟨1, by decide⟩ }).inst.maxSessions = some ⟨1, by decide⟩ := ⟨.create _, rfl⟩

theorem witness_SessionsAreIsolated : ∃ t, exec (.tpCmAbort 1 (hdr 5 6) 3 0xFF 0xFF 0xFF 0) (stateWith twoTable) = .next t ∧
    Instr.tpCmAbort 1 (hdr 5 6) 3 0xFF 0xFF 0xFF 0 ≠ .reset ∧
    ((1, 0xFF) : Byte × Byte) ∉ touchedKeys (.tpCmAbort 1 (hdr 5 6) 3 0xFF 0xFF 0xFF 0) :=
  ⟨_, rfl, by decide, by decide⟩

/-- Two states that differ in an earlier response and a waiting command. -/
theorem witness_EarlierResponsesDoNotMatter : ∃ s s' : State, s ≠ s' ∧ s.table = s'.table ∧ s.inst = s'.inst ∧
    s.freeDraws = s'.freeDraws :=
  ⟨State.reset, { State.reset with inbox := [portWord 7], outbox := [⟨.ok, [], .none, .none⟩] },
    fun h => List.cons_ne_nil (portWord 7) [] (congrArg State.inbox h).symm, rfl, rfl, rfl⟩

/-- A chunk is stored; the session stays. -/
theorem witness_StoredSessionsOnlyAdvance : MapWf (stateWith bamTable).table ∧
    tableGet (stateWith bamTable).table 1 0xFF = some bam1 ∧
    ∃ t, exec (.tpDt 1 (hdr 1 0xFF) 1 ⟨0x10, 2, 3, 4, 5, 6, 7⟩) (stateWith bamTable) = .next t ∧
      tableGet t.table 1 0xFF = some bamHalf := ⟨by decide, by decide, _, rfl, by decide⟩

/-- TPR-28's session, at 751 ms. -/
theorem witness_LateDataFrameFindsNoSession : StateInv (stateInbox twoTable []) ∧
    tableGet (stateInbox twoTable []).table (hdr 1 0xFF).sa (hdr 1 0xFF).da = some bam1 ∧ bam1.lastActivity < 751 ∧
    window (stateInbox twoTable []).inst bam1 < 751 - bam1.lastActivity :=
  ⟨witness_stateInv [], by decide, by decide, by decide⟩

/-- A frame of every class, in the order of R68's table. -/
theorem witness_FrameOperandsAreReadFromTheFrame :
    [(⟨0, 0x0F0, 2, zeroLanes⟩ : Frame), ⟨1, 0x2CF00400, 8, zeroLanes⟩, ⟨1, 0x1CECFF01, 7, zeroLanes⟩,
      ⟨1, 0x1CECFF01, 8, { zeroLanes with b0 := 0x10 }⟩, ⟨1, 0x1CECFF01, 8, { zeroLanes with b0 := 0x11 }⟩,
      ⟨1, 0x1CECFF01, 8, { zeroLanes with b0 := 0x13 }⟩, ⟨1, 0x1CECFF01, 8, { zeroLanes with b0 := 0x20 }⟩,
      ⟨1, 0x1CECFF01, 8, { zeroLanes with b0 := 0xFF }⟩, ⟨1, 0x1CECFF01, 8, zeroLanes⟩, ⟨1, 0x1CEBFF01, 0, zeroLanes⟩,
      ⟨1, 0x1CEBFF01, 1, zeroLanes⟩, ⟨1, 0x18FEF100, 8, zeroLanes⟩].map classify =
    [.standard, .invalidId, .cmShort, .rts, .cts, .eoma, .bam, .abort, .cmReserved, .dtEmpty, .dt, .single] := by decide

/-- A message of more than eight bytes with TPR-24's 24-bit PGN, unknown, under each policy; and a known PGN that lists an SPN the
dictionary has and one it lacks. -/
theorem witness_MessageDecodeFollowsItsRule :
    (dictPgn fixInst (⟨0x01FEE9, 1, 0xFF, [1, 2, 3, 4, 5, 6, 7, 8, 9]⟩ : Message).pgn = none ∧ fixInst.policy = .error) ∧
    (dictPgn rawState.inst (⟨0x01FEE9, 1, 0xFF, [1, 2, 3, 4, 5, 6, 7, 8, 9]⟩ : Message).pgn = none ∧
      rawState.inst.policy = .passRaw) ∧
    (dictPgn fixInst (⟨0xF004, 0, 0xFF, []⟩ : Message).pgn = some ⟨[], 8, [9101, 9199]⟩ ∧
      dictSpn fixInst 9101 ≠ none ∧ dictSpn fixInst 9199 = none) := by decide

end Sys2Proof.Tests
end

section
/-! PROOFS. The binary64 arithmetic of R11: the integer rounding, the exact conversion, the product and the sum. -/

namespace Sys2Proof.Proofs

open Sys2Proof Sys2Proof.Machine

/-! ### The rounding of integers -/

/-- Settles O24: by the part of `n` below `2 ^ sh`, which decides whether rounding goes down or up. -/
theorem roundingGoesToNearestEven : Obligations.RoundingGoesToNearestEven := by
  intro n sh
  have hn : n / 2 ^ sh * 2 ^ sh + n % 2 ^ sh = n := Nat.div_add_mod' n (2 ^ sh)
  have hlt : n % 2 ^ sh < 2 ^ sh := Nat.mod_lt n (by positivity)
  rw [roundShift, Nat.shiftRight_eq_div_pow]
  split
  case isTrue hup => rw [Nat.add_one_mul (n / 2 ^ sh)]; omega
  case isFalse hdown => omega

/-- A multiple of the rounding unit is its own rounding. -/
theorem roundShift_mul_of_dvd {n sh : Nat} (h : 2 ^ sh ∣ n) : roundShift n sh * 2 ^ sh = n := by
  have hnear := roundShift_nearest n sh (n / 2 ^ sh)
  rw [Nat.div_mul_cancel h] at hnear
  omega

/-! ### A rounded pattern -/

theorem f64Units_pack (neg : Bool) (n sub : Nat) :
    f64Units (f64Pack neg (roundMag n sub)) = magUnits (roundMag n sub) := by
  rw [f64Units_eq, mag_pack]

theorem f64Sign_pack_roundMag (neg : Bool) (n sub : Nat) : f64Sign (f64Pack neg (roundMag n sub)) = neg :=
  f64Sign_pack neg (lt_of_le_of_lt (roundMag_le n sub) f64InfMag_lt)

/-- The bound of `roundMag_finite_iff` with its exponents as variables: a literal power of this size is costly to unify. -/
theorem roundMag_finite_iff_of_eq {k l : Nat} (hk : 2098 = k) (hl : 2044 = l) (n sub : Nat) :
    roundMag n sub < f64InfMag ↔ n < (2 ^ k - 2 ^ l) * 2 ^ sub := by
  subst hk hl
  exact roundMag_finite_iff n sub

theorem pack_roundMag_infinite (neg : Bool) {n sub : Nat} (h : ¬roundMag n sub < f64InfMag) :
    f64Expo (f64Pack neg (roundMag n sub)) = 2047 ∧ f64Frac (f64Pack neg (roundMag n sub)) = 0 := by
  rw [f64Pack_overflow neg n sub h]
  exact f64Pack_inf neg

section
variable (neg : Bool) {n sub : Nat} (hfin : roundMag n sub < f64InfMag)
include hfin

/-- No pattern's magnitude lies nearer to the exact one than the rounded pattern's. -/
theorem pack_roundMag_nearest (v : F64) :
    ((f64Units (f64Pack neg (roundMag n sub)) * 2 ^ sub : Nat) - n : Int).natAbs ≤
      ((f64Units v * 2 ^ sub : Nat) - n : Int).natAbs := by
  rw [f64Units_pack, f64Units_eq v]
  exact roundMag_nearest n sub _ hfin

/-- Where another pattern's magnitude lies as near, the rounded pattern's fraction is even. -/
theorem pack_roundMag_tie {v : F64} (hv : f64Units v ≠ f64Units (f64Pack neg (roundMag n sub)))
    (htie : ((f64Units (f64Pack neg (roundMag n sub)) * 2 ^ sub : Nat) - n : Int).natAbs =
      ((f64Units v * 2 ^ sub : Nat) - n : Int).natAbs) :
    f64Frac (f64Pack neg (roundMag n sub)) % 2 = 0 := by
  rw [f64Units_pack, f64Units_eq v] at hv htie
  have heven := roundMag_tie hfin hv htie
  rw [f64Frac_pack]
  omega

end

/-! ### The conversion of a 32-bit integer -/

section
variable {m k : Nat} (hm : m < 2 ^ 52)
include hm

/-- Rounding drops no bit of a short integer, only zeros of the power of two. -/
theorem roundBits_mul_pow_le : roundBits (m * 2 ^ k) 0 ≤ k := by
  rcases (roundBits_bounds (m * 2 ^ k) 0).2 with hzero | hhigh
  · omega
  · by_contra hgt
    have hpow : 2 ^ k ≤ 2 ^ roundBits (m * 2 ^ k) 0 := Nat.pow_le_pow_right Nat.two_pos (by omega)
    have hlow : 2 ^ 52 * 2 ^ k ≤ m * 2 ^ k := (Nat.mul_le_mul_left _ hpow).trans hhigh
    have := Nat.le_of_mul_le_mul_right hlow (Nat.two_pow_pos k)
    omega

theorem roundMag_mul_pow_finite (hk : k ≤ 2045) : roundMag (m * 2 ^ k) 0 < f64InfMag := by
  rw [roundMag_finite_iff]
  have hpow : 2 ^ k ≤ 2 ^ 2045 := pow_le_pow_right₀ one_le_two hk
  have hmul : m * 2 ^ k ≤ 2 ^ 52 * 2 ^ 2045 := Nat.mul_le_mul (Nat.le_of_lt hm) hpow
  omega

/-- A short integer times a power of two is its own rounding. -/
theorem magUnits_roundMag_mul_pow (hk : k ≤ 2045) : magUnits (roundMag (m * 2 ^ k) 0) = m * 2 ^ k := by
  have hunits := magUnits_roundMag _ 0 (roundMag_mul_pow_finite hm hk)
  have hdvd : 2 ^ roundBits (m * 2 ^ k) 0 ∣ m * 2 ^ k := (Nat.pow_dvd_pow 2 (roundBits_mul_pow_le hm)).mul_left m
  rwa [roundShift_mul_of_dvd hdvd, Nat.pow_zero, Nat.mul_one] at hunits

end

/-- Settles O23: a word times a power of two is a multiple of its rounding unit and far from overflow. -/
theorem u32ConvertsExactly : Obligations.U32ConvertsExactly := by
  intro r
  rw [u32ToF64]
  have hr : r.toNat < 2 ^ 52 := by omega
  generalize hk : 1074 = k
  have hk' : k ≤ 2045 := by omega
  obtain ⟨hnan, hinf⟩ := not_special ((finite_pack_iff false _ _).2 (roundMag_mul_pow_finite hr hk'))
  exact ⟨hnan, hinf, f64Sign_pack_roundMag _ _ _, (f64Units_pack _ _ _).trans (magUnits_roundMag_mul_pow hr hk')⟩

/-! ### Infinite operands -/

theorem isNan_eq_false {a : F64} (h : f64Expo a = 2047 → f64Frac a = 0) : f64IsNan a = false := by
  rw [f64IsNan, Bool.and_eq_false_imp]
  intro he
  rw [h (beq_iff_eq.1 he)]
  rfl

theorem isInf_eq_true {a : F64} (he : f64Expo a = 2047) (hf : f64Frac a = 0) : f64IsInf a = true := by
  rw [f64IsInf, he, hf]
  rfl

theorem isZero_eq_false {a : F64} (h : f64Expo a ≠ 0 ∨ f64Frac a ≠ 0) : f64IsZero a = false := by
  rw [f64IsZero, Bool.and_eq_false_iff, beq_eq_false_iff_ne, beq_eq_false_iff_ne]
  exact h

theorem f64Sign_eq (a : F64) : f64Sign a = decide (a.toNat / 2 ^ 63 % 2 = 1) := by
  rw [f64Sign, BitVec.getLsbD, Nat.testBit_eq_decide_div_mod_eq]

/-- A pattern is its sign, exponent and fraction. -/
theorem f64_ext {a b : F64} (hs : f64Sign a = f64Sign b) (he : f64Expo a = f64Expo b) (hf : f64Frac a = f64Frac b) :
    a = b := by
  rw [f64Sign_eq, f64Sign_eq, decide_eq_decide] at hs
  rw [f64Expo_eq, f64Expo_eq] at he
  rw [f64Frac_eq, f64Frac_eq] at hf
  apply BitVec.eq_of_toNat_eq
  omega

/-- The product of two operands that are no NaN and no zero, one of them infinite (R11). -/
theorem f64Mul_infinite {a b : F64} (ha : f64IsNan a = false) (hb : f64IsNan b = false)
    (hinf : f64IsInf a = true ∨ f64IsInf b = true) (ha0 : f64IsZero a = false) (hb0 : f64IsZero b = false) :
    f64Mul a b = some (f64Pack (f64Sign a != f64Sign b) f64InfMag) := by
  simp [f64Mul, ha, hb, hinf, ha0, hb0]

/-! ### The product -/

/-- Settles O25: the product of finite operands is their exact product rounded once. -/
theorem productIsNearest : Obligations.ProductIsNearest := by
  intro a b
  constructor
  · intro ha hb
    rw [f64Mul_finite ha hb]
    generalize hk : 2098 = k, hl : 2044 = l, 1074 = sub
    have hfinite := roundMag_finite_iff_of_eq hk hl (f64Units a * f64Units b) sub
    refine ⟨_, rfl, f64Sign_pack_roundMag _ _ _, fun hge => ?_, fun hlt => ?_⟩
    · exact pack_roundMag_infinite _ fun hfin => absurd (hfinite.1 hfin) (Nat.not_lt.2 hge)
    · have hfin := hfinite.2 hlt
      refine ⟨(finite_pack_iff _ _ _).2 hfin, fun v _ => ⟨?_, fun hv htie => pack_roundMag_tie _ hfin hv ?_⟩⟩
      · exact_mod_cast pack_roundMag_nearest (f64Sign a != f64Sign b) hfin v
      · exact_mod_cast htie
  · intro he hf hb hb0
    have ha := isNan_eq_false fun _ => hf
    have hb := isNan_eq_false hb
    have hinf := isInf_eq_true he hf
    have ha0 := isZero_eq_false (.inl (by omega : f64Expo a ≠ 0))
    have hb0 := isZero_eq_false hb0
    refine ⟨_, f64Mul_infinite ha hb (.inl hinf) ha0 hb0, ?_, (f64Pack_inf _).1, (f64Pack_inf _).2,
      f64Sign_pack _ f64InfMag_lt⟩
    rw [bne_comm]
    exact f64Mul_infinite hb ha (.inr hinf) hb0 ha0

/-! ### The sum -/

theorem f64Int_cases (x : F64) : f64Int x = f64Units x ∨ f64Int x = -(f64Units x : Int) := by
  rw [f64Int]
  split
  · exact .inr rfl
  · exact .inl rfl

/-- The signed distance is at least that of the magnitudes. -/
theorem units_distance_le (x : F64) (s : Int) :
    ((f64Units x : Int) - s.natAbs).natAbs ≤ (f64Int x - s).natAbs := by
  rcases f64Int_cases x with h | h <;> omega

/-- A pattern of the sign of `s` lies as far from `s` as their magnitudes from each other. -/
theorem int_distance_eq {x : F64} {s : Int} (h : s ≠ 0 → f64Sign x = decide (s < 0)) :
    (f64Int x - s).natAbs = ((f64Units x : Int) - s.natAbs).natAbs := by
  rcases eq_or_ne s 0 with rfl | hs
  · rcases f64Int_cases x with hx | hx <;> omega
  · rw [f64Int, h hs]
    rcases lt_or_ge s 0 with hneg | hpos
    · rw [if_pos (decide_eq_true hneg)]; omega
    · rw [if_neg (by simpa using hpos)]; omega

/-- Two different values of one magnitude are not equally far from anything but zero. -/
theorem f64Units_ne_of_tie {x y : F64} {s : Int} (h0 : s = 0 → f64Units x = 0) (hne : f64Int y ≠ f64Int x)
    (htie : (f64Int x - s).natAbs = (f64Int y - s).natAbs) : f64Units y ≠ f64Units x := by
  intro hu
  rcases f64Int_cases x with hx | hx <;> rcases f64Int_cases y with hy | hy <;> omega

theorem f64Units_pack_zero (neg : Bool) : f64Units (f64Pack neg (roundMag 0 0)) = 0 := by
  rw [f64Units_pack]
  rfl

/-- The sum of finite operands, the zero sum included: the rounded magnitude of the exact sum under its sign (R11). -/
theorem f64Add_finite_pack {a b : F64} (ha : f64Expo a ≠ 2047) (hb : f64Expo b ≠ 2047) : ∃ neg : Bool,
    f64Add a b = some (f64Pack neg (roundMag (f64Int a + f64Int b).natAbs 0)) ∧
    (f64Int a + f64Int b = 0 → neg = (f64Sign a && f64Sign b)) ∧
    (f64Int a + f64Int b ≠ 0 → neg = decide (f64Int a + f64Int b < 0)) := by
  rw [f64Add_finite ha hb]
  split
  case isTrue h => exact ⟨_, by rw [h]; rfl, fun _ => rfl, absurd h⟩
  case isFalse h => exact ⟨_, rfl, fun h' => absurd h' h, fun _ => rfl⟩

section
variable {neg : Bool} {s : Int} (hneg : s ≠ 0 → neg = decide (s < 0)) (hfin : roundMag s.natAbs 0 < f64InfMag)
include hneg hfin

theorem pack_sum_nearest (v : F64) :
    (f64Int (f64Pack neg (roundMag s.natAbs 0)) - s).natAbs ≤ (f64Int v - s).natAbs := by
  rw [int_distance_eq fun hs => (f64Sign_pack_roundMag _ _ _).trans (hneg hs)]
  refine le_trans ?_ (units_distance_le v s)
  simpa only [Nat.pow_zero, Nat.mul_one] using pack_roundMag_nearest neg hfin v

theorem pack_sum_tie {v : F64} (hv : f64Int v ≠ f64Int (f64Pack neg (roundMag s.natAbs 0)))
    (htie : (f64Int (f64Pack neg (roundMag s.natAbs 0)) - s).natAbs = (f64Int v - s).natAbs) :
    f64Frac (f64Pack neg (roundMag s.natAbs 0)) % 2 = 0 := by
  have hunits := f64Units_ne_of_tie (fun hs => by rw [hs]; exact f64Units_pack_zero neg) hv htie
  have hnear := pack_roundMag_nearest neg hfin v
  refine pack_roundMag_tie neg hfin hunits (le_antisymm hnear ?_)
  rw [int_distance_eq fun hs => (f64Sign_pack_roundMag _ _ _).trans (hneg hs)] at htie
  simpa only [Nat.pow_zero, Nat.mul_one] using htie ▸ units_distance_le v s

end

/-- An infinity plus itself or a finite operand, in either order, is that infinity (R11). -/
theorem f64Add_infinite {a b : F64} (he : f64Expo a = 2047) (hf : f64Frac a = 0)
    (hb : f64Expo b = 2047 → f64Frac b = 0 ∧ f64Sign b = f64Sign a) : f64Add a b = some a ∧ f64Add b a = some a := by
  have ha := isNan_eq_false fun _ => hf
  have hinf := isInf_eq_true he hf
  by_cases hbe : f64Expo b = 2047
  · obtain ⟨hbf, hbs⟩ := hb hbe
    have hab : b = a := f64_ext hbs (hbe.trans he.symm) (hbf.trans hf.symm)
    subst hab
    simp [f64Add, ha, hinf]
  · simp [f64Add, ha, hinf, not_special hbe]

/-- Settles O26: the sum of finite operands is their exact sum rounded once. -/
theorem sumIsNearest : Obligations.SumIsNearest := by
  intro a b
  refine ⟨fun ha hb => ?_, f64Add_infinite⟩
  obtain ⟨neg, hadd, hzero, hneg⟩ := f64Add_finite_pack ha hb
  generalize f64Int a + f64Int b = s at *
  generalize hk : 2098 = k, hl : 2044 = l
  have hfinite := roundMag_finite_iff_of_eq hk hl s.natAbs 0
  rw [Nat.pow_zero, Nat.mul_one] at hfinite
  refine ⟨_, hadd, fun hs => ⟨?_, (f64Sign_pack_roundMag _ _ _).trans (hzero hs)⟩,
    fun hs => (f64Sign_pack_roundMag _ _ _).trans (hneg hs), fun hge => ?_, fun hlt => ?_⟩
  · rw [hs]
    exact f64Units_pack_zero neg
  · exact pack_roundMag_infinite neg fun hfin => absurd (hfinite.1 hfin) (Nat.not_lt.2 hge)
  · have hfin := hfinite.2 hlt
    exact ⟨(finite_pack_iff _ _ _).2 hfin, fun v _ => ⟨pack_sum_nearest hneg hfin v, pack_sum_tie hneg hfin⟩⟩

end Sys2Proof.Proofs
end

section
/-! PROOFS. The whole machine (R16, R18, R23, R24, R61): what every instruction does, said in one equation (`exec_answers`), and the
four statements about the state that follow from it. -/

namespace Sys2Proof.Proofs

open Sys2Proof Sys2Proof.Machine

/-! ### PROCESS_FRAME is its frame's class (R68, R118) -/

theorem decodeFrame_ne_processFrame (now now' : Time) (f f' : Frame) : decodeFrame now f ≠ .processFrame now' f' := by
  rw [decodeFrame]
  cases classify f <;> exact Instr.noConfusion

theorem selectClass_ne_processFrame (i : Instr) (now : Time) (f : Frame) : selectClass i ≠ .processFrame now f := by
  cases i
  case processFrame now' f' => exact decodeFrame_ne_processFrame now' now f' f
  all_goals exact Instr.noConfusion

theorem selectClass_eq_self {i : Instr} (h : ∀ now f, i ≠ .processFrame now f) : selectClass i = i := by
  cases i
  case processFrame now f => exact absurd rfl (h now f)
  all_goals rfl

@[simp] theorem selectClass_selectClass (i : Instr) : selectClass (selectClass i) = selectClass i :=
  selectClass_eq_self (selectClass_ne_processFrame i)

@[simp] theorem exec_selectClass (i : Instr) (s : State) : exec (selectClass i) s = exec i s := by
  cases i
  case processFrame now f =>
    simp only [selectClass, decodeFrame, exec, execProcessFrame]
    cases classify f <;> rfl
  all_goals rfl

@[simp] theorem sweepTime_selectClass (i : Instr) : sweepTime (selectClass i) = sweepTime i := by
  cases i
  case processFrame now f =>
    rw [selectClass, decodeFrame]
    cases classify f <;> rfl
  all_goals rfl

/-- No frame's class is RESET, which has no time. -/
theorem selectClass_eq_reset {i : Instr} (h : selectClass i = .reset) : i = .reset := by
  cases i
  case processFrame now f =>
    have htime := sweepTime_selectClass (.processFrame now f)
    rw [h] at htime
    cases htime
  all_goals exact h

/-! ### What an instruction does -/

/-- What an instruction's own rule does to the table that its sweep leaves (R24); an instruction with no rule on the table keeps it. -/
def ownRule (inst : Instance) (i : Instr) (t : Table) : Table :=
  match selectClass i with
  | .tpCmRts now h size np _ pgn => (ruleRts inst now h.sa h.da size np pgn t).1
  | .tpCmCts now h _ _ _ _ _ => markReverse now h.sa h.da t
  | .tpCmEoma now h _ _ _ _ => markReverse now h.sa h.da t
  | .tpCmBam now h size np _ pgn => (ruleBam inst now h.sa h.da size np pgn t).1
  | .tpCmAbort _ h _ _ _ _ _ => (ruleAbort h.sa h.da t).1
  | .tpDtEmpty _ h _ => tableErase t h.sa h.da
  | .tpDt now h q c => (ruleDt now h.sa h.da q (chunkBytes h.dlc c) t).1
  | .reset => []
  | _ => t

/-- Every instruction sweeps if it has a time, runs its own rule on the swept table, and answers once with the sweep's events; what
else it answers, and the count of free values after it, is a function of the parameters, the table and the count before it. -/
def Answers (i : Instr) : Prop :=
  ∃ answer : Instance → Table → Nat → Nat × Reply, ∀ s : State,
    exec i s = .next (respond
      { s with table := ownRule s.inst i (tableSwept i s), freeDraws := (answer s.inst s.table s.freeDraws).1 }
      (eventsOf i s) (answer s.inst s.table s.freeDraws).2)

/-- The count of free values and the reply that the end of a frame gives for its rule's result (R118). -/
def frameAnswer (inst : Instance) (k : Nat) : FrameResult → Nat × Reply
  | .nothing => (k, replyOk .none)
  | .raised e x => (k, raise e x)
  | .message m => (k + msgDraws inst m, msgDecode inst k m)

theorem finishFrame_eq (s : State) (ev : List Event) (r : FrameResult) :
    finishFrame s ev r =
      respond { s with freeDraws := (frameAnswer s.inst s.freeDraws r).1 } ev (frameAnswer s.inst s.freeDraws r).2 := by
  cases r <;> rfl

/-- A frame class answers as `Answers` says, when its rule is its own rule on the table. -/
theorem answers_of_runFrame {i : Instr} (now : Time) (rule : Instance → Table → Table × FrameResult)
    (hexec : ∀ s, exec i s = runFrame now (rule s.inst) s := by intro; rfl)
    (htime : sweepTime i = some now := by rfl)
    (hown : ∀ inst t, ownRule inst i t = (rule inst t).1 := by intro _ _; rfl) : Answers i := by
  refine ⟨fun inst t k => frameAnswer inst k (rule inst (sweepTable inst now t)).2, fun s => ?_⟩
  simp only [hexec, runFrame, finishFrame_eq, hown, tableSwept, eventsOf, htime]

/-- The instructions other than PROCESS_FRAME, one by one. -/
theorem answers_of_class {i : Instr} (hclass : ∀ now f, i ≠ .processFrame now f) : Answers i := by
  cases i with
  | processFrame now f => exact absurd rfl (hclass now f)
  | decodeId id =>
    exact ⟨fun _ _ k => (k, if idValid id then replyOk (.identifier (idRecord (idFields id)))
      else raise .invalidIdentifier (.arbId id)), fun _ => rfl⟩
  | encodeId x => exact ⟨fun _ _ k => (k, replyOk (.word (idWord x))), fun _ => rfl⟩
  | decodeSpn n p d => exact ⟨fun inst _ k => (k + 1, signalReply (decodeSignal inst k p d)), fun _ => rfl⟩
  | tick now => exact ⟨fun _ _ k => (k, replyOk .none), fun _ => rfl⟩
  | querySession now src dst =>
    exact ⟨fun inst t k => (k, replyOk (queryResult (sweepTable inst now t) src dst)), fun _ => rfl⟩
  | reset => exact ⟨fun _ _ k => (k, replyOk .none), fun _ => rfl⟩
  | illegalOpcode7 => exact ⟨fun _ _ k => (k, raise .illegalCommand (.cw reservedOpcodeWord)), fun _ => rfl⟩
  | illegalReserved cw => exact ⟨fun _ _ k => (k, raise .illegalCommand (.cw cw)), fun _ => rfl⟩
  | frameStandard now a dlc d => exact answers_of_runFrame now (fun _ t => (t, .raised .invalidIdentifier (.arbId a)))
  | frameInvalidId now a dlc d => exact answers_of_runFrame now (fun _ t => (t, .raised .invalidIdentifier (.arbId a)))
  | tpCmShort now h d =>
    exact answers_of_runFrame now (fun _ t => (t, .raised .malformedTransportControl (.addresses h.sa h.da)))
  | tpCmRts now h size np mx pgn => exact answers_of_runFrame now (fun inst => ruleRts inst now h.sa h.da size np pgn)
  | tpCmCts now h count next r3 r4 pgn => exact answers_of_runFrame now (fun _ => ruleCts now h.sa h.da)
  | tpCmEoma now h size np r4 pgn => exact answers_of_runFrame now (fun _ => ruleEoma now h.sa h.da)
  | tpCmBam now h size np r4 pgn => exact answers_of_runFrame now (fun inst => ruleBam inst now h.sa h.da size np pgn)
  | tpCmAbort now h reason r2 r3 r4 pgn => exact answers_of_runFrame now (fun _ => ruleAbort h.sa h.da)
  | tpCmReserved now h d => exact answers_of_runFrame now (fun _ t => (t, .nothing))
  | tpDtEmpty now h d => exact answers_of_runFrame now (fun _ => ruleDtEmpty h.sa h.da)
  | tpDt now h q c => exact answers_of_runFrame now (fun _ => ruleDt now h.sa h.da q (chunkBytes h.dlc c))
  | frameSingle now x dlc d => exact answers_of_runFrame now (fun _ t => (t, .message (singleMessage x dlc d)))

/-- What every instruction does; PROCESS_FRAME does what its frame's class does. -/
theorem exec_answers (i : Instr) : Answers i := by
  obtain ⟨answer, h⟩ := answers_of_class (selectClass_ne_processFrame i)
  refine ⟨answer, fun s => ?_⟩
  rw [← exec_selectClass, h]
  simp only [ownRule, tableSwept, eventsOf, selectClass_selectClass, sweepTime_selectClass]

/-- The parameters and the table after an instruction. -/
theorem exec_inst_table {i : Instr} {s t : State} (h : exec i s = .next t) :
    t.inst = s.inst ∧ t.table = ownRule s.inst i (tableSwept i s) := by
  obtain ⟨answer, hexec⟩ := exec_answers i
  rw [hexec] at h
  cases h
  exact ⟨rfl, rfl⟩

/-- Settles O50: every instruction ends by responding. -/
theorem everyInstructionAnswersOnce : Obligations.EveryInstructionAnswersOnce := by
  intro i s
  obtain ⟨answer, hexec⟩ := exec_answers i
  exact ⟨_, _, hexec s, rfl, rfl, rfl⟩

/-- Settles O56: `Answers` reads nothing of the state but the table, the parameters and the count of free values. -/
theorem earlierResponsesDoNotMatter : Obligations.EarlierResponsesDoNotMatter := by
  intro i s s' htable hinst hdraws
  obtain ⟨answer, hexec⟩ := exec_answers i
  have hswept : tableSwept i s = tableSwept i s' := by simp only [tableSwept, htable, hinst]
  have hevents : eventsOf i s = eventsOf i s' := by simp only [eventsOf, htable, hinst]
  refine ⟨_, _, _, hexec s, hexec s', ⟨rfl, rfl, rfl⟩, ⟨?_, rfl, rfl⟩, ?_, ?_⟩
  · simp only [respond_outbox, htable, hinst, hdraws, hevents]
  · simp only [respond_table, hinst, hswept]
  · simp only [respond_freeDraws, htable, hinst, hdraws]

/-! ### The keys a rule writes (R24) -/

theorem tableGet_announce_of_ne {inst : Instance} {t : Table} {v : Session} {a b : Byte} (h : ¬(a = v.src ∧ b = v.dst)) :
    tableGet (announce inst t v).1 a b = tableGet t a b := by
  rcases announce_cases inst t v with ⟨-, -, e⟩ | ⟨-, e⟩ <;> rw [e]
  rw [tableGet_tableSet, if_neg h]

theorem tableGet_tableErase_of_ne {t : Table} {src dst a b : Byte} (h : ¬(a = src ∧ b = dst)) :
    tableGet (tableErase t src dst) a b = tableGet t a b := by
  rw [tableGet_tableErase, if_neg h]

/-- BAM writes only its sender's broadcast key (R106). -/
theorem tableGet_ruleBam_of_ne {inst : Instance} {now : Time} {sa da np a b : Byte} {size : BitVec 16} {pgn : BitVec 24}
    {t : Table} (h : ¬(a = sa ∧ b = 0xFF#8)) :
    tableGet (ruleBam inst now sa da size np pgn t).1 a b = tableGet t a b := by
  rw [ruleBam]
  split
  · exact tableGet_tableErase_of_ne h
  split
  · exact tableGet_tableErase_of_ne h
  · exact tableGet_announce_of_ne h

/-- RTS writes only the key of its two addresses (R107). -/
theorem tableGet_ruleRts_of_ne {inst : Instance} {now : Time} {sa da np a b : Byte} {size : BitVec 16} {pgn : BitVec 24}
    {t : Table} (h : ¬(a = sa ∧ b = da)) :
    tableGet (ruleRts inst now sa da size np pgn t).1 a b = tableGet t a b := by
  rw [ruleRts]
  split
  · rfl
  split
  · exact tableGet_tableErase_of_ne h
  · exact tableGet_announce_of_ne h

/-- TP.DT writes only the key of its two addresses (R112, R113). -/
theorem tableGet_ruleDt_of_ne {now : Time} {sa da q a b : Byte} {chunk : List Byte} {t : Table} (h : ¬(a = sa ∧ b = da)) :
    tableGet (ruleDt now sa da q chunk t).1 a b = tableGet t a b := by
  rcases ruleDt_cases now sa da q chunk t with ⟨-, e⟩ | ⟨v, -, -, e⟩ | ⟨v, -, -, -, e⟩ | ⟨v, -, -, -, e⟩ <;> rw [e]
  · exact tableGet_tableErase_of_ne h
  · exact tableGet_tableErase_of_ne h
  · rw [tableGet_tableSet, if_neg h]

/-- An instruction's own rule writes only the keys its frame names. -/
theorem tableGet_ownRule_of_untouched {inst : Instance} {i : Instr} {t : Table} {a b : Byte} (hreset : i ≠ .reset)
    (h : (a, b) ∉ touchedKeys i) : tableGet (ownRule inst i t) a b = tableGet t a b := by
  rw [touchedKeys] at h
  rw [ownRule]
  generalize hc : selectClass i = c at h ⊢
  cases c
  case tpCmRts => exact tableGet_ruleRts_of_ne (by simpa using h)
  case tpCmCts => rw [tableGet_markReverse, if_neg (by simpa using h)]
  case tpCmEoma => rw [tableGet_markReverse, if_neg (by simpa using h)]
  case tpCmBam => exact tableGet_ruleBam_of_ne (by simpa using h)
  case tpCmAbort => rw [tableGet_ruleAbort, if_neg (by simpa using h)]
  case tpDtEmpty => exact tableGet_tableErase_of_ne (by simpa using h)
  case tpDt => exact tableGet_ruleDt_of_ne (by simpa using h)
  case reset => exact absurd (selectClass_eq_reset hc) hreset
  all_goals rfl

/-- Settles O55: the table after an instruction is its own rule's on the swept table. -/
theorem sessionsAreIsolated : Obligations.SessionsAreIsolated := by
  intro i s t a b hexec hreset htouched
  rw [(exec_inst_table hexec).2, tableGet_ownRule_of_untouched hreset htouched]

/-! ### The invariant of the stored sessions (R23) -/

theorem tableInv_ruleBam {inst : Instance} {t : Table} (h : TableInv inst t) (now : Time) (sa da np : Byte)
    (size : BitVec 16) (pgn : BitVec 24) : TableInv inst (ruleBam inst now sa da size np pgn t).1 := by
  rw [ruleBam]
  split
  · exact tableInv_erase h sa 0xFF#8
  split
  · exact tableInv_erase h sa 0xFF#8
  · rename_i hc
    exact tableInv_announce h (sessionInv_new (by simpa using hc) (by simp) (fun _ => rfl))

theorem tableInv_ruleRts {inst : Instance} {t : Table} (h : TableInv inst t) (now : Time) (sa da np : Byte)
    (size : BitVec 16) (pgn : BitVec 24) : TableInv inst (ruleRts inst now sa da size np pgn t).1 := by
  rw [ruleRts]
  split
  · exact h
  split
  · exact tableInv_erase h sa da
  · rename_i hda hc
    exact tableInv_announce h (sessionInv_new (by simpa using hc) (by simp [hda]) nofun)

theorem tableInv_tableSwept {s : State} (h : TableInv s.inst s.table) (i : Instr) : TableInv s.inst (tableSwept i s) := by
  rw [tableSwept]
  split
  · exact tableInv_sweep h _
  · exact h

/-- Every instruction's own rule keeps the table's invariant. -/
theorem tableInv_ownRule {inst : Instance} {t : Table} (h : TableInv inst t) (i : Instr) :
    TableInv inst (ownRule inst i t) := by
  rw [ownRule]
  cases selectClass i
  case tpCmRts => exact tableInv_ruleRts h ..
  case tpCmCts => exact tableInv_markReverse h ..
  case tpCmEoma => exact tableInv_markReverse h ..
  case tpCmBam => exact tableInv_ruleBam h ..
  case tpCmAbort => exact tableInv_erase (tableInv_erase h ..) ..
  case tpDtEmpty => exact tableInv_erase h ..
  case tpDt => exact tableInv_ruleDt h _ _ _ _ (chunkBytes_length_le ..)
  case reset => exact tableInv_empty inst
  all_goals exact h

/-- Every instruction keeps the invariant of the state. -/
theorem exec_keeps_stateInv {i : Instr} {s t : State} (h : StateInv s) (hexec : exec i s = .next t) : StateInv t := by
  obtain ⟨hinst, htable⟩ := exec_inst_table hexec
  rw [stateInv_iff] at h ⊢
  rw [hinst, htable]
  exact tableInv_ownRule (tableInv_tableSwept h i) i

/-- A step that answers a next state has no command to take, or runs the oldest one decoded (R42). -/
theorem step_cases {s t : State} (h : step s = .next t) :
    (s.inbox = [] ∧ t = s) ∨
    (∃ c rest i, s.inbox = c :: rest ∧ decode c = .ok i ∧ exec i { s with inbox := rest } = .next t) := by
  rcases hin : s.inbox with _ | ⟨c, rest⟩
  · rw [step, takeCommand_empty hin] at h
    cases h
    exact .inl ⟨rfl, rfl⟩
  · simp only [step, takeCommand_next hin] at h
    rcases hdec : decode c with e | i
    · cases e
      simp only [hdec] at h
      cases h
    · simp only [hdec] at h
      exact .inr ⟨c, rest, i, rfl, hdec, h⟩

/-- Settles O52: taking a command changes neither table nor parameters, and every instruction keeps the invariant. -/
theorem stepKeepsTheSessionInvariants : Obligations.StepKeepsTheSessionInvariants := by
  intro s t hinv hstep
  rcases step_cases hstep with ⟨-, rfl⟩ | ⟨c, rest, i, -, -, hexec⟩
  · exact hinv
  · have htaken : StateInv { s with inbox := rest } := (stateInv_iff _).2 ((stateInv_iff s).1 hinv)
    exact exec_keeps_stateInv htaken hexec

end Sys2Proof.Proofs
end

section
/-! PROOFS. The step's dispatch: the oldest command presented, decoded and run (R42). -/

namespace Sys2Proof.Proofs

open Sys2Proof Sys2Proof.Machine

/-- Settles O1: what the step takes is the oldest command and the state without it (`takeCommand_next`), and its decoding selects
the branch that runs the instruction. -/
theorem stepRunsTheDecodedCommand : Obligations.StepRunsTheDecodedCommand := by
  intro s c rest i hin hdec
  have htake : takeCommand s = some (c, { s with inbox := rest }) := takeCommand_next hin
  simp only [step, htake, hdec]

end Sys2Proof.Proofs
end

section
/-! PROOFS. The decoders and the encoders (R49 to R60, R67, R68, R76): the row a command word selects, the class of a frame, that
decoding and encoding undo each other, and what each pseudo-instruction stands for. -/

namespace Sys2Proof.Proofs

open Sys2Proof Sys2Proof.Machine

/-! ### The row of a command word (R59, R67) -/

theorem bitsAt_reserved_ne_zero {cw : Word} (h : 8 ≤ cw.toNat) : bitsAt cw 3 29 ≠ 0 := by
  have := cw.isLt
  rw [ne_eq, ← BitVec.toNat_inj, bitsAt_toNat]
  simp only [BitVec.ofNat_eq_ofNat, BitVec.toNat_ofNat]
  omega

theorem decode_illegalReserved {c : PortCommand} (h : bitsAt c.cw 3 29 ≠ 0) : decode c = .ok (.illegalReserved c.cw) := by
  rw [decode, if_pos h]

theorem decode_processFrame {c : PortCommand} (h : c.cw = 0#32) : decode c = .ok (.processFrame c.now c.frame) := by
  rw [decode, h]; rfl

theorem decode_decodeId {c : PortCommand} (h : c.cw = 1#32) : decode c = .ok (.decodeId c.id) := by
  rw [decode, h]; rfl

theorem decode_encodeId {c : PortCommand} (h : c.cw = 2#32) : decode c = .ok (.encodeId c.fields) := by
  rw [decode, h]; rfl

theorem decode_decodeSpn {c : PortCommand} (h : c.cw = 3#32) (hcount : c.payload.length = c.n.toNat) :
    decode c = .ok (.decodeSpn c.n c.payload c.dfn) := by
  rw [decode, h]
  exact if_pos hcount

theorem decode_tick {c : PortCommand} (h : c.cw = 4#32) : decode c = .ok (.tick c.now) := by
  rw [decode, h]; rfl

theorem decode_querySession {c : PortCommand} (h : c.cw = 5#32) :
    decode c = .ok (.querySession c.now c.src c.dst) := by
  rw [decode, h]; rfl

theorem decode_reset {c : PortCommand} (h : c.cw = 6#32) : decode c = .ok .reset := by
  rw [decode, h]; rfl

theorem decode_illegalOpcode7 {c : PortCommand} (h : c.cw = 7#32) : decode c = .ok .illegalOpcode7 := by
  rw [decode, h]; rfl

/-- Settles O3: one equation of the decoder for each row. -/
theorem commandWordSelectsTheRow : Obligations.CommandWordSelectsTheRow := by
  intro c
  exact ⟨fun h => decode_illegalReserved (bitsAt_reserved_ne_zero h), decode_processFrame, decode_decodeId, decode_encodeId,
    decode_decodeSpn, decode_tick, decode_querySession, decode_reset, decode_illegalOpcode7⟩

/-- Settles O8: every word and frame is closed, so both decoders run on it. -/
theorem writtenWordsDecode : Obligations.WrittenWordsDecode := by
  unfold Obligations.WrittenWordsDecode
  decide

/-! ### The class of a frame (R68) -/

/-- An identifier is invalid exactly when a bit of 31:29 is set (R50). -/
theorem idValid_eq_false_iff (id : Word) : idValid id = false ↔ id.toNat / 2 ^ 29 ≠ 0 := by
  rw [← Bool.not_eq_true, idValid_iff]
  omega

/-- The PGN of a PDU1 format with R = DP = 0 is read from bits 25:16 alone, and no other identifier has that PGN (R78). -/
theorem pgnOf_idFields_eq_iff (id : Word) {pf : Nat} (hpf : pf < 240) :
    (pgnOf (idFields id)).toNat = pf * 2 ^ 8 ↔ id.toNat / 2 ^ 16 % 2 ^ 10 = pf := by
  rw [pgnOf_toNat]
  simp only [idFields, bitsAt_toNat]
  split <;> omega

theorem pgnOf_eq_pgnTpCm_iff (id : Word) :
    pgnOf (idFields id) = pgnTpCm ↔ id.toNat / 2 ^ 16 % 2 ^ 10 = 0x0EC := by
  rw [← BitVec.toNat_inj]
  exact pgnOf_idFields_eq_iff id (pf := 0xEC) (by decide)

theorem pgnOf_eq_pgnTpDt_iff (id : Word) :
    pgnOf (idFields id) = pgnTpDt ↔ id.toNat / 2 ^ 16 % 2 ^ 10 = 0x0EB := by
  rw [← BitVec.toNat_inj]
  exact pgnOf_idFields_eq_iff id (pf := 0xEB) (by decide)

/-- Settles O4: each condition of the table, read as a number, is the one that `classify` tests in its place. -/
theorem frameClassIsReadFromTheFrame : Obligations.FrameClassIsReadFromTheFrame := by
  refine ⟨fun f => ?_, fun id => ⟨?_, ?_⟩⟩
  · simp only [classify, cmClass, frameLen, idValid_eq_false_iff, pgnOf_eq_pgnTpCm_iff, pgnOf_eq_pgnTpDt_iff]
    rfl
  · exact pgnOf_idFields_eq_iff id (pf := 0xEC) (by decide)
  · exact pgnOf_idFields_eq_iff id (pf := 0xEB) (by decide)

/-- Settles O59: the operands are the model's own fields of the frame, each a slice or a concatenation read as a number. -/
theorem frameOperandsAreReadFromTheFrame : Obligations.FrameOperandsAreReadFromTheFrame := by
  intro now f
  have hsize : (cmSize f.data).toNat = f.data.b1.toNat + f.data.b2.toNat * 2 ^ 8 := by
    rw [cmSize, append_toNat, Nat.add_comm]
  have hpgn : (cmPgn f.data).toNat = f.data.b5.toNat + f.data.b6.toNat * 2 ^ 8 + f.data.b7.toNat * 2 ^ 16 := by
    rw [cmPgn, append_toNat, append_toNat]
    omega
  have hsa : (idFields f.arbId).sa.toNat = f.arbId.toNat % 2 ^ 8 := by
    rw [idFields, bitsAt_toNat, Nat.pow_zero, Nat.div_one]
  refine ⟨tpHeader f, cmSize f.data, cmPgn f.data, idFields f.arbId, bitsAt_toNat .., hsa, bitsAt_toNat .., rfl, hsize, hpgn,
    bitsAt_toNat .., bitsAt_toNat .., bitsAt_toNat .., bitsAt_toNat .., bitsAt_toNat .., hsa, ?_⟩
  refine ⟨?_, ?_, ?_, ?_, ?_, ?_, ?_, ?_, ?_, ?_, ?_, ?_⟩ <;> (intro hclass; simp only [decodeFrame, hclass, dtLanes])

/-! ### Decoding undoes encoding (R59, R60) -/

theorem roundTrip_of_command {i : Instr} (h : decode (encode i) = .ok i) :
    Except.map selectClass (decode (encode i)) = .ok (selectClass i) := by
  rw [h]; rfl

/-- An instruction that encodes as a frame comes back when the frame decodes to it. -/
theorem roundTrip_of_frame {i : Instr} {now : Time} {f : Frame} (hencode : encode i = portFrame now f)
    (hdecode : decodeFrame now f = i) : Except.map selectClass (decode (encode i)) = .ok (selectClass i) := by
  have hself : selectClass i = i :=
    selectClass_eq_self fun now' f' => hdecode ▸ decodeFrame_ne_processFrame now now' f f'
  rw [hencode, decode_portFrame, hself, ← hdecode]
  rfl

theorem classify_of_invalid {a : Word} (dlc : BitVec 4) (d : Lanes) (hid : idValid a = false) :
    classify ⟨1, a, dlc, d⟩ = .invalidId := by
  simp [classify, hid]

/-- The class of a control frame of eight bytes is that of its control byte. -/
theorem classify_tpCm_of_full {h : TpHeader} (d : Lanes) (hlen : frameLen h.dlc = 8) :
    classify (tpFrame 0xEC h d) = cmClass d.b0 := by
  rw [classify_tpCm, if_neg (by omega)]

/-- Settles O6: a command comes back by its row of the command decoder, a frame class by the class of its frame. -/
theorem decodeOfEncodeIsTheInstruction : Obligations.DecodeOfEncodeIsTheInstruction := by
  intro i hwf
  cases i with
  | processFrame now f => rw [encode, decode_portFrame]; rfl
  | decodeId id => exact roundTrip_of_command (decode_decodeId rfl)
  | encodeId x => exact roundTrip_of_command (decode_encodeId rfl)
  | decodeSpn n p d => exact roundTrip_of_command (decode_decodeSpn rfl (beq_iff_eq.1 hwf))
  | tick now => exact roundTrip_of_command (decode_tick rfl)
  | querySession now src dst => exact roundTrip_of_command (decode_querySession rfl)
  | reset => exact roundTrip_of_command (decode_reset rfl)
  | illegalOpcode7 => exact roundTrip_of_command (decode_illegalOpcode7 rfl)
  | illegalReserved cw => exact roundTrip_of_command (decode_illegalReserved (bne_iff_ne.1 hwf))
  | frameStandard now a dlc d => exact roundTrip_of_frame rfl rfl
  | frameInvalidId now a dlc d =>
    have hid : idValid a = false := by simpa [WellFormed, wellFormed] using hwf
    exact roundTrip_of_frame rfl (by rw [decodeFrame, classify_of_invalid dlc d hid])
  | tpCmShort now h d =>
    have hclass : classify (tpFrame 0xEC h d) = .cmShort := by rw [classify_tpCm, if_pos (of_decide_eq_true hwf)]
    exact roundTrip_of_frame rfl (by rw [decodeFrame, hclass, tpHeader_tpFrame, tpFrame_data])
  | tpCmRts now h size np mx pgn =>
    have hclass : classify (tpFrame 0xEC h (announceLanes 0x10 size np mx pgn)) = .rts :=
      classify_tpCm_of_full _ (beq_iff_eq.1 hwf)
    refine roundTrip_of_frame rfl ?_
    rw [decodeFrame, hclass, tpHeader_tpFrame, tpFrame_data, cmSize_announceLanes, cmPgn_announceLanes]
    rfl
  | tpCmCts now h count next r3 r4 pgn =>
    have hclass : classify (tpFrame 0xEC h (controlLanes 0x11 count next r3 r4 pgn)) = .cts :=
      classify_tpCm_of_full _ (beq_iff_eq.1 hwf)
    refine roundTrip_of_frame rfl ?_
    rw [decodeFrame, hclass, tpHeader_tpFrame, tpFrame_data, cmPgn_controlLanes]
    rfl
  | tpCmEoma now h size np r4 pgn =>
    have hclass : classify (tpFrame 0xEC h (announceLanes 0x13 size np r4 pgn)) = .eoma :=
      classify_tpCm_of_full _ (beq_iff_eq.1 hwf)
    refine roundTrip_of_frame rfl ?_
    rw [decodeFrame, hclass, tpHeader_tpFrame, tpFrame_data, cmSize_announceLanes, cmPgn_announceLanes]
    rfl
  | tpCmBam now h size np r4 pgn =>
    have hclass : classify (tpFrame 0xEC h (announceLanes 0x20 size np r4 pgn)) = .bam :=
      classify_tpCm_of_full _ (beq_iff_eq.1 hwf)
    refine roundTrip_of_frame rfl ?_
    rw [decodeFrame, hclass, tpHeader_tpFrame, tpFrame_data, cmSize_announceLanes, cmPgn_announceLanes]
    rfl
  | tpCmAbort now h reason r2 r3 r4 pgn =>
    have hclass : classify (tpFrame 0xEC h (controlLanes 0xFF reason r2 r3 r4 pgn)) = .abort :=
      classify_tpCm_of_full _ (beq_iff_eq.1 hwf)
    refine roundTrip_of_frame rfl ?_
    rw [decodeFrame, hclass, tpHeader_tpFrame, tpFrame_data, cmPgn_controlLanes]
    rfl
  | tpCmReserved now h d =>
    obtain ⟨hlen, hcontrol⟩ := Bool.and_eq_true_iff.1 hwf
    have hclass : classify (tpFrame 0xEC h d) = .cmReserved := by
      rw [classify_tpCm_of_full d (beq_iff_eq.1 hlen), beq_iff_eq.1 hcontrol]
    exact roundTrip_of_frame rfl (by rw [decodeFrame, hclass, tpHeader_tpFrame, tpFrame_data])
  | tpDtEmpty now h d =>
    have hclass : classify (tpFrame 0xEB h d) = .dtEmpty := by rw [classify_tpDt, if_pos (beq_iff_eq.1 hwf)]
    exact roundTrip_of_frame rfl (by rw [decodeFrame, hclass, tpHeader_tpFrame, tpFrame_data])
  | tpDt now h q c =>
    have hclass : classify (tpFrame 0xEB h ⟨q, c.c0, c.c1, c.c2, c.c3, c.c4, c.c5, c.c6⟩) = .dt := by
      rw [classify_tpDt, if_neg (bne_iff_ne.1 hwf)]
    exact roundTrip_of_frame rfl (by rw [decodeFrame, hclass, tpHeader_tpFrame, tpFrame_data]; rfl)
  | frameSingle now x dlc d =>
    have hclass : classify ⟨1, idWord x, dlc, d⟩ = .single := by
      obtain ⟨hcm, hdt⟩ := Bool.and_eq_true_iff.1 hwf
      simp [classify, bne_iff_ne.1 hcm, bne_iff_ne.1 hdt]
    exact roundTrip_of_frame rfl (by rw [decodeFrame, hclass, idFields_idWord])

/-! ### Encoding undoes decoding (R51, R53, R56) -/

/-- The class of a control frame of eight bytes keeps every lane: the control byte is fixed by the class (R52). -/
theorem encode_decodeFrame_of_control (now : Time) {f : Frame} (h : classify f = cmClass f.data.b0) :
    encode (decodeFrame now f) = portFrame now (tpFrame 0xEC (tpHeader f) f.data) := by
  have hannounce := announceLanes_of_lanes f.data
  have hcontrol := controlLanes_of_lanes f.data
  rcases cmClass_cases f.data.b0 with ⟨hk, hb⟩ | ⟨hk, hb⟩ | ⟨hk, hb⟩ | ⟨hk, hb⟩ | ⟨hk, hb⟩ | hk <;> rw [decodeFrame, h, hk]
  · rw [encode, ← hb, hannounce]
  · rw [encode, ← hb, hcontrol]
  · rw [encode, ← hb, hannounce]
  · rw [encode, ← hb, hannounce]
  · rw [encode, ← hb, hcontrol]
  · rw [encode]

/-- Settles O7: a transport frame is rebuilt from its header and lanes, since its PGN fixes R, DP and PF; every other class keeps
the whole frame or its identifier's fields. -/
theorem encodeOfDecodeIsTheFrame : Obligations.EncodeOfDecodeIsTheFrame := by
  intro now f
  rcases classify_cases f with ⟨hc, hide⟩ | ⟨hc, hide, -⟩ | ⟨hc, hide, hid, hpgn⟩ | ⟨hc, hide, hid, hpgn⟩ | ⟨hc, hide, hid, -⟩
  · rw [decodeFrame, hc, encode, ← hide]
  · rw [decodeFrame, hc, encode, ← hide]
  · have hframe : tpFrame 0xEC (tpHeader f) f.data = f := tpFrame_tpHeader hide hid (by decide) (by rw [hpgn]; rfl)
    split at hc
    · rw [decodeFrame, hc, encode, hframe]
    · rw [encode_decodeFrame_of_control now hc, hframe]
  · have hframe : tpFrame 0xEB (tpHeader f) f.data = f := tpFrame_tpHeader hide hid (by decide) (by rw [hpgn]; rfl)
    split at hc
    · rw [decodeFrame, hc, encode, hframe]
    · rw [decodeFrame, hc, encode]
      exact congrArg (portFrame now) hframe
  · rw [decodeFrame, hc, encode, idWord_idFields ((idValid_iff _).1 hid), ← hide]

/-! ### The pseudo-instructions of the spec's assembler (R76) -/

/-- The identifier a pseudo-instruction writes: priority 7, R = DP = 0. -/
theorem idWord_asm (pf dst src : Byte) :
    idWord ⟨7, 0, 0, pf, dst, src⟩ =
      BitVec.ofNat 32 (0x1C000000 + pf.toNat * 2 ^ 16 + dst.toNat * 2 ^ 8 + src.toNat) := by
  rw [← BitVec.toNat_inj, idWord_toNat]
  have h7 : (7 : BitVec 3).toNat = 7 := rfl
  have h0 : (0 : BitVec 1).toNat = 0 := rfl
  simp only [h7, h0, BitVec.toNat_ofNat]
  omega

/-- A byte of a word as a number (R54, R55). -/
theorem byteLane_eq_ofNat {n : Nat} (x : BitVec n) (lo : Nat) : x.extractLsb' lo 8 = BitVec.ofNat 8 (x.toNat / 2 ^ lo) := by
  rw [BitVec.extractLsb', Nat.shiftRight_eq_div_pow]

theorem ofNat8_mod (n : Nat) : BitVec.ofNat 8 (n % 2 ^ 8) = BitVec.ofNat 8 n := by
  rw [← BitVec.toNat_inj, BitVec.toNat_ofNat, BitVec.toNat_ofNat, Nat.mod_mod]

theorem announceLanes_eq_ofNat (control : Byte) (size : BitVec 16) (np b4 : Byte) (pgn : BitVec 24) :
    announceLanes control size np b4 pgn =
      ⟨control, BitVec.ofNat 8 (size.toNat % 2 ^ 8), BitVec.ofNat 8 (size.toNat / 2 ^ 8), np, b4,
        BitVec.ofNat 8 (pgn.toNat % 2 ^ 8), BitVec.ofNat 8 (pgn.toNat / 2 ^ 8 % 2 ^ 8),
        BitVec.ofNat 8 (pgn.toNat / 2 ^ 16)⟩ := by
  simp only [announceLanes, byteLane_eq_ofNat, ofNat8_mod, Nat.pow_zero, Nat.div_one]

theorem controlLanes_eq_ofNat (control b1 b2 b3 b4 : Byte) (pgn : BitVec 24) :
    controlLanes control b1 b2 b3 b4 pgn =
      ⟨control, b1, b2, b3, b4, BitVec.ofNat 8 (pgn.toNat % 2 ^ 8), BitVec.ofNat 8 (pgn.toNat / 2 ^ 8 % 2 ^ 8),
        BitVec.ofNat 8 (pgn.toNat / 2 ^ 16)⟩ := by
  simp only [controlLanes, byteLane_eq_ofNat, ofNat8_mod, Nat.pow_zero, Nat.div_one]

/-- The control frame of a pseudo-instruction: priority 7 and eight bytes. -/
theorem tpFrame_asmHeader (src dst : Byte) (d : Lanes) :
    tpFrame 0xEC (asmHeader src dst) d =
      ⟨1, BitVec.ofNat 32 (0x1CEC0000 + dst.toNat * 2 ^ 8 + src.toNat), 8, d⟩ := by
  rw [tpFrame, asmHeader, idWord_asm]
  rfl

/-- The lengths a TP.DT line of one to seven chunk bytes writes are those of a data frame. -/
theorem frameLen_of_chunk {n : Nat} (hn : n ≤ 7) : frameLen (BitVec.ofNat 4 (n + 1)) ≠ 0 := by
  rw [frameLen, BitVec.toNat_ofNat]
  omega

/-- Settles O9: each line is the encoding of its class with the operands written, so O6 gives its decoding; the frame's words and
bytes are then read as numbers. -/
theorem pseudoInstructionsExpand : Obligations.PseudoInstructionsExpand := by
  intro t src dst np k next reason seq size pgn chunk
  refine ⟨⟨?_, decodeOfEncodeIsTheInstruction (.tpCmBam t (asmHeader src 0xFF) size np 0xFF pgn) rfl⟩,
    ⟨?_, decodeOfEncodeIsTheInstruction (.tpCmRts t (asmHeader src dst) size np 0xFF pgn) rfl⟩,
    ⟨?_, decodeOfEncodeIsTheInstruction (.tpCmCts t (asmHeader src dst) k next 0xFF 0xFF pgn) rfl⟩,
    ⟨?_, decodeOfEncodeIsTheInstruction (.tpCmEoma t (asmHeader src dst) size np 0xFF pgn) rfl⟩,
    ⟨?_, decodeOfEncodeIsTheInstruction (.tpCmAbort t (asmHeader src dst) reason 0xFF 0xFF 0xFF pgn) rfl⟩,
    fun _ hmax => ⟨?_, decodeOfEncodeIsTheInstruction (.tpDt t ⟨7, src, dst, BitVec.ofNat 4 (chunk.length + 1)⟩ seq
      ⟨chunk.getD 0 0, chunk.getD 1 0, chunk.getD 2 0, chunk.getD 3 0, chunk.getD 4 0, chunk.getD 5 0, chunk.getD 6 0⟩)
      (bne_iff_ne.2 (frameLen_of_chunk hmax))⟩⟩
  · rw [assemble, encode, tpFrame_asmHeader, announceLanes_eq_ofNat]
    rfl
  · rw [assemble, encode, tpFrame_asmHeader, announceLanes_eq_ofNat]
  · rw [assemble, encode, tpFrame_asmHeader, controlLanes_eq_ofNat]
  · rw [assemble, encode, tpFrame_asmHeader, announceLanes_eq_ofNat]
  · rw [assemble, encode, tpFrame_asmHeader, controlLanes_eq_ofNat]
  · rw [assemble, idWord_asm]
    rfl

end Sys2Proof.Proofs
end

section
/-! PROOFS. What a frame's answer can be (R50, R51, R61, R118, R130): which bytes of a frame matter, which statuses its class raises,
and the shape of every response. -/

namespace Sys2Proof.Proofs

open Sys2Proof Sys2Proof.Machine

/-! ### The payload is all of the lanes that PROCESS_FRAME reads (R51) -/

theorem frameLen_le (dlc : BitVec 4) : frameLen dlc ≤ 8 := Nat.min_le_right ..

/-- A frame of at least one byte has its sequence number for its first payload byte, and the chunk after it (R56). -/
theorem framePayload_eq_cons {dlc : BitVec 4} (d : Lanes) (h : frameLen dlc ≠ 0) :
    framePayload dlc d = d.b0 :: chunkBytes dlc (dtLanes d) := by
  obtain ⟨n, hn⟩ := Nat.exists_eq_succ_of_ne_zero h
  rw [framePayload, chunkBytes, hn]
  rfl

/-- The payload of a full frame holds every lane. -/
theorem lanes_eq_of_framePayload_eq {dlc : BitVec 4} {d d' : Lanes} (hlen : frameLen dlc = 8)
    (h : framePayload dlc d = framePayload dlc d') : d = d' := by
  cases d
  cases d'
  rw [framePayload, framePayload, hlen] at h
  cases h
  rfl

theorem framePayload_eq_of_lanes {dlc : BitVec 4} {d d' : Lanes}
    (h : ∀ k, k < frameLen dlc → (lanesList d)[k]? = (lanesList d')[k]?) : framePayload dlc d = framePayload dlc d' := by
  refine List.ext_getElem? fun k => ?_
  rw [framePayload, framePayload, List.getElem?_take, List.getElem?_take]
  split
  · exact h k ‹_›
  · rfl

/-- The class of a frame of fewer than eight bytes does not depend on its lanes (R68). -/
theorem classify_eq_of_short {ide : BitVec 1} {a : Word} {dlc : BitVec 4} (d d' : Lanes) (hlen : frameLen dlc < 8) :
    classify ⟨ide, a, dlc, d⟩ = classify ⟨ide, a, dlc, d'⟩ := by
  simp only [classify, if_pos hlen]

/-- A data frame's rule reads its chunk and none of the lanes past it (R56). -/
theorem execTpDt_congr (now : Time) {h : TpHeader} (q : Byte) {c c' : ChunkLanes} (s : State)
    (hchunk : chunkBytes h.dlc c = chunkBytes h.dlc c') : execTpDt now h q c s = execTpDt now h q c' s := by
  rw [execTpDt, execTpDt, hchunk]

/-- Frames that differ only in their lanes, with the same payload, are answered the same. -/
theorem exec_processFrame_congr (now : Time) (ide : BitVec 1) (a : Word) {dlc : BitVec 4} {d d' : Lanes} (s : State)
    (hpay : framePayload dlc d = framePayload dlc d') :
    exec (.processFrame now ⟨ide, a, dlc, d⟩) s = exec (.processFrame now ⟨ide, a, dlc, d'⟩) s := by
  rcases (frameLen_le dlc).lt_or_eq with hlen | hlen
  · have hsame := classify_eq_of_short (ide := ide) (a := a) d d' hlen
    rw [exec, exec, execProcessFrame, execProcessFrame, ← hsame]
    rcases classify_cases ⟨ide, a, dlc, d⟩ with ⟨hc, -⟩ | ⟨hc, -⟩ | ⟨hc, -⟩ | ⟨hc, -⟩ | ⟨hc, -⟩
    · rw [hc]; rfl
    · rw [hc]; rfl
    · rw [hc, if_pos hlen]; rfl
    · by_cases hempty : frameLen dlc = 0
      · rw [hc, if_pos hempty]; rfl
      · rw [framePayload_eq_cons d hempty, framePayload_eq_cons d' hempty, List.cons.injEq] at hpay
        obtain ⟨hseq, hchunk⟩ := hpay
        rw [hc, if_neg hempty]
        calc execTpDt now (tpHeader ⟨ide, a, dlc, d⟩) d.b0 (dtLanes d) s
          _ = execTpDt now (tpHeader ⟨ide, a, dlc, d⟩) d.b0 (dtLanes d') s := execTpDt_congr now d.b0 s hchunk
          _ = execTpDt now (tpHeader ⟨ide, a, dlc, d'⟩) d'.b0 (dtLanes d') s := by rw [hseq]; rfl
    · rw [hc]
      simp only [execFrameSingle, singleMessage, hpay]
  · rw [lanes_eq_of_framePayload_eq hlen hpay]

/-- Settles O32: the lanes below `min(dlc, 8)` are the payload, and only the payload is read. -/
theorem lanesPastTheLengthAreIgnored : Obligations.LanesPastTheLengthAreIgnored := by
  intro now ide a dlc d d' s hlanes
  exact exec_processFrame_congr now ide a s (framePayload_eq_of_lanes hlanes)

/-! ### What a frame class raises (R118, R130) -/

/-- A result that raises, if anything, one of the statuses that name a source and a destination. -/
def AddressResult : FrameResult → Prop
  | .raised e x => statusInfoOk e x = true ∧ ∃ sa da, x = .addresses sa da
  | .nothing => True
  | .message _ => True

theorem addressResult_raised {e : Code} {sa da : Byte} (h : statusInfoOk e (.addresses sa da) = true) :
    AddressResult (.raised e (.addresses sa da)) := ⟨h, sa, da, rfl⟩

theorem addressResult_announce (inst : Instance) (t : Table) (v : Session) : AddressResult (announce inst t v).2 := by
  rcases announce_cases inst t v with ⟨-, -, e⟩ | ⟨-, e⟩ <;> rw [e]
  · exact addressResult_raised rfl
  · exact trivial

theorem addressResult_ruleBam (inst : Instance) (now : Time) (sa da : Byte) (size : BitVec 16) (np : Byte) (pgn : BitVec 24)
    (t : Table) : AddressResult (ruleBam inst now sa da size np pgn t).2 := by
  rw [ruleBam]
  split
  · exact addressResult_raised rfl
  split
  · exact addressResult_raised rfl
  · exact addressResult_announce ..

theorem addressResult_ruleRts (inst : Instance) (now : Time) (sa da : Byte) (size : BitVec 16) (np : Byte) (pgn : BitVec 24)
    (t : Table) : AddressResult (ruleRts inst now sa da size np pgn t).2 := by
  rw [ruleRts]
  split
  · exact addressResult_raised rfl
  split
  · exact addressResult_raised rfl
  · exact addressResult_announce ..

theorem addressResult_completed (src dst : Byte) (v : Session) : AddressResult (completed src dst v) := by
  rw [completed]
  split
  · exact addressResult_raised rfl
  · exact trivial

theorem addressResult_ruleDt (now : Time) (sa da q : Byte) (chunk : List Byte) (t : Table) :
    AddressResult (ruleDt now sa da q chunk t).2 := by
  rcases ruleDt_cases now sa da q chunk t with ⟨-, e⟩ | ⟨v, -, -, e⟩ | ⟨v, -, -, -, e⟩ | ⟨v, -, -, -, e⟩ <;> rw [e]
  · exact trivial
  · exact addressResult_raised rfl
  · exact addressResult_completed ..
  · exact trivial

/-- The rule that PROCESS_FRAME runs for a class of an extended frame with a valid identifier (R118); no other instruction has one. -/
def frameRule (inst : Instance) : Instr → Option (Table → Table × FrameResult)
  | .tpCmShort _ h _ => some fun t => (t, .raised .malformedTransportControl (.addresses h.sa h.da))
  | .tpCmRts now h size np _ pgn => some (ruleRts inst now h.sa h.da size np pgn)
  | .tpCmCts now h _ _ _ _ _ => some (ruleCts now h.sa h.da)
  | .tpCmEoma now h _ _ _ _ => some (ruleEoma now h.sa h.da)
  | .tpCmBam now h size np _ pgn => some (ruleBam inst now h.sa h.da size np pgn)
  | .tpCmAbort _ h _ _ _ _ _ => some (ruleAbort h.sa h.da)
  | .tpCmReserved _ _ _ => some fun t => (t, .nothing)
  | .tpDtEmpty _ h _ => some (ruleDtEmpty h.sa h.da)
  | .tpDt now h q c => some (ruleDt now h.sa h.da q (chunkBytes h.dlc c))
  | .frameSingle _ x dlc d => some fun t => (t, .message (singleMessage x dlc d))
  | _ => none

theorem exec_eq_runFrame {i : Instr} {s : State} {rule : Table → Table × FrameResult} (h : frameRule s.inst i = some rule) :
    ∃ now, exec i s = runFrame now rule s := by
  cases i <;> cases h <;> exact ⟨_, rfl⟩

/-- A valid extended frame raises no status but those that name a source and a destination (R105 to R114). -/
theorem addressResult_frameRule {inst : Instance} {i : Instr} {rule : Table → Table × FrameResult}
    (h : frameRule inst i = some rule) (t : Table) : AddressResult (rule t).2 := by
  cases i <;> cases h
  case tpCmShort => exact addressResult_raised rfl
  case tpCmRts => exact addressResult_ruleRts ..
  case tpCmCts => exact trivial
  case tpCmEoma => exact trivial
  case tpCmBam => exact addressResult_ruleBam ..
  case tpCmAbort => exact trivial
  case tpCmReserved => exact trivial
  case tpDtEmpty => exact addressResult_raised rfl
  case tpDt => exact addressResult_ruleDt ..
  case frameSingle => exact trivial

/-- A valid extended frame has one of the classes outside the first two rows (R68). -/
theorem classify_of_valid {f : Frame} (hide : f.ide = 1) (hid : idValid f.arbId = true) :
    classify f ≠ .standard ∧ classify f ≠ .invalidId := by
  rw [classify, if_neg (by rw [hide]; decide), if_neg (by rw [hid]; decide), cmClass]
  split_ifs <;> exact ⟨nofun, nofun⟩

theorem frameRule_decodeFrame (inst : Instance) (now : Time) {f : Frame} (hide : f.ide = 1) (hid : idValid f.arbId = true) :
    ∃ rule, frameRule inst (decodeFrame now f) = some rule := by
  obtain ⟨hstandard, hinvalid⟩ := classify_of_valid hide hid
  rw [decodeFrame]
  cases hc : classify f
  case standard => exact absurd hc hstandard
  case invalidId => exact absurd hc hinvalid
  all_goals exact ⟨_, rfl⟩

/-! ### The shape of a response (R61, R130, R132) -/

/-- The part of a response's shape that the command's own rule decides (R61, R130). -/
structure WellShaped (q : Reply) : Prop where
  info   : statusInfoOk q.status q.info = true
  result : q.status ≠ .ok → q.result = .none

theorem wellShaped_replyOk (r : Result) : WellShaped (replyOk r) := ⟨rfl, fun h => absurd rfl h⟩

theorem wellShaped_raise {e : Code} {x : Info} (h : statusInfoOk e x = true) : WellShaped (raise e x) := ⟨h, fun _ => rfl⟩

theorem wellShaped_decodeSignal (inst : Instance) (k : Nat) (pay : List Byte) (d : SpnDef) :
    WellShaped (signalReply (decodeSignal inst k pay d)) := by
  cases hmal : defMalformed d
  case true =>
    rw [decodeSignal_malformed hmal]
    exact wellShaped_raise rfl
  case false =>
    by_cases hshort : fieldStart d + d.bitLength.toNat > 8 * pay.length
    · rw [decodeSignal_short hmal hshort]
      exact wellShaped_raise rfl
    · obtain ⟨sig, hsig, -⟩ := decodeSignal_ok (inst := inst) (k := k) hmal hshort
      rw [hsig]
      exact wellShaped_replyOk _

theorem wellShaped_msgDecode (inst : Instance) (k : Nat) (m : Message) : WellShaped (msgDecode inst k m) := by
  rcases msgDecode_cases inst k m with ⟨-, -, e⟩ | ⟨-, -, e⟩ | ⟨pd, -, e⟩ <;> rw [e]
  · exact wellShaped_raise rfl
  · exact wellShaped_replyOk _
  · exact wellShaped_replyOk _

/-- The end of a frame whose rule raises only statuses with their information (R118). -/
theorem wellShaped_frameAnswer {inst : Instance} {k : Nat} {o : FrameResult}
    (h : ∀ e x, o = .raised e x → statusInfoOk e x = true) : WellShaped (frameAnswer inst k o).2 := by
  cases o with
  | nothing => exact wellShaped_replyOk _
  | message m => exact wellShaped_msgDecode inst k m
  | raised e x => exact wellShaped_raise (h e x rfl)

/-- A frame class that raises only statuses with addresses is never answered InvalidIdentifier. -/
theorem frameAnswer_status_ne (inst : Instance) (k : Nat) {o : FrameResult} (h : AddressResult o) :
    (frameAnswer inst k o).2.status ≠ .invalidIdentifier := by
  cases o with
  | nothing => exact nofun
  | message m =>
    rcases msgDecode_cases inst k m with ⟨-, -, e⟩ | ⟨-, -, e⟩ | ⟨pd, -, e⟩ <;> rw [frameAnswer, e] <;> exact nofun
  | raised e x =>
    obtain ⟨hinfo, sa, da, rfl⟩ := h
    rintro rfl
    exact Bool.false_ne_true hinfo

/-- A frame class answers its rule's result with the sweep's events (R118). -/
theorem runFrame_answered (now : Time) (rule : Table → Table × FrameResult) (s : State) :
    ∃ t q, runFrame now rule s = .next t ∧
      q = (frameAnswer s.inst s.freeDraws (rule (sweepTable s.inst now s.table)).2).2 ∧
      Answered s t ⟨Reply.status q, sweepEvents s.inst now s.table, q.result, q.info⟩ := by
  refine ⟨_, _, rfl, rfl, ?_⟩
  rw [finishFrame_eq]
  exact ⟨rfl, rfl, rfl⟩

/-- A command has one response: two that end the same outbox are equal (R61). -/
theorem answered_unique {s t : State} {r r' : Response} (h : Answered s t r) (h' : Answered s t r') : r = r' := by
  have hout := h.outbox
  rw [h'.outbox, List.append_cancel_left_eq, List.singleton_inj] at hout
  exact hout.symm

/-- An instruction that ends by responding, having changed at most the table and the count of free values. -/
theorem respond_responseOk {s u : State} {ev : List Event} {q : Reply} (hq : WellShaped q)
    (hev : ∀ e ∈ ev, e.code = .sessionTimeout) (hout : u.outbox = s.outbox := by rfl) (hinst : u.inst = s.inst := by rfl)
    (hin : u.inbox = s.inbox := by rfl) :
    ∃ t r, Host.Outcome.next (φ := Fault) (ρ := Refusal) (respond u ev q) = .next t ∧ Answered s t r ∧ ResponseOk r := by
  refine ⟨respond u ev q, ⟨q.status, ev, q.result, q.info⟩, rfl, ⟨?_, hinst, hin⟩, ⟨hq.info, hq.result, hev⟩⟩
  rw [respond_outbox, hout]

/-- A frame class whose rule raises only statuses with their information. -/
theorem runFrame_responseOk (now : Time) {rule : Table → Table × FrameResult} (s : State)
    (h : ∀ T e x, (rule T).2 = .raised e x → statusInfoOk e x = true) :
    ∃ t r, runFrame now rule s = .next t ∧ Answered s t r ∧ ResponseOk r := by
  obtain ⟨t, q, hrun, rfl, hans⟩ := runFrame_answered now rule s
  have hshape := wellShaped_frameAnswer (inst := s.inst) (k := s.freeDraws) (h (sweepTable s.inst now s.table))
  exact ⟨t, _, hrun, hans, hshape.info, hshape.result, fun _ => sweepEvents_code⟩

theorem frameRule_responseOk {i : Instr} {s : State} {rule : Table → Table × FrameResult}
    (h : frameRule s.inst i = some rule) : ∃ t r, exec i s = .next t ∧ Answered s t r ∧ ResponseOk r := by
  obtain ⟨now, hexec⟩ := exec_eq_runFrame h
  rw [hexec]
  refine runFrame_responseOk now s fun T e x hraised => ?_
  have haddress := addressResult_frameRule h T
  rw [hraised] at haddress
  exact haddress.1

/-- The two classes of a refused identifier (R50, R119). -/
theorem identifierRefused_responseOk (now : Time) (a : Word) (s : State) :
    ∃ t r, runFrame now (fun t => (t, .raised .invalidIdentifier (.arbId a))) s = .next t ∧ Answered s t r ∧
      ResponseOk r := by
  refine runFrame_responseOk now s fun T e x hraised => ?_
  cases hraised
  rfl

/-- The instructions other than PROCESS_FRAME, one by one. -/
theorem class_responseOk {i : Instr} (hclass : ∀ now f, i ≠ .processFrame now f) (s : State) :
    ∃ t r, exec i s = .next t ∧ Answered s t r ∧ ResponseOk r := by
  cases i
  case processFrame now f => exact absurd rfl (hclass now f)
  case decodeId id =>
    refine respond_responseOk ?_ nofun
    split
    · exact wellShaped_replyOk _
    · exact wellShaped_raise rfl
  case encodeId x => exact respond_responseOk (wellShaped_replyOk _) nofun
  case decodeSpn n p d => exact respond_responseOk (wellShaped_decodeSignal s.inst s.freeDraws p d) nofun
  case tick now => exact respond_responseOk (wellShaped_replyOk _) fun _ => sweepEvents_code
  case querySession now src dst => exact respond_responseOk (wellShaped_replyOk _) fun _ => sweepEvents_code
  case reset => exact respond_responseOk (wellShaped_replyOk _) nofun
  case illegalOpcode7 => exact respond_responseOk (wellShaped_raise rfl) nofun
  case illegalReserved cw => exact respond_responseOk (wellShaped_raise rfl) nofun
  case frameStandard now a dlc d => exact identifierRefused_responseOk now a s
  case frameInvalidId now a dlc d => exact identifierRefused_responseOk now a s
  all_goals exact frameRule_responseOk rfl

/-- Settles O51: an instruction's only response (`answered_unique`) is the well-shaped one of its class. -/
theorem everyResponseIsWellShaped : Obligations.EveryResponseIsWellShaped := by
  intro i s t r hexec hans
  obtain ⟨t', r', hexec', hans', hok⟩ := class_responseOk (selectClass_ne_processFrame i) s
  rw [exec_selectClass, hexec] at hexec'
  cases hexec'
  rwa [answered_unique hans hans']

/-! ### InvalidIdentifier (R50) -/

theorem idValid_eq_false {id : Word} (h : 2 ^ 29 ≤ id.toNat) : idValid id = false := by
  rw [idValid_eq_false_iff]
  omega

theorem processFrame_status_ne {now : Time} {f : Frame} {s t : State} {r : Response} (hide : f.ide = 1)
    (hid : idValid f.arbId = true) (hexec : exec (.processFrame now f) s = .next t) (hans : Answered s t r) :
    r.status ≠ .invalidIdentifier := by
  obtain ⟨rule, hrule⟩ := frameRule_decodeFrame s.inst now hide hid
  obtain ⟨now', hrun⟩ := exec_eq_runFrame hrule
  obtain ⟨t', q, hnext, rfl, hans'⟩ := runFrame_answered now' rule s
  rw [← exec_selectClass, selectClass, hrun, hnext] at hexec
  cases hexec
  rw [answered_unique hans hans']
  exact frameAnswer_status_ne _ _ (addressResult_frameRule hrule _)

/-- Settles O28: the class of a frame with an invalid word raises it; a class of a valid one raises only statuses with addresses;
DECODE_ID tests the word itself. -/
theorem invalidIdentifierFrameIsRejected : Obligations.InvalidIdentifierFrameIsRejected := by
  refine ⟨fun now a dlc d s hbig => ?_, fun now a dlc d s t r hsmall hexec hans => ?_, fun a s => ?_⟩
  · have hclass := classify_of_invalid dlc d (idValid_eq_false hbig)
    have hsame : exec (.processFrame now ⟨1, a, dlc, d⟩) s = exec (.frameInvalidId now a dlc d) s := by
      rw [exec, execProcessFrame, hclass]; rfl
    obtain ⟨t, hrun, hans, htable, hdraws⟩ := runFrame_raised (now := now) (s := s)
      (rule := fun t => (t, .raised .invalidIdentifier (.arbId a))) rfl
    exact ⟨t, hsame.trans hrun, hrun, hans, htable, hdraws⟩
  · exact processFrame_status_ne (f := ⟨1, a, dlc, d⟩) rfl ((idValid_iff a).2 hsmall) hexec hans
  · refine ⟨_, _, rfl, respond_answered .., rfl, rfl, fun hbig => ?_, fun hsmall => ?_⟩
    · simp [idValid_eq_false hbig]
    · simp [(idValid_iff a).2 hsmall]

end Sys2Proof.Proofs
end

section
/-! PROOFS. The identifier codec (R77 to R87): what DECODE_ID and ENCODE_ID answer, that each undoes the other, and what the PGN
depends on. -/

namespace Sys2Proof.Proofs

open Sys2Proof Sys2Proof.Machine

/-! ### The fields of an identifier as numbers (R80) -/

/-- The priority of a valid identifier is all of its bits from bit 26 up. -/
theorem idFields_prio_toNat {id : Word} (h : id.toNat < 2 ^ 29) : (idFields id).prio.toNat = id.toNat / 2 ^ 26 := by
  rw [idFields, bitsAt_toNat]
  omega

theorem idFields_r_toNat (id : Word) : (idFields id).r.toNat = id.toNat / 2 ^ 25 % 2 := bitsAt_toNat ..

theorem idFields_dp_toNat (id : Word) : (idFields id).dp.toNat = id.toNat / 2 ^ 24 % 2 := bitsAt_toNat ..

theorem idFields_pf_toNat (id : Word) : (idFields id).pf.toNat = id.toNat / 2 ^ 16 % 2 ^ 8 := bitsAt_toNat ..

theorem idFields_ps_toNat (id : Word) : (idFields id).ps.toNat = id.toNat / 2 ^ 8 % 2 ^ 8 := bitsAt_toNat ..

theorem idFields_sa_toNat (id : Word) : (idFields id).sa.toNat = id.toNat % 2 ^ 8 := by
  rw [idFields, bitsAt_toNat, Nat.pow_zero, Nat.div_one]

/-! ### The answers (R82, R83) -/

theorem exec_decodeId_valid {id : Word} (h : id.toNat < 2 ^ 29) (s : State) :
    exec (.decodeId id) s = .next (respond s [] (replyOk (.identifier (idRecord (idFields id))))) := by
  rw [exec, execDecodeId, if_pos ((idValid_iff id).2 h)]

theorem exec_decodeId_invalid {id : Word} (h : 2 ^ 29 ≤ id.toNat) (s : State) :
    exec (.decodeId id) s = .next (respond s [] (raise .invalidIdentifier (.arbId id))) := by
  rw [exec, execDecodeId, if_neg (by simp [idValid_eq_false h])]

theorem exec_encodeId (x : IdFields) (s : State) :
    exec (.encodeId x) s = .next (respond s [] (replyOk (.word (idWord x)))) := by rw [exec, execEncodeId]

/-- The PDU format of a record, as a number (R77). -/
theorem idRecord_pdu_toNat (x : IdFields) : (idRecord x).pdu.toNat = if x.pf.toNat < 240 then 0 else 1 := by
  by_cases h : x.pf.toNat < 240 <;> simp [idRecord, isPdu1, h]

/-- The destination address of a record, as a number (R79). -/
theorem idRecord_da_toNat (x : IdFields) :
    (idRecord x).da.toNat = if x.pf.toNat < 240 then x.ps.toNat else 0xFF := by
  rw [idRecord, daOf_eq, apply_ite BitVec.toNat]
  rfl

/-- Settles O10: a valid word is answered with the record of its fields, any other word is refused. -/
theorem decodeIdFollowsItsRule : Obligations.DecodeIdFollowsItsRule := by
  intro id s
  rcases Nat.lt_or_ge id.toNat (2 ^ 29) with hsmall | hbig
  · refine ⟨_, _, exec_decodeId_valid hsmall s, respond_answered .., rfl, rfl, rfl, fun _ => ?_,
      fun hbig => absurd hsmall (Nat.not_lt.2 hbig)⟩
    exact ⟨idRecord (idFields id), rfl, rfl, rfl, idFields_prio_toNat hsmall, idFields_r_toNat id, idFields_dp_toNat id,
      idFields_pf_toNat id, idFields_ps_toNat id, idFields_sa_toNat id, idRecord_pdu_toNat _, idRecord_da_toNat _, pgnOf_toNat _⟩
  · exact ⟨_, _, exec_decodeId_invalid hbig s, respond_answered .., rfl, rfl, rfl,
      fun hsmall => absurd hsmall (Nat.not_lt.2 hbig), fun _ => ⟨rfl, rfl, rfl⟩⟩

/-- Settles O11: the word answered is the concatenation of the fields, whose number is the sum. -/
theorem encodeIdPlacesTheFields : Obligations.EncodeIdPlacesTheFields := by
  intro x s
  exact ⟨_, _, exec_encodeId x s, respond_answered .., rfl, rfl, idWord_toNat x⟩

/-! ### The round trips (R84, R85) -/

/-- Settles O12: the word of the fields of a valid identifier is that identifier (`idWord_idFields`). -/
theorem encodeOfDecodedIdIsTheId : Obligations.EncodeOfDecodedIdIsTheId := by
  intro id s s' hid
  refine ⟨_, _, _, exec_decodeId_valid hid s, respond_answered .., exec_encodeId _ s', ?_⟩
  have hword : idWord (idRecord (idFields id)).fields = id := idWord_idFields hid
  rw [hword]
  exact respond_answered ..

/-- Settles O13: the word of six fields is a valid identifier (`idWord_lt`) with those fields (`idFields_idWord`). -/
theorem decodeOfEncodedIdIsTheFields : Obligations.DecodeOfEncodedIdIsTheFields := by
  intro x s s'
  have hdecode := exec_decodeId_valid (idWord_lt x) s'
  rw [idFields_idWord] at hdecode
  exact ⟨_, _, _, _, exec_encodeId x s, respond_answered .., hdecode, respond_answered .., rfl, idRecord_pdu_toNat x,
    daOf_eq x, pgnOf_toNat x⟩

/-! ### What the PGN depends on (R86, R87) -/

/-- A field of a word is its own bits, so words that agree on them have one field. -/
theorem bitsAt_congr {v v' : Word} {lo w : Nat} (h : ∀ k, lo ≤ k → k < lo + w → v.getLsbD k = v'.getLsbD k) :
    bitsAt v lo w = bitsAt v' lo w := by
  ext i hi
  simp only [bitsAt, BitVec.getElem_extractLsb']
  exact h (lo + i) (Nat.le_add_right ..) (Nat.add_lt_add_left hi lo)

/-- In PDU1 the PGN is read from R, DP and PF alone. -/
theorem pgnOf_congr_of_pdu1 {x y : IdFields} (hpdu1 : x.pf.toNat < 240) (hr : x.r = y.r) (hdp : x.dp = y.dp)
    (hpf : x.pf = y.pf) : pgnOf x = pgnOf y := by
  rw [← BitVec.toNat_inj, pgnOf_toNat, pgnOf_toNat, ← hr, ← hdp, ← hpf, if_pos hpdu1, if_pos hpdu1]

/-- In PDU2 the low byte of the PGN is PS. -/
theorem pgnOf_low_byte_of_pdu2 {x : IdFields} (hpdu2 : 240 ≤ x.pf.toNat) : (pgnOf x).toNat % 2 ^ 8 = x.ps.toNat := by
  have := x.ps.isLt
  rw [pgnOf_toNat, if_neg (Nat.not_lt.2 hpdu2)]
  omega

/-- Settles O14: R, DP and PF lie outside bits 15:8, and PS is those bits. -/
theorem pgnFoldsPsOnlyInPdu2 : Obligations.PgnFoldsPsOnlyInPdu2 := by
  refine ⟨fun id id' hagree hpdu1 => ?_, fun id hpdu2 => ?_⟩
  · have hfield (w : Nat) {lo : Nat} (hlo : 16 ≤ lo) : bitsAt id lo w = bitsAt id' lo w :=
      bitsAt_congr fun k hk _ => hagree k (by omega)
    rw [← idFields_pf_toNat] at hpdu1
    exact pgnOf_congr_of_pdu1 hpdu1 (hfield 1 (by decide)) (hfield 1 (by decide)) (hfield 8 (by decide))
  · rw [← idFields_pf_toNat] at hpdu2
    rw [pgnOf_low_byte_of_pdu2 hpdu2, idFields_ps_toNat]

/-- A PGN with R = DP = 0, a PDU1 format and low byte 0 has no second reading: a PDU2 identifier has 240 or more in bits 15:8 of its
PGN. -/
theorem pgnOf_eq_pdu1_iff (x : IdFields) {pf : Byte} (hpf : pf.toNat < 240) :
    (pgnOf x).toNat = pf.toNat * 2 ^ 8 ↔ x.r = 0 ∧ x.dp = 0 ∧ x.pf = pf := by
  have := x.pf.isLt
  have := x.ps.isLt
  have hzero : (0 : BitVec 1).toNat = 0 := rfl
  rw [pgnOf_toNat, ← BitVec.toNat_inj, ← BitVec.toNat_inj, ← BitVec.toNat_inj, hzero]
  split <;> omega

/-- Settles O15: both PGNs are those of a PDU1 format (`pgnOf_eq_pdu1_iff`). -/
theorem transportPgnsArePdu1 : Obligations.TransportPgnsArePdu1 := by
  intro x
  have hcm := pgnOf_eq_pdu1_iff x (pf := 0xEC#8) (by decide)
  have hdt := pgnOf_eq_pdu1_iff x (pf := 0xEB#8) (by decide)
  refine ⟨hcm, hdt, fun hpgn => ?_⟩
  have hpdu1 : x.pf.toNat < 240 := by
    rcases hpgn with h | h
    · rw [(hcm.1 h).2.2]; decide
    · rw [(hdt.1 h).2.2]; decide
  exact ⟨hpdu1, by rw [daOf_eq, if_pos hpdu1]⟩

end Sys2Proof.Proofs
end

section
/-! PROOFS. The SPN Decode Engine (R88 to R98): what DECODE_SPN answers for each outcome of the signal decode, the bits of a field,
the default sentinel table, and when a conversion gives a NaN. -/

namespace Sys2Proof.Proofs

open Sys2Proof Sys2Proof.Machine

/-! ### The answer (R98) and its two errors (R89, R90) -/

/-- DECODE_SPN answers what the signal decode gives, and touches no session. -/
theorem exec_decodeSpn_of_decodeSignal (n : BitVec 16) {pay : List Byte} {d : SpnDef} {s : State} {r : SignalResult}
    (hr : decodeSignal s.inst s.freeDraws pay d = r) : ∃ t, exec (.decodeSpn n pay d) s = .next t ∧
      Answered s t ⟨(signalReply r).status, [], (signalReply r).result, (signalReply r).info⟩ ∧ t.table = s.table := by
  rw [exec, execDecodeSpn, hr]
  exact ⟨_, rfl, ⟨rfl, rfl, rfl⟩, rfl⟩

theorem defMalformed_eq_false {d : SpnDef} (hlen : 1 ≤ d.bitLength.toNat) (hlen' : d.bitLength.toNat ≤ 32)
    (hbit : d.startBit.toNat ≤ 7) : defMalformed d = false := by
  rw [← Bool.not_eq_true, defMalformed_iff]
  omega

/-- Settles O16: the definition check comes first, whatever the payload. -/
theorem malformedDefinitionIsReported : Obligations.MalformedDefinitionIsReported := by
  intro n pay d s hbad
  have hdecode := decodeSignal_malformed (inst := s.inst) (k := s.freeDraws) (pay := pay) ((defMalformed_iff d).2 hbad)
  obtain ⟨t, hexec⟩ := exec_decodeSpn_of_decodeSignal n hdecode
  exact ⟨t, hdecode, hexec⟩

/-- Settles O17: a definition in range passes the first check, and its field fails the second. -/
theorem shortPayloadIsReported : Obligations.ShortPayloadIsReported := by
  intro n pay d s hlen hlen' hbit hshort
  have hdecode := decodeSignal_short (inst := s.inst) (k := s.freeDraws) (defMalformed_eq_false hlen hlen' hbit) hshort
  obtain ⟨t, hexec⟩ := exec_decodeSpn_of_decodeSignal n hdecode
  exact ⟨t, hdecode, hexec⟩

/-! ### The bits of a field (R91, R92) -/

/-- A bit inside the payload is a bit of a byte that exists (R30, R31). -/
theorem exists_byte_of_payloadBit {pay : List Byte} {k : Nat} (hk : k < 8 * pay.length) :
    ∃ b, pay[k / 8]? = some b ∧ payloadBit pay k = b.getLsbD (k % 8) := by
  have hbyte : pay[k / 8]? = some pay[k / 8] := List.getElem?_eq_getElem (Nat.div_lt_of_lt_mul hk)
  exact ⟨_, hbyte, payloadBit_eq hbyte⟩

/-- Settles O18: bit `k` of the raw value is payload bit `b0 + k` below the field's length, and 0 above (`rawField_getLsbD`). -/
theorem decodeSpnExtractsTheField : Obligations.DecodeSpnExtractsTheField := by
  intro n pay d s hlen hlen' hbit hfits
  obtain ⟨sig, hdecode, hspn, hunit, hraw, -⟩ := decodeSignal_ok (inst := s.inst) (k := s.freeDraws)
    (defMalformed_eq_false hlen hlen' hbit) (Nat.not_lt.2 hfits)
  obtain ⟨t, hexec, hanswered, htable⟩ := exec_decodeSpn_of_decodeSignal n hdecode
  have hbits (k : Nat) := hraw ▸ rawField_getLsbD pay (fieldStart d) d.bitLength.toNat k hlen'
  refine ⟨t, sig, hdecode, hexec, hanswered, htable, hspn, hunit, fun k hk => ?_, fun k hk => ?_⟩
  · obtain ⟨b, hbyte, hval⟩ := exists_byte_of_payloadBit (pay := pay) (k := fieldStart d + k) (by rw [fieldStart]; omega)
    exact ⟨b, hbyte, by rw [hbits, decide_eq_true hk, Bool.true_and, hval, fieldStart]⟩
  · rw [hbits, decide_eq_false (Nat.not_lt.2 hk), Bool.false_and]

/-- A byte-aligned field of eight bits is its byte, zero-extended. -/
theorem rawField_byte {pay : List Byte} {i : Nat} {b : Byte} (hb : pay[i]? = some b) :
    rawField pay (i * 8) 8 = b.setWidth 32 := by
  refine BitVec.eq_of_getLsbD_eq fun k hk => ?_
  rw [rawField_getLsbD _ _ _ _ (by decide), BitVec.getLsbD_setWidth, decide_eq_true hk, Bool.true_and]
  rcases Nat.lt_or_ge k 8 with hlow | hhigh
  · have hbyte : pay[(i * 8 + k) / 8]? = some b := by rwa [show (i * 8 + k) / 8 = i by omega]
    rw [payloadBit_eq hbyte, show (i * 8 + k) % 8 = k by omega, decide_eq_true hlow, Bool.true_and]
  · rw [decide_eq_false (Nat.not_lt.2 hhigh), Bool.false_and, BitVec.getLsbD_of_ge b k hhigh]

/-! ### The sentinels (R93, R94) -/

/-- Property S1 of R93: no table decides it. -/
theorem sentinel_eight_allOnes (tab : SentinelTable) : sentinel tab 8 0xFF#32 = .notAvailable := if_pos ⟨rfl, rfl⟩

/-- Settles O20: the raw value is the byte (`rawField_byte`), which S1 classifies before any table is read. -/
theorem eightBitAllOnesIsNotAvailable : Obligations.EightBitAllOnesIsNotAvailable := by
  intro n pay d k s hlen hbit hstart hbyte
  have hlen8 : d.bitLength.toNat = 8 := congrArg BitVec.toNat hlen
  have hbit0 : d.startBit.toNat = 0 := congrArg BitVec.toNat hbit
  have hfield : fieldStart d = k * 8 := by rw [fieldStart, hstart, hbit0, Nat.add_zero]
  have hinside : k < pay.length := (List.getElem?_eq_some_iff.1 hbyte).1
  obtain ⟨⟨spnId, raw, cls, value, unit⟩, hdecode, hspn, hunit, hraw, hcls, hvalue⟩ :=
    decodeSignal_ok (inst := s.inst) (k := s.freeDraws) (pay := pay)
      (defMalformed_eq_false (by omega) (by omega) (by omega) : defMalformed d = false) (by omega)
  rw [hfield, hlen8, rawField_byte hbyte] at hraw
  subst hspn hunit hraw
  rw [hlen8] at hcls
  obtain rfl : cls = .notAvailable := hcls.trans (sentinel_eight_allOnes _)
  obtain rfl : value = 0#64 := hvalue
  exact exec_decodeSpn_of_decodeSignal n hdecode

theorem rangeHit_iff (len : Nat) (raw : Word) (r : SentinelRange) :
    rangeHit len raw r = true ↔ r.width = len ∧ r.lo.toNat ≤ raw.toNat ∧ raw.toNat ≤ r.hi.toNat := by
  simp only [rangeHit, Bool.and_eq_true, beq_iff_eq, decide_eq_true_eq, and_assoc]

/-- The error patterns of R94, as numbers. -/
theorem defaultSentinels_errors_any_iff (len : Nat) (raw : Word) :
    defaultSentinels.errors.any (rangeHit len raw) = true ↔
      len = 2 ∧ raw.toNat = 2 ∨ len = 4 ∧ raw.toNat = 0xE ∨ len = 8 ∧ raw.toNat = 0xFE ∨
      len = 16 ∧ raw.toNat / 256 = 0xFE ∨ len = 32 ∧ raw.toNat / 2 ^ 24 = 0xFE := by
  simp only [defaultSentinels, List.any_cons, List.any_nil, Bool.or_eq_true, rangeHit_iff, Bool.false_eq_true, or_false,
    BitVec.ofNat_eq_ofNat, BitVec.toNat_ofNat]
  omega

/-- The not-available patterns of R94, as numbers. -/
theorem defaultSentinels_notAvailable_any_iff (len : Nat) (raw : Word) :
    defaultSentinels.notAvailable.any (rangeHit len raw) = true ↔
      len = 2 ∧ raw.toNat = 3 ∨ len = 4 ∧ raw.toNat = 0xF ∨ len = 8 ∧ raw.toNat = 0xFF ∨
      len = 16 ∧ raw.toNat / 256 = 0xFF ∨ len = 32 ∧ raw.toNat / 2 ^ 24 = 0xFF := by
  simp only [defaultSentinels, List.any_cons, List.any_nil, Bool.or_eq_true, rangeHit_iff, Bool.false_eq_true, or_false,
    BitVec.ofNat_eq_ofNat, BitVec.toNat_ofNat]
  omega

/-- Settles O21: a width keeps its own row of the two lists of patterns, and a width without one has only values. At width 8, S1
says what the not-available row says. -/
theorem defaultSentinelsAreTheTable : Obligations.DefaultSentinelsAreTheTable := by
  intro len raw _ _ _
  simp only [sentinel, defaultSentinels_errors_any_iff, defaultSentinels_notAvailable_any_iff, ← BitVec.toNat_inj,
    BitVec.toNat_ofNat]
  by_cases h2 : len = 2
  · simp [h2]
  by_cases h4 : len = 4
  · simp [h4]
  by_cases h8 : len = 8
  · by_cases hS1 : raw.toNat = 0xFF <;> simp [h8, hS1]
  by_cases h16 : len = 16
  · simp [h16]
  by_cases h32 : len = 32
  · simp [h32]
  · simp [h2, h4, h8, h16, h32]

/-! ### The conversion (R95) -/

/-- A signal decode that gives a signal has passed both checks, so its class and value are those of `decodeSignal_ok`. -/
theorem decodeSignal_eq_ok {inst : Instance} {k : Nat} {pay : List Byte} {d : SpnDef} {sig : DecodedSignal}
    (h : decodeSignal inst k pay d = .ok sig) : sig.cls = sentinel inst.sentinels d.bitLength.toNat sig.raw ∧
      sig.value = if sig.cls = .value then physicalValue k sig.raw d.resolution d.offset else 0#64 := by
  cases hmal : defMalformed d
  case true => cases (decodeSignal_malformed hmal).symm.trans h
  case false =>
    by_cases hshort : fieldStart d + d.bitLength.toNat > 8 * pay.length
    · cases (decodeSignal_short hmal hshort).symm.trans h
    · obtain ⟨sig', hsig, -, -, -, hcls, hvalue⟩ := decodeSignal_ok (inst := inst) (k := k) hmal hshort
      cases hsig.symm.trans h
      exact ⟨hcls, hvalue⟩

/-- Settles O19: by the class, and for a VALUE by whether the conversion gives a number or a NaN. -/
theorem signalValueIsTheConversion : Obligations.SignalValueIsTheConversion := by
  intro inst k pay d sig hdecode
  obtain ⟨hcls, hvalue⟩ := decodeSignal_eq_ok hdecode
  refine ⟨hcls, fun hsentinel => ?_, fun v p hval hmul hadd => ?_, fun hval hnan => ?_⟩
  · rw [hvalue, if_neg hsentinel]
  · rw [hvalue, if_pos hval, physicalValue_some hmul hadd]
  · rw [hvalue, if_pos hval, physicalValue_none hnan]
    exact f64IsNan_nanBits _

/-! ### The NaN results (R96) -/

/-- Infinity has the greatest exponent and zero the least. -/
theorem isInf_not_isZero {a : F64} (h : f64IsInf a = true) : ¬f64IsZero a = true := by
  rw [f64IsInf, Bool.and_eq_true, beq_iff_eq] at h
  rw [isZero_eq_false (.inl (by omega))]
  exact Bool.false_ne_true

/-- Once the NaN operands are out, a product is a NaN only where one operand is infinite and the other, since an infinity is no
zero, is zero. -/
theorem f64Mul_eq_none_iff (a b : F64) : f64Mul a b = none ↔ f64IsNan a = true ∨ f64IsNan b = true ∨
    (f64IsInf a = true ∧ f64IsZero b = true) ∨ (f64IsZero a = true ∧ f64IsInf b = true) := by
  have ha := isInf_not_isZero (a := a)
  have hb := isInf_not_isZero (a := b)
  simp only [f64Mul, Bool.or_eq_true]
  split
  case isTrue hnan => exact iff_of_true rfl (by tauto)
  split
  case isTrue hnan hinf =>
    split
    case isTrue hzero => exact iff_of_true rfl (by tauto)
    case isFalse hzero => exact iff_of_false nofun (by tauto)
  case isFalse hnan hfin => exact iff_of_false nofun (by tauto)

/-- Once the NaN operands are out, a sum is a NaN only where both operands are infinite, of opposite signs. -/
theorem f64Add_eq_none_iff (a b : F64) : f64Add a b = none ↔ f64IsNan a = true ∨ f64IsNan b = true ∨
    (f64IsInf a = true ∧ f64IsInf b = true ∧ f64Sign a ≠ f64Sign b) := by
  simp only [f64Add, Bool.or_eq_true, Bool.and_eq_true, bne_iff_ne]
  split
  case isTrue hnan => exact iff_of_true rfl (by tauto)
  split
  case isTrue hnan ha =>
    split
    case isTrue hopposite => exact iff_of_true rfl (.inr (.inr ⟨ha, hopposite⟩))
    case isFalse hopposite => exact iff_of_false nofun (by tauto)
  case isFalse hnan ha =>
    refine iff_of_false ?_ (by tauto)
    split_ifs <;> exact nofun

/-- Settles O22: one equivalence for each operation, by the branches of its definition. -/
theorem nanArisesExactlyAsInBinary64 : Obligations.NanArisesExactlyAsInBinary64 :=
  fun a b => ⟨f64Mul_eq_none_iff a b, f64Add_eq_none_iff a b⟩

end Sys2Proof.Proofs
end

section
/-! PROOFS. The transport control frames (R105 to R111) and the empty data frame (R112): each class answers what its rule returns on
the swept table, and writes only the keys its frame names (`sessionsAreIsolated`). -/

namespace Sys2Proof.Proofs

open Sys2Proof Sys2Proof.Machine

/-! ### The classes that touch no session or only remove (R105, R110 to R112) -/

/-- Settles O33: the class raises and returns the swept table. -/
theorem shortControlFrameIsMalformed : Obligations.ShortControlFrameIsMalformed :=
  fun now h _ _ =>
    runFrame_raised (now := now) (rule := fun t => (t, .raised .malformedTransportControl (.addresses h.sa h.da))) rfl

/-- Settles O34: the class returns nothing and the swept table. -/
theorem reservedControlByteIsIgnored : Obligations.ReservedControlByteIsIgnored :=
  fun now _ _ _ => runFrame_nothing (now := now) (rule := fun t => (t, .nothing)) rfl

/-- Settles O38: Abort returns nothing, and its table reads as `tableGet_ruleAbort` says. -/
theorem abortRemovesBothOrientations : Obligations.AbortRemovesBothOrientations := by
  intro now h reason r2 r3 r4 pgn s
  obtain ⟨t, hexec, hanswered, htable, hdraws⟩ := runFrame_nothing (now := now) (rule := ruleAbort h.sa h.da) (s := s) rfl
  refine ⟨t, hexec, hanswered, hdraws, fun a b => ?_⟩
  rw [htable]
  exact tableGet_ruleAbort h.sa h.da _ a b

/-- Settles O39: the class raises and removes its own key. -/
theorem emptyDataFrameIsMalformed : Obligations.EmptyDataFrameIsMalformed := by
  intro now h d s
  obtain ⟨t, hexec, hanswered, htable, hdraws⟩ := runFrame_raised (now := now) (rule := ruleDtEmpty h.sa h.da) (s := s) rfl
  refine ⟨t, hexec, hanswered, hdraws, fun a b => ?_⟩
  rw [htable, tableGet_tableErase]

/-! ### CTS and EOMA (R108, R109) -/

/-- CTS and EOMA run one rule: both mark activity on the reverse session. -/
theorem exec_eq_markReverse {i : Instr} {now : Time} {h : TpHeader}
    (hi : (∃ count next r3 r4 pgn, i = .tpCmCts now h count next r3 r4 pgn) ∨
      (∃ size np r4 pgn, i = .tpCmEoma now h size np r4 pgn)) (s : State) :
    exec i s = runFrame now (fun t => (markReverse now h.sa h.da t, .nothing)) s := by
  rcases hi with ⟨count, next, r3, r4, pgn, rfl⟩ | ⟨size, np, r4, pgn, rfl⟩ <;> rfl

/-- Settles O37: the table of either frame reads as `tableGet_markReverse` says. -/
theorem ctsAndEomaMarkActivity : Obligations.CtsAndEomaMarkActivity := by
  intro i now h s hi
  obtain ⟨t, hexec, hanswered, htable, hdraws⟩ :=
    runFrame_nothing (now := now) (rule := fun t => (markReverse now h.sa h.da t, .nothing)) (s := s) rfl
  have hread (a b : Byte) := htable ▸ tableGet_markReverse now h.sa h.da (sweepTable s.inst now s.table) a b
  refine ⟨t, (exec_eq_markReverse hi s).trans hexec, hanswered, hdraws, fun a b hother => ?_, fun hnone => ?_,
    fun v hv hbam => ?_, fun v hv hrts => ?_⟩
  · rw [hread, if_neg hother]
  · rw [hread, if_pos ⟨rfl, rfl⟩, hnone, Option.map_none]
  · rw [hread, if_pos ⟨rfl, rfl⟩, hv, Option.map_some, if_neg (by rw [hbam]; decide)]
  · rw [hread, if_pos ⟨rfl, rfl⟩, hv, Option.map_some, if_pos hrts, touch]

/-! ### The announcements (R101, R102, R106, R107) -/

/-- A frame class whose rule announces `v` on the swept table refuses it when its key is absent from a full table, and stores it
otherwise (R102, R103). -/
theorem runFrame_announce {now : Time} {rule : Table → Table × FrameResult} {s : State} {v : Session}
    (hrule : rule (sweepTable s.inst now s.table) = announce s.inst (sweepTable s.inst now s.table) v) :
    ∃ (t : State) (r : Response), runFrame now rule s = .next t ∧ Answered s t r ∧ t.freeDraws = s.freeDraws ∧
      r.events = sweepEvents s.inst now s.table ∧ r.result = .none ∧
      (tableGet (sweepTable s.inst now s.table) v.src v.dst = none ∧
          (∃ m, s.inst.maxSessions = some m ∧ m.count ≤ (sweepTable s.inst now s.table).length) →
        r.status = .sessionTableFull ∧ r.info = .addresses v.src v.dst ∧ t.table = sweepTable s.inst now s.table) ∧
      (¬(tableGet (sweepTable s.inst now s.table) v.src v.dst = none ∧
          (∃ m, s.inst.maxSessions = some m ∧ m.count ≤ (sweepTable s.inst now s.table).length)) →
        r.status = .ok ∧ r.info = .none ∧ t.table = tableSet (sweepTable s.inst now s.table) v.src v.dst v) := by
  rw [← tableFull_iff]
  rcases announce_cases s.inst (sweepTable s.inst now s.table) v with ⟨habsent, hfull, hann⟩ | ⟨haccept, hann⟩
  · obtain ⟨t, hexec, hanswered, htable, hdraws⟩ := runFrame_raised (hrule.trans hann)
    exact ⟨t, _, hexec, hanswered, hdraws, rfl, rfl, fun _ => ⟨rfl, rfl, htable⟩,
      fun hnot => absurd ⟨habsent, hfull⟩ hnot⟩
  · obtain ⟨t, hexec, hanswered, htable, hdraws⟩ := runFrame_nothing (hrule.trans hann)
    refine ⟨t, _, hexec, hanswered, hdraws, rfl, rfl, fun ⟨habsent, hfull⟩ => ?_, fun _ => ⟨rfl, rfl, htable⟩⟩
    rcases haccept with hpresent | hroom
    · exact absurd habsent hpresent
    · exact absurd hfull (by simp [hroom])

section
variable {inst : Instance} {now : Time} {sa da np : Byte} {size : BitVec 16} {pgn : BitVec 24} {t : Table}

theorem ruleBam_of_not_global (hda : da ≠ 0xFF#8) :
    ruleBam inst now sa da size np pgn t =
      (tableErase t sa 0xFF#8, .raised .malformedTransportControl (.addresses sa da)) := if_pos hda

theorem ruleBam_of_inconsistent (hda : da = 0xFF#8) (hc : consistent size np = false) :
    ruleBam inst now sa da size np pgn t =
      (tableErase t sa 0xFF#8, .raised .malformedTransportControl (.addresses sa 0xFF#8)) := by
  rw [ruleBam, if_neg (not_not_intro hda), if_pos hc]

theorem ruleBam_of_consistent (hda : da = 0xFF#8) (hc : consistent size np = true) :
    ruleBam inst now sa da size np pgn t =
      announce inst t (newSession .bam .receiving sa 0xFF#8 size np pgn now) := by
  rw [ruleBam, if_neg (not_not_intro hda), if_neg (by simp [hc])]

theorem ruleRts_of_global (hda : da = 0xFF#8) :
    ruleRts inst now sa da size np pgn t = (t, .raised .malformedTransportControl (.addresses sa 0xFF#8)) := if_pos hda

theorem ruleRts_of_inconsistent (hda : da ≠ 0xFF#8) (hc : consistent size np = false) :
    ruleRts inst now sa da size np pgn t =
      (tableErase t sa da, .raised .malformedTransportControl (.addresses sa da)) := by
  rw [ruleRts, if_neg hda, if_pos hc]

theorem ruleRts_of_consistent (hda : da ≠ 0xFF#8) (hc : consistent size np = true) :
    ruleRts inst now sa da size np pgn t =
      announce inst t (newSession .rtsCts .announced sa da size np pgn now) := by
  rw [ruleRts, if_neg hda, if_neg (by simp [hc])]

/-- A key just removed holds no session. -/
theorem tableGet_of_table_eq_erase {t' : Table} (h : t' = tableErase t sa da) : tableGet t' sa da = none := by
  rw [h, tableGet_tableErase, if_pos ⟨rfl, rfl⟩]

/-- A key just written holds what was written. -/
theorem tableGet_of_table_eq_set {t' : Table} {v : Session} (h : t' = tableSet t sa da v) : tableGet t' sa da = some v := by
  rw [h, tableGet_tableSet, if_pos ⟨rfl, rfl⟩]

end

/-- A BAM writes no key but `(sa, 0xFF)`. -/
theorem tableGet_exec_tpCmBam_of_ne {now : Time} {h : TpHeader} {size : BitVec 16} {np r4 : Byte} {pgn : BitVec 24}
    {s t : State} (hexec : exec (.tpCmBam now h size np r4 pgn) s = .next t) (a b : Byte)
    (hother : ¬(a = h.sa ∧ b = 0xFF#8)) : tableGet t.table a b = tableGet (sweepTable s.inst now s.table) a b :=
  sessionsAreIsolated _ s t a b hexec nofun (by simpa [touchedKeys, selectClass] using hother)

/-- An RTS writes no key but `(sa, da)`. -/
theorem tableGet_exec_tpCmRts_of_ne {now : Time} {h : TpHeader} {size : BitVec 16} {np mx : Byte} {pgn : BitVec 24}
    {s t : State} (hexec : exec (.tpCmRts now h size np mx pgn) s = .next t) (a b : Byte)
    (hother : ¬(a = h.sa ∧ b = h.da)) : tableGet t.table a b = tableGet (sweepTable s.inst now s.table) a b :=
  sessionsAreIsolated _ s t a b hexec nofun (by simpa [touchedKeys, selectClass] using hother)

/-- Settles O35: the three branches of `ruleBam`, the last one an announcement (`runFrame_announce`). -/
theorem bamFollowsItsRule : Obligations.BamFollowsItsRule := by
  intro now h size np r4 pgn s
  by_cases hda : h.da = 0xFF#8
  case neg =>
    obtain ⟨t, hexec, hanswered, htable, hdraws⟩ :=
      runFrame_raised (now := now) (s := s) (ruleBam_of_not_global (size := size) (np := np) (pgn := pgn) hda)
    exact ⟨t, _, hexec, hanswered, hdraws, rfl, rfl, tableGet_exec_tpCmBam_of_ne (r4 := r4) hexec,
      fun _ => ⟨rfl, rfl, tableGet_of_table_eq_erase htable⟩, fun hglobal => absurd hglobal hda,
      fun hglobal => absurd hglobal hda⟩
  case pos =>
  cases hc : consistent size np
  case false =>
    obtain ⟨t, hexec, hanswered, htable, hdraws⟩ :=
      runFrame_raised (now := now) (s := s) (ruleBam_of_inconsistent (pgn := pgn) hda hc)
    refine ⟨t, _, hexec, hanswered, hdraws, rfl, rfl, tableGet_exec_tpCmBam_of_ne (r4 := r4) hexec,
      fun hnot => absurd hda hnot, fun _ _ => ⟨rfl, rfl, tableGet_of_table_eq_erase htable⟩, fun _ h1 h2 h3 h4 => ?_⟩
    rw [(consistent_iff size np).2 ⟨h1, h2, h3, h4⟩] at hc
    cases hc
  case true =>
    obtain ⟨t, r, hexec, hanswered, hdraws, hevents, hresult, hrefused, hstored⟩ :=
      runFrame_announce (now := now) (s := s) (ruleBam_of_consistent (pgn := pgn) hda hc)
    refine ⟨t, r, hexec, hanswered, hdraws, hevents, hresult, tableGet_exec_tpCmBam_of_ne (r4 := r4) hexec,
      fun hnot => absurd hda hnot, fun _ hbad => absurd ((consistent_iff size np).1 hc) hbad,
      fun _ _ _ _ _ => ⟨hrefused, fun hroom => ?_⟩⟩
    obtain ⟨hstatus, hinfo, htable⟩ := hstored hroom
    exact ⟨hstatus, hinfo, tableGet_of_table_eq_set htable⟩

/-- Settles O36: the three branches of `ruleRts`, the last one an announcement (`runFrame_announce`). -/
theorem rtsFollowsItsRule : Obligations.RtsFollowsItsRule := by
  intro now h size np mx pgn s
  by_cases hda : h.da = 0xFF#8
  case pos =>
    obtain ⟨t, hexec, hanswered, htable, hdraws⟩ :=
      runFrame_raised (now := now) (s := s) (ruleRts_of_global (size := size) (np := np) (pgn := pgn) hda)
    exact ⟨t, _, hexec, hanswered, hdraws, rfl, rfl, tableGet_exec_tpCmRts_of_ne (mx := mx) hexec,
      fun _ => ⟨rfl, rfl, htable⟩, fun hnot => absurd hda hnot, fun hnot => absurd hda hnot⟩
  case neg =>
  cases hc : consistent size np
  case false =>
    obtain ⟨t, hexec, hanswered, htable, hdraws⟩ :=
      runFrame_raised (now := now) (s := s) (ruleRts_of_inconsistent (pgn := pgn) hda hc)
    refine ⟨t, _, hexec, hanswered, hdraws, rfl, rfl, tableGet_exec_tpCmRts_of_ne (mx := mx) hexec,
      fun hglobal => absurd hglobal hda, fun _ _ => ⟨rfl, rfl, tableGet_of_table_eq_erase htable⟩, fun _ h1 h2 h3 h4 => ?_⟩
    rw [(consistent_iff size np).2 ⟨h1, h2, h3, h4⟩] at hc
    cases hc
  case true =>
    obtain ⟨t, r, hexec, hanswered, hdraws, hevents, hresult, hrefused, hstored⟩ :=
      runFrame_announce (now := now) (s := s) (ruleRts_of_consistent (pgn := pgn) hda hc)
    refine ⟨t, r, hexec, hanswered, hdraws, hevents, hresult, tableGet_exec_tpCmRts_of_ne (mx := mx) hexec,
      fun hglobal => absurd hglobal hda, fun _ hbad => absurd ((consistent_iff size np).1 hc) hbad,
      fun _ _ _ _ _ => ⟨hrefused, fun hroom => ?_⟩⟩
    obtain ⟨hstatus, hinfo, htable⟩ := hstored hroom
    exact ⟨hstatus, hinfo, tableGet_of_table_eq_set htable⟩

end Sys2Proof.Proofs
end

section
/-! PROOFS. The TP.DT frame and the payload it completes (R113 to R115). -/

namespace Sys2Proof.Proofs

open Sys2Proof Sys2Proof.Machine

/-! ### One data frame (R113, R114) -/

/-- A TP.DT writes no key but `(sa, da)`. -/
theorem tableGet_exec_tpDt_of_ne {now : Time} {h : TpHeader} {q : Byte} {c : ChunkLanes} {s t : State}
    (hexec : exec (.tpDt now h q c) s = .next t) (a b : Byte) (hother : ¬(a = h.sa ∧ b = h.da)) :
    tableGet t.table a b = tableGet (sweepTable s.inst now s.table) a b :=
  sessionsAreIsolated _ s t a b hexec nofun (by simpa [touchedKeys, selectClass] using hother)

/-- Not every slot is filled exactly when one is empty (R113). -/
theorem allFilled_eq_false_iff (v : Session) :
    allFilled v = false ↔ ∃ k, 1 ≤ k ∧ k ≤ v.np.toNat ∧ mapGet k v.rcv = none := by
  simp only [← Bool.not_eq_true, allFilled_iff, Classical.not_forall, Option.not_isSome_iff_eq_none, exists_prop]

/-- A frame class whose rule completes `v` reports chunks that are too short, and otherwise answers the decode of its message
(R114, R125). -/
theorem runFrame_completed {now : Time} {rule : Table → Table × FrameResult} {s : State} {t' : Table} {src dst : Byte}
    {v : Session} (hrule : rule (sweepTable s.inst now s.table) = (t', completed src dst v)) :
    ∃ (t : State) (r : Response), runFrame now rule s = .next t ∧ Answered s t r ∧
      r.events = sweepEvents s.inst now s.table ∧ t.table = t' ∧
      ((concatChunks v).length < v.size.toNat → r.status = .malformedTransportData ∧ r.result = .none ∧
        r.info = .addresses src dst ∧ t.freeDraws = s.freeDraws) ∧
      (v.size.toNat ≤ (concatChunks v).length → ∃ m : Message,
        m = ⟨v.pgn.setWidth 32, v.src, v.dst, (concatChunks v).take v.size.toNat⟩ ∧
        r.status = (msgDecode s.inst s.freeDraws m).status ∧ r.result = (msgDecode s.inst s.freeDraws m).result ∧
        r.info = (msgDecode s.inst s.freeDraws m).info ∧ t.freeDraws = s.freeDraws + msgDraws s.inst m) := by
  by_cases hshort : (concatChunks v).length < v.size.toNat
  case pos =>
    rw [completed, if_pos hshort] at hrule
    obtain ⟨t, hexec, hanswered, htable, hdraws⟩ := runFrame_raised hrule
    exact ⟨t, _, hexec, hanswered, rfl, htable, fun _ => ⟨rfl, rfl, rfl, hdraws⟩,
      fun hlong => absurd hshort (Nat.not_lt.2 hlong)⟩
  case neg =>
    rw [completed, if_neg hshort] at hrule
    obtain ⟨t, hexec, hanswered, htable, hdraws⟩ := runFrame_message hrule
    exact ⟨t, _, hexec, hanswered, rfl, htable, fun h => absurd h hshort, fun _ => ⟨_, rfl, rfl, rfl, rfl, hdraws⟩⟩

/-- The slots after a TP.DT: its chunk replaces its own slot's, and no other slot changes (R113). -/
theorem mapGet_storeChunk_chunkBytes (now : Time) (q : Byte) (dlc : BitVec 4) (c : ChunkLanes) (v : Session) (k : Nat) :
    mapGet k (storeChunk now q (chunkBytes dlc c) v).rcv = if k = q.toNat
      then some ([c.c0, c.c1, c.c2, c.c3, c.c4, c.c5, c.c6].take (min dlc.toNat 8 - 1)) else mapGet k v.rcv := by
  simp only [mapGet_storeChunk, eq_comm (a := k)]
  rfl

/-- Settles O40: the four cases of `ruleDt_cases`; in the last two the stored slots are those of `storeChunk`, whose emptiness decides
which of the two it is. -/
theorem dataFrameFollowsItsRule : Obligations.DataFrameFollowsItsRule := by
  intro now h q c s
  rcases ruleDt_cases now h.sa h.da q (chunkBytes h.dlc c) (sweepTable s.inst now s.table) with
    ⟨hnone, hrule⟩ | ⟨v, hv, hbad, hrule⟩ | ⟨v, hv, hgood, hfilled, hrule⟩ | ⟨v, hv, hgood, hempty, hrule⟩
  case inl =>
    obtain ⟨t, hexec, hanswered, htable, hdraws⟩ := runFrame_nothing hrule
    refine ⟨t, _, hexec, hanswered, rfl, tableGet_exec_tpDt_of_ne hexec,
      fun _ => ⟨rfl, rfl, rfl, hdraws, htable ▸ hnone⟩, fun w hw => ?_, fun w hw => ?_⟩
    all_goals cases hnone.symm.trans hw
  case inr.inl =>
    obtain ⟨t, hexec, hanswered, htable, hdraws⟩ := runFrame_raised hrule
    refine ⟨t, _, hexec, hanswered, rfl, tableGet_exec_tpDt_of_ne hexec, fun hnone => ?_,
      fun w hw _ => ⟨rfl, rfl, rfl, hdraws, tableGet_of_table_eq_erase htable⟩, fun w hw hpos hle => ?_⟩
    · cases hnone.symm.trans hv
    · cases hv.symm.trans hw
      exact absurd hbad (not_or.2 ⟨hpos, Nat.not_lt.2 hle⟩)
  case inr.inr.inl =>
    obtain ⟨t, r, hexec, hanswered, hevents, htable, hshort, hmessage⟩ := runFrame_completed hrule
    refine ⟨t, r, hexec, hanswered, hevents, tableGet_exec_tpDt_of_ne hexec, fun hnone => ?_, fun w hw hbad => ?_,
      fun w hw _ _ => ?_⟩
    · cases hnone.symm.trans hv
    · cases hv.symm.trans hw
      exact absurd hbad hgood
    · cases hv.symm.trans hw
      refine ⟨_, mapGet_storeChunk_chunkBytes now q h.dlc c v, fun hempty => ?_,
        fun _ => ⟨tableGet_of_table_eq_erase htable, hshort, hmessage⟩⟩
      cases hfilled.symm.trans ((allFilled_eq_false_iff (storeChunk now q (chunkBytes h.dlc c) v)).2 hempty)
  case inr.inr.inr =>
    obtain ⟨t, hexec, hanswered, htable, hdraws⟩ := runFrame_nothing hrule
    refine ⟨t, _, hexec, hanswered, rfl, tableGet_exec_tpDt_of_ne hexec, fun hnone => ?_, fun w hw hbad => ?_,
      fun w hw _ _ => ?_⟩
    · cases hnone.symm.trans hv
    · cases hv.symm.trans hw
      exact absurd hbad hgood
    · cases hv.symm.trans hw
      refine ⟨_, mapGet_storeChunk_chunkBytes now q h.dlc c v,
        fun _ => ⟨rfl, rfl, rfl, hdraws, tableGet_of_table_eq_set htable⟩, fun hfull => ?_⟩
      obtain ⟨k, hk, hle, hnone⟩ := (allFilled_eq_false_iff _).1 hempty
      exact absurd hnone (hfull k hk hle)

/-! ### The order of arrival (R115) -/

/-- The last chunk listed for a sequence number. -/
def lastChunk (ds : List (Time × Byte × List Byte)) (q : Byte) : Option (List Byte) :=
  (ds.reverse.find? (fun d => d.2.1 == q)).map (·.2.2)

/-- The session after the chunks of a list are stored one after another. -/
def storeChunks (ds : List (Time × Byte × List Byte)) (v : Session) : Session :=
  ds.foldl (fun w d => storeChunk d.1 d.2.1 d.2.2 w) v

theorem storeChunks_cons (d : Time × Byte × List Byte) (ds : List (Time × Byte × List Byte)) (v : Session) :
    storeChunks (d :: ds) v = storeChunks ds (storeChunk d.1 d.2.1 d.2.2 v) := rfl

theorem storeChunks_np (ds : List (Time × Byte × List Byte)) (v : Session) : (storeChunks ds v).np = v.np := by
  induction ds generalizing v with
  | nil => rfl
  | cons d ds ih => exact ih _

/-- A later chunk of the list counts before its first one. -/
theorem lastChunk_cons (d : Time × Byte × List Byte) (ds : List (Time × Byte × List Byte)) (q : Byte) :
    lastChunk (d :: ds) q = (lastChunk ds q).or (if d.2.1 = q then some d.2.2 else none) := by
  simp only [lastChunk, List.reverse_cons, List.find?_append, Option.map_or, List.find?_singleton, beq_iff_eq]
  split <;> rfl

/-- A slot holds the last chunk stored for it, or what it held when none was. -/
theorem mapGet_storeChunks (ds : List (Time × Byte × List Byte)) (v : Session) (q : Byte) :
    mapGet q.toNat (storeChunks ds v).rcv = (lastChunk ds q).or (mapGet q.toNat v.rcv) := by
  induction ds generalizing v with
  | nil => rfl
  | cons d ds ih =>
    rw [storeChunks_cons, ih, mapGet_storeChunk, lastChunk_cons, Option.or_assoc]
    by_cases hq : d.2.1 = q
    · simp [hq]
    · simp [hq, BitVec.toNat_inj]

/-- A slot of `1 .. np` is that of a sequence number. -/
theorem exists_byte_of_slot {np : Byte} {j : Nat} (hj : j < np.toNat) : ∃ q : Byte, q.toNat = j + 1 :=
  ⟨BitVec.ofNat 8 (j + 1), by rw [BitVec.toNat_ofNat]; omega⟩

section
variable {v w : Session} (hslots : ∀ q : Byte, mapGet q.toNat v.rcv = mapGet q.toNat w.rcv)
include hslots

theorem slot_congr {j : Nat} (hj : j < v.np.toNat) : mapGet (j + 1) v.rcv = mapGet (j + 1) w.rcv := by
  obtain ⟨q, hq⟩ := exists_byte_of_slot hj
  rw [← hq, hslots]

/-- Sessions with the same slots hold the same payload. -/
theorem concatChunks_congr (hnp : v.np = w.np) : concatChunks v = concatChunks w := by
  rw [concatChunks, concatChunks, ← hnp]
  exact List.flatMap_congr fun j hj => by rw [slot_congr hslots (List.mem_range.1 hj)]

/-- Sessions with the same slots are complete together. -/
theorem allFilled_congr (hnp : v.np = w.np) : allFilled v = allFilled w := by
  rw [allFilled, allFilled, ← hnp, Bool.eq_iff_iff, List.all_eq_true, List.all_eq_true]
  exact forall₂_congr fun j hj => by rw [slot_congr hslots (List.mem_range.1 hj)]

end

/-- Settles O41: payload and completeness are read from the slots, and a slot is the last chunk stored for it
(`mapGet_storeChunks`). -/
theorem reassemblyIgnoresArrivalOrder : Obligations.ReassemblyIgnoresArrivalOrder := by
  intro v ds ds' hlast
  have hnp : (storeChunks ds v).np = (storeChunks ds' v).np := by rw [storeChunks_np, storeChunks_np]
  have hslots (q : Byte) : mapGet q.toNat (storeChunks ds v).rcv = mapGet q.toNat (storeChunks ds' v).rcv := by
    have hq : lastChunk ds q = lastChunk ds' q := hlast q
    rw [mapGet_storeChunks, mapGet_storeChunks, hq]
  exact ⟨concatChunks_congr hslots hnp, allFilled_congr hslots hnp⟩

end Sys2Proof.Proofs
end

section
/-! PROOFS. A whole broadcast transfer at one time (R106, R113 to R115, R125). The sweep of its first frame leaves a table in which
no session expires at that time, so no later frame sweeps anything; the data frames then fill the announced session's slots in
whatever order they come, and the last one yields the message. -/

namespace Sys2Proof.Proofs

open Sys2Proof Sys2Proof.Machine

/-! ### A table in which nothing expires (R116) -/

/-- No session of the table is expired at `now`. -/
def Unexpired (inst : Instance) (now : Time) (t : Table) : Prop := ∀ p ∈ t, expired inst now p.2 = false

/-- A session active at `now` or later is not expired (R116). -/
theorem expired_eq_false_of_le {inst : Instance} {now : Time} {v : Session} (h : now ≤ v.lastActivity) :
    expired inst now v = false := by
  rw [← Bool.not_eq_true, expired_iff]
  exact fun ⟨hlate, _⟩ => absurd h (Nat.not_le.2 hlate)

section
variable {inst : Instance} {now : Time} {t : Table}

theorem unexpired_sweepTable : Unexpired inst now (sweepTable inst now t) := fun _ hp => (mem_sweepTable.1 hp).2

theorem sweepTable_of_unexpired (h : Unexpired inst now t) : sweepTable inst now t = t :=
  List.filter_eq_self.2 fun p hp => by rw [h p hp]; rfl

theorem sweepEvents_of_unexpired (h : Unexpired inst now t) : sweepEvents inst now t = [] := by
  rw [← sweepTable_of_unexpired h, sweepEvents_twice]

/-- A written map lists the written pair and otherwise only pairs it listed before, in canonical form or not. -/
theorem mem_of_mem_mapSet {α : Type} {k : Nat} {v : α} {m : NatMap α} {p : Nat × α} (h : p ∈ mapSet k v m) :
    p = (k, v) ∨ p ∈ m := by
  induction m with
  | nil => exact .inl (List.mem_singleton.1 h)
  | cons q m ih =>
    rw [mapSet] at h
    split at h
    · exact List.mem_cons.1 h
    split at h
    · exact (List.mem_cons.1 h).imp_right (List.mem_cons_of_mem q)
    · rcases List.mem_cons.1 h with rfl | htail
      · exact .inr (List.mem_cons_self ..)
      · exact (ih htail).imp_right (List.mem_cons_of_mem q)

theorem unexpired_tableSet (h : Unexpired inst now t) (src dst : Byte) {v : Session} (hv : now ≤ v.lastActivity) :
    Unexpired inst now (tableSet t src dst v) := by
  intro p hp
  rcases mem_of_mem_mapSet hp with rfl | hp
  · exact expired_eq_false_of_le hv
  · exact h p hp

end

/-! ### The slots of a transfer (R113 to R115) -/

/-- The sequence numbers of a transfer of `np` packets. -/
def packetNumbers (np : Byte) : List Byte := (List.range np.toNat).map (fun j => BitVec.ofNat 8 (j + 1))

theorem mem_packetNumbers {np q : Byte} : q ∈ packetNumbers np ↔ 1 ≤ q.toNat ∧ q.toNat ≤ np.toNat := by
  rw [packetNumbers, List.mem_map]
  constructor
  · rintro ⟨j, hj, rfl⟩
    rw [List.mem_range] at hj
    rw [BitVec.toNat_ofNat]
    omega
  · rintro ⟨hpos, hle⟩
    exact ⟨q.toNat - 1, List.mem_range.2 (by omega), by rw [Nat.sub_add_cancel hpos, BitVec.ofNat_toNat, BitVec.setWidth_eq]⟩

theorem nodup_packetNumbers (np : Byte) : (packetNumbers np).Nodup := by
  refine List.Nodup.map_on (fun i hi j hj hij => ?_) List.nodup_range
  rw [List.mem_range] at hi hj
  rw [← BitVec.toNat_inj, BitVec.toNat_ofNat, BitVec.toNat_ofNat] at hij
  omega

/-- The session waits for the packets `rest` of its `np`, each once, and every other slot holds its full chunk. -/
structure AwaitsPackets (chunk : Byte → ChunkLanes) (rest : List Byte) (v : Session) : Prop where
  nodup : rest.Nodup
  range : ∀ q ∈ rest, 1 ≤ q.toNat ∧ q.toNat ≤ v.np.toNat
  slots : ∀ q : Byte, 1 ≤ q.toNat → q.toNat ≤ v.np.toNat →
    mapGet q.toNat v.rcv = if q ∈ rest then none else some (chunkLanesList (chunk q))

/-- The session after its packet `q` arrives (R113). -/
def storePacket (now : Time) (chunk : Byte → ChunkLanes) (q : Byte) (v : Session) : Session :=
  storeChunk now q (chunkLanesList (chunk q)) v

/-- The payload of a transfer: its chunks in sequence order. -/
def transferBytes (chunk : Byte → ChunkLanes) (np : Byte) : List Byte :=
  (List.range np.toNat).flatMap (fun j => chunkLanesList (chunk (BitVec.ofNat 8 (j + 1))))

theorem transferBytes_length (chunk : Byte → ChunkLanes) (np : Byte) :
    (transferBytes chunk np).length = np.toNat * 7 := by
  simp [transferBytes, chunkLanesList]

/-- The message a transfer completes (R114). -/
def transferMessage (chunk : Byte → ChunkLanes) (v : Session) : Message :=
  ⟨v.pgn.setWidth 32, v.src, v.dst, (transferBytes chunk v.np).take v.size.toNat⟩

/-- The response to the last packet, when nothing expired before it: the message's decode, from the `k`-th free value on (R125). -/
def transferResponse (inst : Instance) (k : Nat) (chunk : Byte → ChunkLanes) (v : Session) : Response :=
  ⟨(msgDecode inst k (transferMessage chunk v)).status, [], (msgDecode inst k (transferMessage chunk v)).result,
    (msgDecode inst k (transferMessage chunk v)).info⟩

section
variable {chunk : Byte → ChunkLanes} {v : Session}

/-- A session just announced waits for every packet, in whatever order they come. -/
theorem awaitsPackets_of_perm {order : List Byte} (horder : order.Perm (packetNumbers v.np)) (hrcv : v.rcv = []) :
    AwaitsPackets chunk order v := by
  have hmem (q : Byte) : q ∈ order ↔ 1 ≤ q.toNat ∧ q.toNat ≤ v.np.toNat := horder.mem_iff.trans mem_packetNumbers
  refine ⟨horder.nodup_iff.2 (nodup_packetNumbers _), fun q hq => (hmem q).1 hq, fun q hpos hle => ?_⟩
  rw [if_pos ((hmem q).2 ⟨hpos, hle⟩), hrcv, mapGet_nil]

/-- Storing the next packet's chunk leaves the session waiting for the others. -/
theorem AwaitsPackets.store {q : Byte} {rest : List Byte} (h : AwaitsPackets chunk (q :: rest) v) (now : Time) :
    AwaitsPackets chunk rest (storePacket now chunk q v) := by
  obtain ⟨hq, hnodup⟩ := List.nodup_cons.1 h.nodup
  refine ⟨hnodup, fun p hp => h.range p (List.mem_cons_of_mem q hp), fun p hpos hle => ?_⟩
  rw [storePacket, mapGet_storeChunk, h.slots p hpos hle]
  by_cases hpq : q = p
  · subst hpq
    rw [if_pos rfl, if_neg hq]
  · have hmem : p ∈ q :: rest ↔ p ∈ rest := List.mem_cons.trans (or_iff_right (Ne.symm hpq))
    rw [if_neg (by rwa [BitVec.toNat_inj])]
    simp only [hmem]

/-- A session that still waits for a packet is not complete. -/
theorem AwaitsPackets.not_allFilled {q : Byte} {rest : List Byte} (h : AwaitsPackets chunk (q :: rest) v) :
    allFilled v = false := by
  have hq : q ∈ q :: rest := List.mem_cons_self ..
  obtain ⟨hpos, hle⟩ := h.range q hq
  exact (allFilled_eq_false_iff v).2 ⟨q.toNat, hpos, hle, by rw [h.slots q hpos hle, if_pos hq]⟩

section
variable (h : AwaitsPackets chunk [] v)
include h

/-- The slots of a session that waits for no packet hold their chunks. -/
theorem AwaitsPackets.slot {j : Nat} (hj : j < v.np.toNat) :
    mapGet (j + 1) v.rcv = some (chunkLanesList (chunk (BitVec.ofNat 8 (j + 1)))) := by
  have hq : (BitVec.ofNat 8 (j + 1)).toNat = j + 1 := by rw [BitVec.toNat_ofNat]; omega
  have hslot := h.slots (BitVec.ofNat 8 (j + 1)) (by omega) (by omega)
  rwa [hq, if_neg List.not_mem_nil] at hslot

theorem AwaitsPackets.allFilled_of_nil : allFilled v = true :=
  List.all_eq_true.2 fun j hj => by rw [h.slot (List.mem_range.1 hj)]; rfl

theorem AwaitsPackets.concatChunks_of_nil : concatChunks v = transferBytes chunk v.np :=
  List.flatMap_congr fun j hj => by rw [h.slot (List.mem_range.1 hj), Option.getD_some]

/-- A complete session whose announced size its packets can hold yields its message (R114). -/
theorem AwaitsPackets.completed_of_nil (hsize : v.size.toNat ≤ v.np.toNat * 7) (src dst : Byte) :
    completed src dst v = .message (transferMessage chunk v) := by
  rw [completed, h.concatChunks_of_nil, transferBytes_length, if_neg (Nat.not_lt.2 hsize), transferMessage]

end
end

/-! ### The data frames of a transfer -/

theorem execAll_cons_next {i : Instr} {s s' : State} (hexec : exec i s = .next s') (is : List Instr) :
    execAll (i :: is) s = execAll is s' := by
  simp only [execAll, hexec]

/-- A frame of eight data bytes carries a full chunk (R51, R56). -/
theorem chunkBytes_of_full {dlc : BitVec 4} (h : 8 ≤ dlc.toNat) (c : ChunkLanes) : chunkBytes dlc c = chunkLanesList c := by
  rw [chunkBytes, frameLen, Nat.min_eq_right h]
  rfl

/-- In a state where nothing expires at `now`, the session `v` at a frame's key waits for the packets `rest`, and its announced size
is within its packets. -/
structure InTransfer (now : Time) (h : TpHeader) (chunk : Byte → ChunkLanes) (rest : List Byte) (v : Session) (s : State) :
    Prop where
  unexpired : Unexpired s.inst now s.table
  stored    : tableGet s.table h.sa h.da = some v
  awaits    : AwaitsPackets chunk rest v
  size      : v.size.toNat ≤ v.np.toNat * 7

section
variable {now : Time} {h : TpHeader} {chunk : Byte → ChunkLanes} {v : Session} {s : State} (hdlc : 8 ≤ h.dlc.toNat)
include hdlc

/-- What the rule of a packet that the session waits for does (R113): it stores the chunk, or completes the session if that was the
last one. Nothing expires, so the sweep before it does nothing. -/
theorem InTransfer.ruleDt_eq {q : Byte} {rest : List Byte} (hs : InTransfer now h chunk (q :: rest) v s) :
    ruleDt now h.sa h.da q (chunkBytes h.dlc (chunk q)) (sweepTable s.inst now s.table) =
      if allFilled (storePacket now chunk q v) then
        (tableErase s.table h.sa h.da, completed h.sa h.da (storePacket now chunk q v))
      else (tableSet s.table h.sa h.da (storePacket now chunk q v), .nothing) := by
  obtain ⟨hpos, hle⟩ := hs.awaits.range q (List.mem_cons_self ..)
  have hgood : ¬(q = 0#8 ∨ v.np.toNat < q.toNat) := by
    rintro (rfl | hlt)
    · exact absurd hpos (by decide)
    · omega
  simp only [ruleDt, sweepTable_of_unexpired hs.unexpired, chunkBytes_of_full hdlc, hs.stored, if_neg hgood]
  rfl

/-- A packet that is not the last one is stored; it draws no free value and changes no other key. -/
theorem InTransfer.exec_next {q p : Byte} {rest : List Byte} (hs : InTransfer now h chunk (q :: p :: rest) v s) :
    ∃ t, exec (.tpDt now h q (chunk q)) s = .next t ∧ t.inst = s.inst ∧ t.freeDraws = s.freeDraws ∧
      t.table = tableSet s.table h.sa h.da (storePacket now chunk q v) ∧
      InTransfer now h chunk (p :: rest) (storePacket now chunk q v) t := by
  have hawaits := hs.awaits.store now
  have hrule := hs.ruleDt_eq hdlc
  rw [hawaits.not_allFilled, if_neg Bool.false_ne_true] at hrule
  obtain ⟨t, hexec, hanswered, htable, hdraws⟩ := runFrame_nothing hrule
  refine ⟨t, hexec, hanswered.inst, hdraws, htable, ?_, tableGet_of_table_eq_set htable, hawaits, hs.size⟩
  rw [hanswered.inst, htable]
  exact unexpired_tableSet hs.unexpired _ _ (le_max_right _ _)

/-- The last packet removes the session and is answered with the decode of the transfer's message. -/
theorem InTransfer.exec_last {q : Byte} (hs : InTransfer now h chunk [q] v s) :
    ∃ t, exec (.tpDt now h q (chunk q)) s = .next t ∧ t.table = tableErase s.table h.sa h.da ∧
      t.outbox.getLast? = some (transferResponse s.inst s.freeDraws chunk v) := by
  have hawaits := hs.awaits.store now
  have hrule := hs.ruleDt_eq hdlc
  rw [if_pos hawaits.allFilled_of_nil, hawaits.completed_of_nil hs.size] at hrule
  obtain ⟨t, hexec, hanswered, htable, -⟩ := runFrame_message hrule
  refine ⟨t, hexec, htable, ?_⟩
  rw [hanswered.outbox, List.getLast?_concat, sweepEvents_of_unexpired hs.unexpired]
  rfl

/-- The packets a session waits for, in any order: the session is gone, every other key is unchanged, and the last response is the
decode of the transfer's message. -/
theorem InTransfer.exec_packets {q : Byte} {rest : List Byte} (hs : InTransfer now h chunk (q :: rest) v s) :
    ∃ t, execAll ((q :: rest).map (fun q => .tpDt now h q (chunk q))) s = .next t ∧
      t.outbox.getLast? = some (transferResponse s.inst s.freeDraws chunk v) ∧
      ∀ a b, tableGet t.table a b = if a = h.sa ∧ b = h.da then none else tableGet s.table a b := by
  induction rest generalizing q v s with
  | nil =>
    obtain ⟨t, hexec, htable, hlast⟩ := hs.exec_last hdlc
    refine ⟨t, execAll_cons_next hexec [], hlast, fun a b => ?_⟩
    rw [htable, tableGet_tableErase]
  | cons p rest ih =>
    obtain ⟨s', hexec, hinst, hdraws, htable, hs'⟩ := hs.exec_next hdlc
    obtain ⟨t, hrun, hlast, hkeys⟩ := ih hs'
    rw [hinst, hdraws] at hlast
    refine ⟨t, (execAll_cons_next hexec _).trans hrun, hlast, fun a b => ?_⟩
    rw [hkeys, htable, tableGet_tableSet]
    split <;> rfl

end

/-- A BAM that is consistent and that the swept table accepts begins a transfer of its packets, in whatever order they come (R106). -/
theorem exec_tpCmBam_inTransfer {now : Time} {h : TpHeader} {size : BitVec 16} {np r4 : Byte} {pgn : BitVec 24}
    {chunk : Byte → ChunkLanes} {order : List Byte} {s : State} (hda : h.da = 0xFF#8) (hc : consistent size np = true)
    (horder : order.Perm (packetNumbers np))
    (haccept : tableGet (sweepTable s.inst now s.table) h.sa 0xFF#8 ≠ none ∨
      ∀ m, s.inst.maxSessions = some m → (sweepTable s.inst now s.table).length < m.count) :
    ∃ s', exec (.tpCmBam now h size np r4 pgn) s = .next s' ∧ s'.inst = s.inst ∧ s'.freeDraws = s.freeDraws ∧
      InTransfer now h chunk order (newSession .bam .receiving h.sa 0xFF#8 size np pgn now) s' := by
  obtain ⟨s', r, hexec, hanswered, hdraws, -, -, -, hstored⟩ := runFrame_announce (now := now) (s := s)
    (rule := ruleBam s.inst now h.sa h.da size np pgn) (ruleBam_of_consistent hda hc)
  have hroom : ¬(tableGet (sweepTable s.inst now s.table) h.sa 0xFF#8 = none ∧
      ∃ m, s.inst.maxSessions = some m ∧ m.count ≤ (sweepTable s.inst now s.table).length) := by
    rintro ⟨hnone, m, hm, hfull⟩
    rcases haccept with hpresent | hfree
    · exact hpresent hnone
    · exact absurd (hfree m hm) (Nat.not_lt.2 hfull)
  obtain ⟨-, -, htable⟩ := hstored hroom
  refine ⟨s', hexec, hanswered.inst, hdraws, ?_, ?_, awaitsPackets_of_perm horder rfl, ((consistent_iff size np).1 hc).2.2.1⟩
  · rw [hanswered.inst, htable]
    exact unexpired_tableSet unexpired_sweepTable _ _ (le_refl now)
  · rw [hda]
    exact tableGet_of_table_eq_set htable

/-- Settles O42: the BAM begins the transfer (`exec_tpCmBam_inTransfer`), and its packets, of which there is at least one, end it
(`InTransfer.exec_packets`). -/
theorem broadcastTransferDeliversInAnyOrder : Obligations.BroadcastTransferDeliversInAnyOrder := by
  intro now h size np r4 pgn chunk order s hda hdlc hpos hsize hnp horder haccept
  have hc : consistent size np = true := (consistent_iff size np).2 ⟨hpos, by omega, hsize, hnp⟩
  obtain ⟨s', hexec, hinst, hdraws, hs'⟩ :=
    exec_tpCmBam_inTransfer (r4 := r4) (pgn := pgn) (chunk := chunk) hda hc horder haccept
  cases order with
  | nil =>
    have hlength : 0 = np.toNat := by simpa using horder.length_eq
    omega
  | cons q rest =>
    obtain ⟨t, hrun, hlast, hkeys⟩ := hs'.exec_packets hdlc
    rw [hinst, hdraws] at hlast
    refine ⟨t, _, (execAll_cons_next hexec _).trans hrun, rfl, hlast, fun a b => ?_⟩
    rw [hkeys, hda]
    split
    case isTrue => rfl
    case isFalse hother => exact tableGet_exec_tpCmBam_of_ne hexec a b hother

end Sys2Proof.Proofs
end

section
/-! PROOFS. What every command keeps of time and of the stored sessions (R100, R103, R117, R132, R137). -/

namespace Sys2Proof.Proofs

open Sys2Proof Sys2Proof.Machine

/-- Settles O44: an instruction responds with the events of its own sweep (`exec_answers`), and it responds once. -/
theorem onlyThreeCommandsSweep : Obligations.OnlyThreeCommandsSweep := by
  intro i s t r hexec hanswered
  obtain ⟨answer, hnext⟩ := exec_answers i
  rw [hnext] at hexec
  cases hexec
  obtain ⟨rfl⟩ : [_] = [r] := List.append_cancel_left hanswered.outbox
  rfl

/-! ### What becomes of a stored session -/

/-- `w` is `v` some commands later: its announced fields and its creation time are kept, its last activity is not lower, and its
filled slots are still filled (R100, R113). -/
structure Advanced (v w : Session) : Prop where
  mode         : w.mode = v.mode
  src          : w.src = v.src
  dst          : w.dst = v.dst
  size         : w.size = v.size
  np           : w.np = v.np
  pgn          : w.pgn = v.pgn
  createdAt    : w.createdAt = v.createdAt
  lastActivity : v.lastActivity ≤ w.lastActivity
  filled       : ∀ q, mapGet q v.rcv ≠ none → mapGet q w.rcv ≠ none

theorem advanced_refl (v : Session) : Advanced v v := ⟨rfl, rfl, rfl, rfl, rfl, rfl, rfl, le_refl _, fun _ => id⟩

theorem advanced_touch (now : Time) (v : Session) : Advanced v (touch now v) :=
  ⟨rfl, rfl, rfl, rfl, rfl, rfl, rfl, le_max_left _ _, fun _ => id⟩

theorem advanced_storeChunk (now : Time) (q : Byte) (chunk : List Byte) (v : Session) :
    Advanced v (storeChunk now q chunk v) := by
  refine ⟨rfl, rfl, rfl, rfl, rfl, rfl, rfl, le_max_left _ _, fun k hk => ?_⟩
  rw [mapGet_storeChunk]
  split
  · exact Option.some_ne_none _
  · exact hk

/-- `w` was announced at `now` and holds no chunk. -/
def FreshAt (now : Time) (w : Session) : Prop := w.createdAt = now ∧ w.lastActivity = now ∧ w.rcv = []

/-- What a table may hold at a key after a rule that ran at `now` on `t`: a session announced now, or one of `t`, advanced. -/
def FreshOrAdvanced (now : Time) (t : Table) (a b : Byte) (w : Session) : Prop :=
  FreshAt now w ∨ ∃ v, tableGet t a b = some v ∧ Advanced v w

section
variable {inst : Instance} {now : Time} {t : Table} {a b : Byte} {w : Session}

theorem freshOrAdvanced_of_kept (h : tableGet t a b = some w) : FreshOrAdvanced now t a b w :=
  .inr ⟨w, h, advanced_refl w⟩

theorem freshOrAdvanced_of_erase {src dst : Byte} (h : tableGet (tableErase t src dst) a b = some w) :
    FreshOrAdvanced now t a b w := by
  rw [tableGet_tableErase] at h
  split at h
  · cases h
  · exact freshOrAdvanced_of_kept h

/-- A written key holds what was written, and every other key what it held. -/
theorem freshOrAdvanced_of_set {src dst : Byte} {u : Session} (hu : FreshOrAdvanced now t src dst u)
    (h : tableGet (tableSet t src dst u) a b = some w) : FreshOrAdvanced now t a b w := by
  rw [tableGet_tableSet] at h
  split at h
  case isTrue hkey =>
    obtain ⟨rfl, rfl⟩ := hkey
    cases h
    exact hu
  case isFalse hkey => exact freshOrAdvanced_of_kept h

theorem freshOrAdvanced_of_announce {u : Session} (hu : FreshAt now u)
    (h : tableGet (announce inst t u).1 a b = some w) : FreshOrAdvanced now t a b w := by
  rcases announce_cases inst t u with ⟨-, -, e⟩ | ⟨-, e⟩ <;> rw [e] at h
  · exact freshOrAdvanced_of_kept h
  · exact freshOrAdvanced_of_set (.inl hu) h

theorem freshOrAdvanced_of_ruleBam {sa da np : Byte} {size : BitVec 16} {pgn : BitVec 24}
    (h : tableGet (ruleBam inst now sa da size np pgn t).1 a b = some w) : FreshOrAdvanced now t a b w := by
  rw [ruleBam] at h
  split at h
  · exact freshOrAdvanced_of_erase h
  split at h
  · exact freshOrAdvanced_of_erase h
  · exact freshOrAdvanced_of_announce ⟨rfl, rfl, rfl⟩ h

theorem freshOrAdvanced_of_ruleRts {sa da np : Byte} {size : BitVec 16} {pgn : BitVec 24}
    (h : tableGet (ruleRts inst now sa da size np pgn t).1 a b = some w) : FreshOrAdvanced now t a b w := by
  rw [ruleRts] at h
  split at h
  · exact freshOrAdvanced_of_kept h
  split at h
  · exact freshOrAdvanced_of_erase h
  · exact freshOrAdvanced_of_announce ⟨rfl, rfl, rfl⟩ h

theorem freshOrAdvanced_of_markReverse {sa da : Byte} (h : tableGet (markReverse now sa da t) a b = some w) :
    FreshOrAdvanced now t a b w := by
  rw [markReverse] at h
  split at h
  · exact freshOrAdvanced_of_kept h
  case h_2 v hv =>
    split at h
    · exact freshOrAdvanced_of_set (.inr ⟨v, hv, advanced_touch now v⟩) h
    · exact freshOrAdvanced_of_kept h

theorem freshOrAdvanced_of_ruleDt {sa da q : Byte} {chunk : List Byte}
    (h : tableGet (ruleDt now sa da q chunk t).1 a b = some w) : FreshOrAdvanced now t a b w := by
  rcases ruleDt_cases now sa da q chunk t with ⟨-, e⟩ | ⟨v, -, -, e⟩ | ⟨v, -, -, -, e⟩ | ⟨v, hv, -, -, e⟩ <;> rw [e] at h
  · exact freshOrAdvanced_of_kept h
  · exact freshOrAdvanced_of_erase h
  · exact freshOrAdvanced_of_erase h
  · exact freshOrAdvanced_of_set (.inr ⟨v, hv, advanced_storeChunk now q chunk v⟩) h

end

/-- After an instruction's own rule a key holds a session announced at the instruction's time, or one it held before, advanced. -/
theorem ownRule_freshOrAdvanced {inst : Instance} {i : Instr} {t : Table} {a b : Byte} {w : Session}
    (h : tableGet (ownRule inst i t) a b = some w) :
    (∃ now, sweepTime i = some now ∧ FreshAt now w) ∨ ∃ v, tableGet t a b = some v ∧ Advanced v w := by
  rw [← sweepTime_selectClass]
  rw [ownRule] at h
  generalize selectClass i = c at h ⊢
  have lift {now : Time} (htime : sweepTime c = some now) (hw : FreshOrAdvanced now t a b w) :
      (∃ now, sweepTime c = some now ∧ FreshAt now w) ∨ ∃ v, tableGet t a b = some v ∧ Advanced v w :=
    hw.imp_left fun hfresh => ⟨now, htime, hfresh⟩
  cases c
  case tpCmRts => exact lift rfl (freshOrAdvanced_of_ruleRts h)
  case tpCmCts => exact lift rfl (freshOrAdvanced_of_markReverse h)
  case tpCmEoma => exact lift rfl (freshOrAdvanced_of_markReverse h)
  case tpCmBam => exact lift rfl (freshOrAdvanced_of_ruleBam h)
  case tpCmAbort =>
    rw [tableGet_ruleAbort] at h
    split at h
    · cases h
    · exact lift rfl (freshOrAdvanced_of_kept h)
  case tpDtEmpty => exact lift rfl (freshOrAdvanced_of_erase h)
  case tpDt => exact lift rfl (freshOrAdvanced_of_ruleDt h)
  case reset => cases h
  all_goals exact .inr ⟨w, h, advanced_refl w⟩

/-- What a sweep leaves at a key stood there before it (R117). -/
theorem tableGet_of_tableSwept {i : Instr} {s : State} {a b : Byte} {v : Session} (hwf : MapWf s.table)
    (h : tableGet (tableSwept i s) a b = some v) : tableGet s.table a b = some v := by
  rw [tableSwept] at h
  split at h
  · rw [tableGet_sweepTable hwf, Option.filter_eq_some_iff] at h
    exact h.1
  · exact h

/-- Settles O57: the instruction's own rule keeps or announces (`ownRule_freshOrAdvanced`), and the sweep before it only removes. -/
theorem storedSessionsOnlyAdvance : Obligations.StoredSessionsOnlyAdvance := by
  intro i s t a b v w hwf hexec hv hw
  rw [(exec_inst_table hexec).2] at hw
  rcases ownRule_freshOrAdvanced hw with ⟨now, htime, hfresh⟩ | ⟨u, hu, hadv⟩
  · exact .inl ⟨now, htime, hfresh⟩
  · cases hv.symm.trans (tableGet_of_tableSwept hwf hu)
    exact .inr ⟨hadv.mode, hadv.src, hadv.dst, hadv.size, hadv.np, hadv.pgn, hadv.createdAt, hadv.lastActivity, hadv.filled⟩

end Sys2Proof.Proofs
end

section
/-! PROOFS. The Message Dispatcher (R118 to R125): the message decode, the single-frame message, and which frames can give a
message. -/

namespace Sys2Proof.Proofs

open Sys2Proof Sys2Proof.Machine

/-! ### The message decode (R123, R124) -/

section
variable {inst : Instance} {m : Message}

theorem msgDecode_unknown_error (k : Nat) (hpgn : dictPgn inst m.pgn = none) (hpolicy : inst.policy = .error) :
    msgDecode inst k m = raise .unknownPgn (.pgn m.pgn) := by
  simp only [msgDecode, hpgn, hpolicy]

theorem msgDecode_unknown_passRaw (k : Nat) (hpgn : dictPgn inst m.pgn = none) (hpolicy : inst.policy = .passRaw) :
    msgDecode inst k m = replyOk (.message ⟨m.pgn, m.sa, m.da, m.payload, false, []⟩) := by
  simp only [msgDecode, hpgn, hpolicy]

theorem msgDecode_known (k : Nat) {pd : PgnDef} (hpgn : dictPgn inst m.pgn = some pd) :
    msgDecode inst k m =
      replyOk (.message ⟨m.pgn, m.sa, m.da, m.payload, true, decodeSignals inst m.payload k pd.spnIds⟩) := by
  simp only [msgDecode, hpgn]

theorem msgDraws_unknown (hpgn : dictPgn inst m.pgn = none) : msgDraws inst m = 0 := by
  simp only [msgDraws, hpgn]

end

/-- The j-th signal of a message is that of the j-th listed SPN, and the dictionary decides its result. -/
theorem decodeSignals_listed (inst : Instance) (pay : List Byte) (k : Nat) {ids : List Word} {j : Nat} {id : Word}
    (hid : ids[j]? = some id) :
    ∃ res, (decodeSignals inst pay k ids)[j]? = some (id, res) ∧
      (dictSpn inst id = none → res = .err .unknownSpn id) ∧
      (∀ df, dictSpn inst id = some df → res = decodeSignal inst (k + j) pay df) := by
  refine ⟨decodeListed inst (k + j) pay id, ?_, fun hnone => ?_, fun df hdf => ?_⟩
  · rw [decodeSignals_getElem?, hid, Option.map_some]
  · simp only [decodeListed, hnone]
  · simp only [decodeListed, hdf]

/-- Settles O60: one equation of the decode for each branch, and each listed SPN's result is `decodeSignals_listed`. -/
theorem messageDecodeFollowsItsRule : Obligations.MessageDecodeFollowsItsRule := by
  intro inst k m
  refine ⟨msgDecode_unknown_error k, msgDecode_unknown_passRaw k, fun pd hpgn =>
    ⟨_, msgDecode_known k hpgn, decodeSignals_length .., fun j id hid => ?_⟩⟩
  obtain ⟨res, hres, hnone, hsome⟩ := decodeSignals_listed inst m.payload k hid
  exact ⟨res, hres, hnone, fun df hdf => ⟨k + j, hsome df hdf⟩⟩

/-! ### The single-frame message (R120) -/

/-- The message of a frame, its destination and its payload read from the frame (R51, R79). -/
theorem singleMessage_eq (x : IdFields) (dlc : BitVec 4) (d : Lanes) :
    singleMessage x dlc d = ⟨(pgnOf x).setWidth 32, x.sa, (if x.pf.toNat < 240 then x.ps else 0xFF#8),
      [d.b0, d.b1, d.b2, d.b3, d.b4, d.b5, d.b6, d.b7].take (min dlc.toNat 8)⟩ := by
  rw [singleMessage, daOf_eq]
  rfl

/-- The single-frame class answers the decode of its message and writes no session but for the sweep. -/
theorem exec_frameSingle (now : Time) (x : IdFields) (dlc : BitVec 4) (d : Lanes) (s : State) :
    ∃ t, exec (.frameSingle now x dlc d) s = .next t ∧
      Answered s t ⟨(msgDecode s.inst s.freeDraws (singleMessage x dlc d)).status, sweepEvents s.inst now s.table,
        (msgDecode s.inst s.freeDraws (singleMessage x dlc d)).result,
        (msgDecode s.inst s.freeDraws (singleMessage x dlc d)).info⟩ ∧
      t.table = sweepTable s.inst now s.table ∧
      t.freeDraws = s.freeDraws + msgDraws s.inst (singleMessage x dlc d) :=
  runFrame_message (now := now) (rule := fun t => (t, .message (singleMessage x dlc d))) rfl

/-- Settles O29: the decode of the frame's message takes its known branch (`msgDecode_known`). -/
theorem singleFrameMessageIsDecoded : Obligations.SingleFrameMessageIsDecoded := by
  intro now x dlc d pd s hpgn
  obtain ⟨t, hexec, hanswered, htable, -⟩ := exec_frameSingle now x dlc d s
  rw [msgDecode_known s.freeDraws (m := singleMessage x dlc d) hpgn, singleMessage_eq] at hanswered
  exact ⟨t, _, hexec, hanswered, decodeSignals_length .., fun j id hid => decodeSignals_listed _ _ _ hid, htable⟩

/-- Settles O30: the decode of the frame's message takes the unknown branch of the policy, and draws no free value. -/
theorem unknownPgnFollowsThePolicy : Obligations.UnknownPgnFollowsThePolicy := by
  intro now x dlc d s hpgn
  obtain ⟨t, hexec, hanswered, htable, hdraws⟩ := exec_frameSingle now x dlc d s
  rw [msgDraws_unknown (m := singleMessage x dlc d) hpgn] at hdraws
  refine ⟨t, _, hexec, hanswered, rfl, htable, hdraws, fun hpolicy => ?_, fun hpolicy => ?_⟩
  · rw [msgDecode_unknown_error s.freeDraws (m := singleMessage x dlc d) hpgn hpolicy]
    exact ⟨rfl, rfl, rfl⟩
  · rw [msgDecode_unknown_passRaw s.freeDraws (m := singleMessage x dlc d) hpgn hpolicy, singleMessage_eq]
    exact ⟨rfl, rfl, rfl⟩

/-! ### The class of a frame and its instruction (R118, R119) -/

/-- Settles O5: the class of the frame is what the second layer of decoding selects (`exec_selectClass`). -/
theorem processFrameRunsTheClassOfItsFrame : Obligations.ProcessFrameRunsTheClassOfItsFrame :=
  fun now f s => (exec_selectClass (.processFrame now f) s).symm

theorem classify_of_standard {f : Frame} (hide : f.ide = 0) : classify f = .standard := by
  rw [classify, if_pos hide]

/-- Settles O27: a frame with `ide = 0` decodes to the class that raises, whose rule returns the swept table. -/
theorem standardFrameIsRejected : Obligations.StandardFrameIsRejected := by
  intro now a dlc d s
  have hdecode : decodeFrame now ⟨0, a, dlc, d⟩ = .frameStandard now a dlc d := by
    rw [decodeFrame, classify_of_standard rfl]
  obtain ⟨t, hexec, hanswered, htable, hdraws⟩ := runFrame_raised (now := now) (s := s)
    (rule := fun t => (t, .raised .invalidIdentifier (.arbId a))) rfl
  refine ⟨t, ?_, hexec, hanswered, htable, hdraws⟩
  rw [processFrameRunsTheClassOfItsFrame, hdecode]
  exact hexec

/-! ### Which frames give a message (R121) -/

/-- A frame is answered with a message exactly when its rule returned one and the message decode did not raise. -/
theorem frameAnswer_message_iff (inst : Instance) (k : Nat) (o : FrameResult) :
    (∃ m, (frameAnswer inst k o).2.result = .message m) ↔
      (∃ m, o = .message m) ∧ (frameAnswer inst k o).2.status = .ok := by
  cases o with
  | nothing => simp [frameAnswer]
  | raised e x => simp [frameAnswer]
  | message m =>
    rcases msgDecode_cases inst k m with ⟨-, -, e⟩ | ⟨-, -, e⟩ | ⟨pd, -, e⟩ <;> simp [frameAnswer, e]

section
variable {inst : Instance} {now : Time} {sa da np : Byte} {size : BitVec 16} {pgn : BitVec 24} {t : Table} {m : Message}

theorem announce_ne_message {v : Session} : (announce inst t v).2 ≠ .message m := by
  rcases announce_cases inst t v with ⟨-, -, e⟩ | ⟨-, e⟩ <;> rw [e] <;> exact nofun

theorem ruleBam_ne_message : (ruleBam inst now sa da size np pgn t).2 ≠ .message m := by
  rw [ruleBam]
  split
  · exact nofun
  split
  · exact nofun
  · exact announce_ne_message

theorem ruleRts_ne_message : (ruleRts inst now sa da size np pgn t).2 ≠ .message m := by
  rw [ruleRts]
  split
  · exact nofun
  split
  · exact nofun
  · exact announce_ne_message

end

/-- A TP.DT that gives a message had a session and has removed it (R114). -/
theorem ruleDt_message {now : Time} {sa da q : Byte} {chunk : List Byte} {t : Table} {m : Message}
    (h : (ruleDt now sa da q chunk t).2 = .message m) :
    tableGet t sa da ≠ none ∧ tableGet (ruleDt now sa da q chunk t).1 sa da = none := by
  rcases ruleDt_cases now sa da q chunk t with ⟨-, e⟩ | ⟨v, -, -, e⟩ | ⟨v, hv, -, -, e⟩ | ⟨v, -, -, -, e⟩ <;> rw [e] at h ⊢
  · cases h
  · cases h
  · exact ⟨by simp [hv], tableGet_of_table_eq_erase rfl⟩
  · cases h

/-- When the rule of a frame's class gives a message (R121): always for a single frame, which writes no session, and for a TP.DT
only with a session that it removes; for no other frame. -/
structure MessageRule (f : Frame) (rule : Table → Table × FrameResult) : Prop where
  source : ∀ t m, (rule t).2 = .message m →
    (classify f = .single ∧ (rule t).1 = t) ∨
    (classify f = .dt ∧ tableGet t (tpHeader f).sa (tpHeader f).da ≠ none ∧
      tableGet (rule t).1 (tpHeader f).sa (tpHeader f).da = none)
  single : classify f = .single → ∀ t, ∃ m, (rule t).2 = .message m

theorem messageRule_of_silent {f : Frame} {rule : Table → Table × FrameResult} (hclass : classify f ≠ .single)
    (hsilent : ∀ t m, (rule t).2 ≠ .message m) : MessageRule f rule :=
  ⟨fun t m h => absurd h (hsilent t m), fun h => absurd h hclass⟩

/-- The rule that PROCESS_FRAME runs on the swept table, class by class (R118). -/
theorem processFrame_messageRule (now : Time) (f : Frame) (s : State) :
    ∃ rule, exec (.processFrame now f) s = runFrame now rule s ∧ MessageRule f rule := by
  rw [exec, execProcessFrame]
  cases hc : classify f
  case rts => exact ⟨_, rfl, messageRule_of_silent (by simp [hc]) fun _ _ => ruleRts_ne_message⟩
  case bam => exact ⟨_, rfl, messageRule_of_silent (by simp [hc]) fun _ _ => ruleBam_ne_message⟩
  case dt => exact ⟨_, rfl, fun t m h => .inr ⟨hc, ruleDt_message h⟩, fun h => by cases hc.symm.trans h⟩
  case single => exact ⟨_, rfl, fun t m h => .inl ⟨hc, rfl⟩, fun _ t => ⟨_, rfl⟩⟩
  all_goals exact ⟨_, rfl, messageRule_of_silent (by simp [hc]) nofun⟩

/-- Settles O31: the answer has a message exactly when the rule returned one and its decode did not raise
(`frameAnswer_message_iff`), and `MessageRule` says of which rules that can be. -/
theorem processFrameGivesAtMostOneMessage : Obligations.ProcessFrameGivesAtMostOneMessage := by
  intro now f s
  obtain ⟨rule, hexec, hrule⟩ := processFrame_messageRule now f s
  obtain ⟨t, q, hrun, rfl, hanswered⟩ := runFrame_answered now rule s
  have htable : t.table = (rule (sweepTable s.inst now s.table)).1 := by
    cases hrun
    exact finishFrame_table ..
  have hmessage := frameAnswer_message_iff s.inst s.freeDraws (rule (sweepTable s.inst now s.table)).2
  refine ⟨t, _, hexec.trans hrun, hanswered, rfl, fun m hm => ?_, fun hsingle hok => ?_⟩
  · obtain ⟨⟨m', hm'⟩, -⟩ := hmessage.1 ⟨m, hm⟩
    rw [htable]
    exact hrule.source _ m' hm'
  · exact hmessage.2 ⟨hrule.single hsingle _, hok⟩

end Sys2Proof.Proofs
end

section
/-! PROOFS. The control commands: TICK, QUERY_SESSION, RESET and the reserved command words (R116, R126 to R129). -/

namespace Sys2Proof.Proofs

open Sys2Proof Sys2Proof.Machine

/-! ### What a control command does -/

theorem exec_tick (now : Time) (s : State) :
    exec (.tick now) s = .next (respond (swept now s) (sweepEvents s.inst now s.table) (replyOk .none)) := rfl

theorem exec_querySession (now : Time) (src dst : Byte) (s : State) :
    exec (.querySession now src dst) s = .next (respond (swept now s) (sweepEvents s.inst now s.table)
      (replyOk (queryResult (sweepTable s.inst now s.table) src dst))) := rfl

theorem exec_reset (s : State) : exec .reset s = .next (respond { s with table := [] } [] (replyOk .none)) := rfl

theorem exec_illegalReserved (cw : Word) (s : State) :
    exec (.illegalReserved cw) s = .next (respond s [] (raise .illegalCommand (.cw cw))) := rfl

theorem exec_illegalOpcode7 (s : State) :
    exec .illegalOpcode7 s = .next (respond s [] (raise .illegalCommand (.cw 7#32))) := rfl

/-- A response after a sweep: the sweep writes the table alone (R117). -/
theorem respond_swept_answered (now : Time) (s : State) (ev : List Event) (r : Reply) :
    Answered s (respond (swept now s) ev r) ⟨r.status, ev, r.result, r.info⟩ := ⟨rfl, rfl, rfl⟩

/-! ### The expired sessions and their events (R116, R117, R132) -/

/-- The expiry condition, mode by mode (R116). -/
theorem expired_iff_of_mode (inst : Instance) (now : Time) (v : Session) :
    expired inst now v = true ↔ v.lastActivity < now ∧
      (v.mode = .bam → inst.timeoutBam.toNat < now - v.lastActivity) ∧
      (v.mode = .rtsCts → inst.timeoutCm.toNat < now - v.lastActivity) := by
  rw [expired_iff, window]
  cases v.mode <;> simp

theorem keyOf_keySrc_keyDst {k : Nat} (h : k < 65536) : keyOf (keySrc k) (keyDst k) = k := by
  simp only [keyOf, keySrc, keyDst, BitVec.toNat_ofNat]
  omega

section
variable {inst : Instance} {now : Time} {t : Table} (ht : TableInv inst t)
include ht

/-- A listed key is a source and a destination (R19). -/
theorem keyOf_timeoutEvent {p : Nat × Session} (hp : p ∈ t) : keyOf (timeoutEvent p.1).src (timeoutEvent p.1).dst = p.1 := by
  apply keyOf_keySrc_keyDst
  rw [ht.keys p hp]
  exact keyOf_lt ..

/-- The sweep reports the keys of the expired sessions and no other. -/
theorem mem_sweepEvents (e : Event) : e ∈ sweepEvents inst now t ↔
    e.code = .sessionTimeout ∧ ∃ v, tableGet t e.src e.dst = some v ∧ expired inst now v = true := by
  simp only [sweepEvents, List.mem_map, List.mem_filter]
  constructor
  · rintro ⟨p, ⟨hp, hexp⟩, rfl⟩
    refine ⟨rfl, p.2, mapGet_of_mem ht.wf ?_, hexp⟩
    rwa [keyOf_timeoutEvent ht hp]
  · rintro ⟨hcode, v, hv, hexp⟩
    obtain ⟨code, src, dst⟩ := e
    cases hcode
    exact ⟨_, ⟨mem_of_mapGet hv, hexp⟩, timeoutEvent_keyOf src dst⟩

/-- Whether a stored session is reported. -/
theorem timeout_mem_sweepEvents {a b : Byte} {v : Session} (hv : tableGet t a b = some v) :
    ⟨.sessionTimeout, a, b⟩ ∈ sweepEvents inst now t ↔ expired inst now v = true := by
  simp [mem_sweepEvents ht, hv]

/-- The events of a sweep ascend because the table's keys do (R117). -/
theorem sweepEvents_ascending :
    (sweepEvents inst now t).Pairwise fun e e' => keyOf e.src e.dst < keyOf e'.src e'.dst := by
  rw [sweepEvents, List.pairwise_map]
  refine (filter_wf ht.wf _).imp_of_mem fun hp hp' hlt => ?_
  rwa [keyOf_timeoutEvent ht (List.mem_of_mem_filter hp), keyOf_timeoutEvent ht (List.mem_of_mem_filter hp')]

end

/-- Settles O43: the table is the swept one and the events are the sweep's, and both follow the expiry condition. -/
theorem tickEvictsExactlyTheExpired : Obligations.TickEvictsExactlyTheExpired := by
  intro now s hinv
  have ht := (stateInv_iff s).1 hinv
  have hget := tableGet_sweepTable ht.wf s.inst now
  refine ⟨_, _, exec_tick now s, respond_swept_answered .., rfl, fun a b hnone => ?_, fun a b v hv => ?_,
    fun e he => ?_, sweepEvents_ascending ht⟩
  · exact (hget a b).trans (by rw [hnone]; rfl)
  · rw [← expired_iff_of_mode, timeout_mem_sweepEvents ht hv]
    refine ⟨fun hexp => ⟨(hget a b).trans ?_, hexp⟩, fun hexp => ⟨(hget a b).trans ?_, hexp⟩⟩
    · simp [hv, hexp]
    · simp [hv, hexp]
  · obtain ⟨hcode, v, hv, -⟩ := (mem_sweepEvents ht e).1 he
    exact ⟨hcode, by simp [hv]⟩

/-- Where nothing is expired a TICK only responds. -/
theorem exec_tick_of_unexpired {now : Time} {s : State} (h : Unexpired s.inst now s.table) :
    exec (.tick now) s = .next (respond s [] (replyOk .none)) := by
  rw [exec_tick, swept, sweepTable_of_unexpired h, sweepEvents_of_unexpired h]

/-- Settles O45: the first TICK leaves a table in which nothing is expired at its time. -/
theorem secondTickIsSilent : Obligations.SecondTickIsSilent := by
  intro now s t hfirst
  cases hfirst
  exact ⟨_, exec_tick_of_unexpired unexpired_sweepTable, respond_answered .., rfl, rfl⟩

/-! ### The view of a session (R65, R127) -/

theorem rcvMaskSum_lt (rcv : NatMap (List Byte)) (n : Nat) : rcvMaskSum rcv n < 2 ^ (n + 1) := by
  induction n with
  | zero => simp [rcvMaskSum]
  | succ n ih =>
    rw [rcvMaskSum, Nat.shiftLeft_eq, Nat.pow_succ 2 (n + 1)]
    split <;> omega

/-- Bit `q` of the mask is set for a slot of `1 .. n` that holds a chunk. -/
theorem rcvMaskSum_testBit (rcv : NatMap (List Byte)) (n q : Nat) :
    (rcvMaskSum rcv n).testBit q = true ↔ 1 ≤ q ∧ q ≤ n ∧ mapGet q rcv ≠ none := by
  induction n with
  | zero => simp [rcvMaskSum]; omega
  | succ n ih =>
    have hsum : rcvMaskSum rcv (n + 1) = 2 ^ (n + 1) * (mapGet (n + 1) rcv).isSome.toNat + rcvMaskSum rcv n := by
      rw [rcvMaskSum, Nat.shiftLeft_eq]
      cases (mapGet (n + 1) rcv).isSome <;> simp [Nat.add_comm]
    rw [hsum, Nat.testBit_two_pow_mul_add _ (rcvMaskSum_lt rcv n)]
    rcases lt_trichotomy q (n + 1) with hlow | rfl | hhigh
    · have hq : q ≤ n ↔ q ≤ n + 1 := by omega
      rw [if_pos hlow, ih, hq]
    · cases mapGet (n + 1) rcv <;> simp
    · obtain ⟨j, hj⟩ := Nat.exists_eq_succ_of_ne_zero (show q - (n + 1) ≠ 0 by omega)
      rw [if_neg (by omega), hj]
      cases (mapGet (n + 1) rcv).isSome <;> simp [show ¬q ≤ n + 1 by omega, Nat.testBit_succ]

/-- The mask of a view has room for every slot, since `np` is a byte. -/
theorem viewOf_rcvMask_getLsbD (v : Session) (q : Nat) :
    (viewOf v).rcvMask.getLsbD q = true ↔ 1 ≤ q ∧ q ≤ v.np.toNat ∧ mapGet q v.rcv ≠ none := by
  have hnp := v.np.isLt
  simp only [viewOf, BitVec.getLsbD_ofNat, Bool.and_eq_true, decide_eq_true_eq, rcvMaskSum_testBit]
  exact and_iff_right_of_imp fun ⟨_, hq, _⟩ => by omega

theorem modeNum_toNat (m : Mode) : (modeNum m).toNat = if m = .bam then 0 else 1 := by
  cases m <;> rfl

theorem sessStateNum_toNat (x : SessState) : (sessStateNum x).toNat = if x = .announced then 1 else 2 := by
  cases x <;> rfl

theorem queryResult_of_none {t : Table} {src dst : Byte} (h : tableGet t src dst = none) :
    queryResult t src dst = .none := by
  rw [queryResult, h]

theorem queryResult_of_some {t : Table} {src dst : Byte} {v : Session} (h : tableGet t src dst = some v) :
    queryResult t src dst = .view (viewOf v) := by
  rw [queryResult, h]

/-- Settles O46: the result is a lookup in the swept table, and a found session is answered by its view. -/
theorem querySessionShowsTheSession : Obligations.QuerySessionShowsTheSession := by
  intro now src dst s
  refine ⟨_, _, exec_querySession now src dst s, respond_swept_answered .., rfl, rfl, rfl, rfl, rfl,
    queryResult_of_none, fun v hv => ⟨viewOf v, queryResult_of_some hv, ?_⟩⟩
  exact ⟨modeNum_toNat v.mode, sessStateNum_toNat v.state, rfl, rfl, rfl, rfl, rfl, rfl, rfl, viewOf_rcvMask_getLsbD v⟩

/-! ### RESET and the reserved command words (R128, R129) -/

/-- Settles O47: no key of the empty table holds a session. -/
theorem resetEmptiesTheTable : Obligations.ResetEmptiesTheTable := by
  intro s
  exact ⟨_, exec_reset s, ⟨rfl, rfl, rfl⟩, tableGet_nil, rfl⟩

/-- A reserved command word decodes to an instruction that reports it (R70). -/
theorem decode_of_reserved {c : PortCommand} (h : 7 ≤ c.cw.toNat) : ∃ i, decode c = .ok i ∧
    ∀ s, exec i s = .next (respond s [] (raise .illegalCommand (.cw c.cw))) := by
  rcases h.lt_or_eq with hbits | h7
  · exact ⟨_, decode_illegalReserved (bitsAt_reserved_ne_zero hbits), exec_illegalReserved c.cw⟩
  · have hcw : c.cw = 7#32 := BitVec.eq_of_toNat_eq h7.symm
    rw [hcw]
    exact ⟨_, decode_illegalOpcode7 hcw, exec_illegalOpcode7⟩

/-- Settles O48: the two illegal instructions only respond, and the step runs one of them (`decode_of_reserved`). -/
theorem illegalCommandIsReported : Obligations.IllegalCommandIsReported := by
  refine ⟨fun s c rest hin hcw => ?_, fun cw s => ?_, fun s => ?_⟩
  · obtain ⟨i, hdec, hexec⟩ := decode_of_reserved hcw
    exact ⟨_, (stepRunsTheDecodedCommand s c rest i hin hdec).trans (hexec _), rfl, rfl, rfl, rfl, rfl⟩
  · exact ⟨_, exec_illegalReserved cw s, respond_answered .., rfl, rfl⟩
  · exact ⟨_, exec_illegalOpcode7 s, respond_answered .., rfl, rfl⟩

end Sys2Proof.Proofs
end

section
/-! PROOFS. What the step answers when it runs no instruction (R142, R146, R60), and the numbers a host sees (R130, R63, R21). -/

namespace Sys2Proof.Proofs

open Sys2Proof Sys2Proof.Machine

/-- A DECODE_SPN without exactly `n` payload bytes is no command (R60, log entry 9). -/
theorem decode_decodeSpn_badCount {c : PortCommand} (h : c.cw = 3#32) (hcount : c.payload.length ≠ c.n.toNat) :
    decode c = .error .payloadCount := by
  rw [decode, h]
  exact if_neg hcount

/-- With no command presented the step answers the state it was given (log entry 6). -/
theorem step_of_empty {s : State} (hin : s.inbox = []) : step s = .next s := by
  rw [step, takeCommand_empty hin]

/-- The step refuses by name what the decoder refuses. -/
theorem step_of_decode_error {s : State} {c : PortCommand} {rest : List PortCommand} (hin : s.inbox = c :: rest)
    (hdec : decode c = .error .payloadCount) : step s = .refused .payloadCount := by
  simp only [step, takeCommand_next hin, hdec]

/-- Settles O2: an empty inbox gives nothing to decode, and a wrong payload count makes the decoder refuse
(`decode_decodeSpn_badCount`). -/
theorem stepWithoutACommandIsIdle : Obligations.StepWithoutACommandIsIdle :=
  ⟨fun _ => step_of_empty, fun _ _ _ hin hcw hcount => step_of_decode_error hin (decode_decodeSpn_badCount hcw hcount)⟩

/-- Settles O49: the four tables are closed lists, and each encoding computes to its column. -/
theorem numericEncodingsAreTheTables : Obligations.NumericEncodingsAreTheTables :=
  ⟨rfl, rfl, rfl, rfl⟩

end Sys2Proof.Proofs
end

section
/-! PROOFS. Reset, runs and late frames (R28, R143, R150, R152, R154): creation meets the invariant, every run keeps it, and a data
frame that comes after its session's window finds the session already swept. -/

namespace Sys2Proof.Proofs

open Sys2Proof Sys2Proof.Machine

/-! ### Creation and every run (R23, R28, R143, R154) -/

/-- Creation leaves the empty table, and the empty table meets the invariant whatever the parameters (R28, R143). -/
theorem stateInv_create (inst : Instance) : StateInv (State.create inst) :=
  (stateInv_iff _).2 (tableInv_empty inst)

/-- Settles O53: the state at reset is a creation, and its table and defaults are read off its definition. -/
theorem creationMeetsTheSessionInvariants : Obligations.CreationMeetsTheSessionInvariants :=
  ⟨stateInv_create, stateInv_create defaultInstance, rfl, rfl, rfl, rfl⟩

/-- Presenting a command writes neither the table nor the parameters (R146). -/
theorem stateInv_present {s : State} (h : StateInv s) (c : PortCommand) : StateInv { s with inbox := s.inbox ++ [c] } :=
  (stateInv_iff _).2 ((stateInv_iff s).1 h)

/-- By induction on the run: creation meets the invariant, and presenting a command and taking a step keep it. -/
theorem stateInv_of_reachable {s : State} (h : Reachable s) : StateInv s := by
  induction h with
  | create inst => exact stateInv_create inst
  | present s c _ ih => exact stateInv_present ih c
  | step s t _ hstep ih => exact stepKeepsTheSessionInvariants s t ih hstep

/-- Settles O54: the bound on the table's length is a part of the invariant every run keeps (R20, R150). -/
theorem everyRunKeepsTheSessionInvariants : Obligations.EveryRunKeepsTheSessionInvariants := by
  intro s hreach
  have hinv := stateInv_of_reachable hreach
  exact ⟨hinv, hinv.capacity⟩

/-! ### A data frame after its session's window (R117, R152) -/

/-- The sweep leaves no session at a key whose session is expired. -/
theorem tableGet_sweepTable_of_expired {inst : Instance} {now : Time} {t : Table} {a b : Byte} {v : Session}
    (hwf : MapWf t) (hv : tableGet t a b = some v) (hexp : expired inst now v = true) :
    tableGet (sweepTable inst now t) a b = none := by
  rw [tableGet_sweepTable hwf, hv, Option.filter_some, hexp]
  rfl

/-- Settles O58: the sweep reports and removes the expired session before the frame's rule looks for it, so the frame is answered
as one without a session (O40). -/
theorem lateDataFrameFindsNoSession : Obligations.LateDataFrameFindsNoSession := by
  intro now h q c s v hinv hv hlate hwindow
  have hexp : expired s.inst now v = true := (expired_iff ..).2 ⟨hlate, hwindow⟩
  have hgone : tableGet (sweepTable s.inst now s.table) h.sa h.da = none :=
    tableGet_sweepTable_of_expired hinv.tableWf hv hexp
  have hreported : ⟨.sessionTimeout, h.sa, h.da⟩ ∈ sweepEvents s.inst now s.table :=
    (timeout_mem_sweepEvents ((stateInv_iff s).1 hinv) hv).2 hexp
  obtain ⟨t, ⟨status, events, result, info⟩, hexec, hanswered, rfl, -, hignored, -⟩ :=
    dataFrameFollowsItsRule now h q c s
  obtain ⟨rfl, rfl, rfl, -, hnone⟩ := hignored hgone
  exact ⟨t, _, hexec, hanswered, hreported, hnone⟩

end Sys2Proof.Proofs
end
